-- ==== Sys2Proof/Word.lean ====
section
/-! DEFINITION. The words of the machine: a byte, a 64-bit register word, a register number (00_scope.md R4). -/

namespace Sys2Proof

/-- One byte is 8 bits (00_scope.md R4). -/
abbrev Byte := BitVec 8

/-- A register, an address and the program counter are 64 bits wide (00_scope.md R4, 10_state.md R20, R25). -/
abbrev Word := BitVec 64

/-- A register is named by one byte, and every byte names one (10_state.md R20, 30_encoding.md R76). -/
abbrev RegNum := BitVec 8

end Sys2Proof
end

