-- ==== Sys2Proof/Config.lean ====
section
/-! DEFINITION. What the spec leaves to the implementation: the OPEN parameters of 00_scope.md R6 that are constants of a machine (the free values), and the launch values that State.reset uses. -/

namespace Sys2Proof

/-- The instructions whose IEEE 754 result can be a NaN (46_float.md R292): the first argument of `NAN_CHOICE`. -/
inductive NanSource where
  | fadd32 | fadd64 | fsub32 | fsub64 | fmul32 | fmul64 | fdiv32 | fdiv64 | fma32 | fma64 | fc32t64 | fc64t32
  deriving DecidableEq, Repr

/-- The two conversions to an integer (46_float.md R316, R317): the first argument of `FTI_INVALID`'s value. -/
inductive FtiSource where
  | fti32 | fti64
  deriving DecidableEq, Repr

/-- `NAN_CHOICE` (46_float.md R292): a function of the instruction and its operand bits, in operand order.
DESIGN CHOICE (assumption log 8): the rounding-mode byte of `FC64T32` counts among the operand bits, as the last of them.
Bit 63 of the value is the NaN's sign and its low bits the NaN's fraction (see `nanPattern`).
A FREE VALUE: nothing is known of it (assumption log 8). -/
opaque Config.nanChoice : NanSource → List Word → Word

/-- Whether `FTI_INVALID` (46_float.md R316, R317) is "raise `InvalidOperand`" on this implementation.
A FREE VALUE (assumption log 9). -/
opaque Config.ftiInvalidRaises : Bool

/-- The value V(instruction, operand bits) that `FTI_INVALID` writes where it does not raise (46_float.md R316, R317): the
operand's bits, then the rounding-mode byte.
DESIGN CHOICE (assumption log 9): the rounding-mode byte counts among the operand bits.
A FREE VALUE (assumption log 9). -/
opaque Config.ftiInvalidValue : FtiSource → Word → Byte → Word

/-- Which of several failing bytes a memory access fault reports (60_exceptions.md R378: "which one, when several fail,
is not fixed"): an index, taken modulo the number of failing bytes, for each value of the state's counter `draws`.
A FREE VALUE (assumption log 10). -/
opaque Config.faultIndex : Nat → Nat

/-- Whether destination byte `k` of a faulting store or block copy holds the byte the completed instruction would have
written (60_exceptions.md R368), for each value of the state's counter `draws` and each offset `k`.
A FREE VALUE (assumption log 11). -/
opaque Config.partialWrite : Nat → Nat → Bool

/-- `ENTRY_PC` at launch. DESIGN CHOICE (assumption log 2): the address every vector of 95_test_vectors.md starts at. -/
def Config.entryPc : Word := 0x1000#64

/-- `INIT_REGS` at launch, the same for registers 1 to 255. DESIGN CHOICE (assumption log 1). -/
def Config.initReg : Word := 0#64

end Sys2Proof
end

