-- ==== Sys2Proof/Machine/State.lean ====
section
/-! DEFINITION. The state of the machine (10_state.md, 20_memory.md R43, 60_exceptions.md), the reasons of the model's own outcomes, and the state at launch. -/

namespace Sys2Proof.Machine

open Sys2Proof

/-- What an access to memory does with its bytes (20_memory.md R46). -/
inductive AccessKind where
  | fetch | read | write
  deriving DecidableEq, Repr

/-- A region of the address space with its permissions: addresses `base` to `base + size - 1`. A list of them says which
bytes `MemMap` makes readable, writable and fetchable (20_memory.md R43). -/
structure Region where
  base : Nat
  size : Nat
  readable : Bool
  writable : Bool
  fetchable : Bool
  deriving DecidableEq, Repr

/-- The two traps (60_exceptions.md R362). -/
inductive Trap where
  | environmentCall
  | breakpoint
  deriving DecidableEq, Repr

/-- Which operand an `InvalidOperand` names: its `info` (60_exceptions.md R361, R378; assumption log 19). -/
inductive BadOperand where
  /-- The rounding-mode byte is 4 or more (46_float.md R293). -/
  | roundingMode
  /-- A run of registers passes register 255 (44_memory_access.md R232, R238). -/
  | registerRange
  /-- The value to convert is a NaN, an infinity or out of range, on an implementation that raises (46_float.md R316). -/
  | conversionSource
  deriving DecidableEq, Repr

/-- The exceptions, each with the `info` the host sees of it (60_exceptions.md R361, R378). -/
inductive Exn where
  | memoryAccessFault (kind : AccessKind) (address : Word)
  | invalidOperand (which : BadOperand)
  | unknownOpcode (opcode : Byte)
  | unreachable
  deriving DecidableEq, Repr

/-- The run status (10_state.md R30). Only a running machine executes instructions. -/
inductive RunStatus where
  | running
  | trapped (t : Trap)
  | faulted (e : Exn)
  | halted
  deriving DecidableEq, Repr

/-- One act of the host on a machine that a trap or an exception has stopped (60_exceptions.md R369). -/
inductive HostAct where
  /-- Write a register; register 0 stays 0. -/
  | setReg (r : RegNum) (v : Word)
  /-- Write the program counter. -/
  | setPc (a : Word)
  /-- Write a byte of memory. -/
  | setByte (a : Word) (b : Byte)
  /-- Change which addresses are valid. -/
  | setMemMap (m : List Region)
  /-- Set the status to running: the machine continues with the instruction at the program counter. -/
  | resume
  deriving DecidableEq, Repr

/-- The state of the machine. -/
structure State where
  /-- The 256 general registers (10_state.md R20). Element 0 is never used as a register: see `State.reg`. -/
  regs : Vector Word 256
  /-- The address of the opcode byte of the instruction about to execute (10_state.md R25). -/
  pc : Word
  /-- The bytes of memory (10_state.md R31): the addresses that do not read 0, in rising order. -/
  mem : List Host.Cell
  /-- `MemMap` (20_memory.md R43). -/
  memMap : List Region
  /-- The run status (10_state.md R30). -/
  status : RunStatus
  /-- The model's own field: what the host will do while the machine is stopped, the OPEN parameter `Host` (00_scope.md R6). -/
  host : List HostAct
  /-- The model's own field: the index of the next free choice made by a memory access fault. -/
  draws : Nat
  deriving DecidableEq, Repr

/-- Why the model's step has no next state. The spec's exceptions are not among them: they are next states with the status
`faulted` (60_exceptions.md R366). -/
inductive Fault where
  /-- The decoder refuses the bytes that the fetch read for an assigned opcode. Raised by `step` alone; the encoding tables
  agree (30_encoding.md R73), so no state raises it (assumption log 14). Safe: the model stops. -/
  | undecodable
  deriving DecidableEq, Repr

/-- Why the model refuses an instruction. -/
inductive Refusal where
  /-- An instruction without a meaning in this model. Raised by no arm of `exec`: every instruction has its meaning. Safe. -/
  | notModelled (mnemonic : String)
  deriving DecidableEq, Repr

/-- What executing an instruction, or one step, answers. -/
abbrev Result := Host.Outcome State Fault Refusal

/-- The map at launch: every address but 0, with every permission. DESIGN CHOICE (assumption log 4). -/
def State.launchMemMap : List Region :=
  [{ base := 1, size := 2 ^ 64 - 1, readable := true, writable := true, fetchable := true }]

/-- The machine at launch (10_state.md R33). The status and register 0 are the spec's; `INIT_REGS`, `ENTRY_PC`, the memory
and its map are OPEN there and named by assumption log 1 to 4, the two fields of the model's own by log 6 and 10. -/
def State.reset : State where
  regs := Vector.replicate 256 Config.initReg
  pc := Config.entryPc
  mem := []
  memMap := State.launchMemMap
  status := .running
  host := []
  draws := 0

end Sys2Proof.Machine
end

