-- ==== Sys2Proof/Machine/Memory.lean ====
section
/-! DEFINITION. The memory as a list of cells in one canonical form, and which addresses `MemMap` makes valid (20_memory.md). -/

namespace Sys2Proof.Machine

open Sys2Proof

/-! ## One byte -/

/-- What an address that is not listed reads as. DESIGN CHOICE (assumption log 3). -/
def Memory.unlisted : Byte := 0#8

/-- The byte at an address. -/
def Memory.read : List Host.Cell → Nat → Byte
  | [], _ => Memory.unlisted
  | (k, b) :: m, a => if a = k then b else Memory.read m a

/-- Writes the byte at an address. Cells stay in rising order, and a cell that would hold what an unlisted address reads as
is removed, so that equal memories are equal lists. -/
def Memory.write : List Host.Cell → Nat → Byte → List Host.Cell
  | [], a, v => if v = Memory.unlisted then [] else [(a, v)]
  | (k, b) :: m, a, v =>
    if a = k then (if v = Memory.unlisted then Memory.write m a v else (a, v) :: m)
    else if a < k ∧ v ≠ Memory.unlisted then (a, v) :: (k, b) :: m
    else (k, b) :: Memory.write m a v

/-- The canonical form above address `lo`: addresses strictly rising and below 2^64, no cell listed in vain. -/
def Memory.wfFrom (lo : Nat) : List Host.Cell → Bool
  | [] => true
  | (k, b) :: m => lo < k && k < 2 ^ 64 && b != Memory.unlisted && Memory.wfFrom k m

/-- The canonical form. No cell stands at address 0, which is never valid (20_memory.md R42). -/
def Memory.wf (m : List Host.Cell) : Bool :=
  Memory.wfFrom 0 m

/-- The byte at an address of the machine. -/
def State.byteAt (s : State) (a : Word) : Byte :=
  Memory.read s.mem a.toNat

/-! ## Runs of bytes: byte `k` is at `(a + k) mod 2^64` (00_scope.md R11, 20_memory.md R47) -/

/-- `n` bytes from address `a` on, lowest address first. -/
def Memory.readBytes (m : List Host.Cell) (a : Word) : Nat → List Byte
  | 0 => []
  | n + 1 => Memory.read m a.toNat :: Memory.readBytes m (a + 1#64) n

/-- Writes the bytes that are given from address `a` on; a place without a byte keeps the one it has. -/
def Memory.writeSome (m : List Host.Cell) (a : Word) : List (Option Byte) → List Host.Cell
  | [] => m
  | none :: bs => Memory.writeSome m (a + 1#64) bs
  | some b :: bs => Memory.writeSome (Memory.write m a.toNat b) (a + 1#64) bs

/-- Writes bytes from address `a` on. -/
def Memory.writeBytes (m : List Host.Cell) (a : Word) (bs : List Byte) : List Host.Cell :=
  Memory.writeSome m a (bs.map some)

/-! ## Valid addresses (20_memory.md R42, R43, R46) -/

/-- The region holds the address. -/
def Region.contains (r : Region) (a : Word) : Bool :=
  r.base ≤ a.toNat && a.toNat < r.base + r.size

/-- The region permits this kind of access. -/
def Region.permits (r : Region) : AccessKind → Bool
  | .fetch => r.fetchable
  | .read => r.readable
  | .write => r.writable

/-- `readable(a)`, `writable(a)`, `fetchable(a)`: false at address 0 (20_memory.md R42, R43). -/
def State.allows (s : State) (kind : AccessKind) (a : Word) : Bool :=
  a != 0#64 && s.memMap.any fun r => r.contains a && r.permits kind

/-- The addresses of an access of `n` bytes that fail its predicate, in order (20_memory.md R46). -/
def State.failing (s : State) (kind : AccessKind) (a : Word) : Nat → List Word
  | 0 => []
  | n + 1 => if s.allows kind a then s.failing kind (a + 1#64) n else a :: s.failing kind (a + 1#64) n

/-- Whether an access of `n` bytes raises `MemoryAccessFault`, and then the address it reports: a failing one, a free choice
among them where there are several (20_memory.md R46, 60_exceptions.md R378, assumption log 10). -/
def State.faultAddress (s : State) (kind : AccessKind) (a : Word) (n : Nat) : Option Word :=
  match s.failing kind a n with
  | [] => none
  | [x] => some x
  | x :: y :: rest => some ((x :: y :: rest).getD (Config.faultIndex s.draws % (rest.length + 2)) x)

end Sys2Proof.Machine
end

