-- ==== Sys2Proof/Machine/Ops.lean ====
section
/-! DEFINITION. The named operations on the state: registers, the register file as bytes, loads and stores, taking a trap or an exception, and the host's acts that return from one. -/

namespace Sys2Proof.Machine

open Sys2Proof

/-! ## Registers (10_state.md R22, 00_scope.md R10) -/

/-- `x[r]`: register 0 reads 0. -/
def State.reg (s : State) (r : RegNum) : Word :=
  if r = 0#8 then 0#64 else s.regs[r.toNat]'(r.isLt)

/-- `x[r] <- v`: a write to register 0 does nothing. -/
def State.setReg (s : State) (r : RegNum) (v : Word) : State :=
  if r = 0#8 then s else { s with regs := s.regs.set r.toNat v r.isLt }

/-- `pc <- pc + len` (10_state.md R26). -/
def State.advance (s : State) (len : Nat) : State :=
  { s with pc := s.pc + BitVec.ofNat 64 len }

/-- `pc <- t`. -/
def State.jump (s : State) (target : Word) : State :=
  { s with pc := target }

/-! ## The register file as bytes (00_scope.md R12) -/

/-- Byte `i` of a word, byte 0 the least significant. -/
def wordByte (w : Word) (i : Nat) : Byte :=
  w.extractLsb' (8 * i) 8

/-- The word with byte `i` replaced. -/
def setWordByte (w : Word) (i : Nat) (b : Byte) : Word :=
  (w &&& ~~~(0xFF#64 <<< (8 * i))) ||| (b.setWidth 64 <<< (8 * i))

/-- `RB[j]`: byte `j mod 8` of register `j div 8`. -/
def State.regByte (s : State) (j : Nat) : Byte :=
  wordByte (s.reg (BitVec.ofNat 8 (j / 8))) (j % 8)

/-- `RB[j] <- b`. -/
def State.setRegByte (s : State) (j : Nat) (b : Byte) : State :=
  s.setReg (BitVec.ofNat 8 (j / 8)) (setWordByte (s.reg (BitVec.ofNat 8 (j / 8))) (j % 8) b)

/-- `n` bytes of the register file from `RB[j]` on. -/
def State.regBytes (s : State) (j : Nat) : Nat → List Byte
  | 0 => []
  | n + 1 => s.regByte j :: s.regBytes (j + 1) n

/-- Writes bytes into the register file from `RB[j]` on. -/
def State.setRegBytes (s : State) (j : Nat) : List Byte → State
  | [] => s
  | b :: bs => (s.setRegByte j b).setRegBytes (j + 1) bs

/-- The values of `n` registers from register `r` on. -/
def State.regRun (s : State) (r : Nat) : Nat → List Word
  | 0 => []
  | n + 1 => s.reg (BitVec.ofNat 8 r) :: s.regRun (r + 1) n

/-- Writes registers from register `r` on. -/
def State.setRegRun (s : State) (r : Nat) : List Word → State
  | [] => s
  | v :: vs => (s.setReg (BitVec.ofNat 8 r) v).setRegRun (r + 1) vs

/-! ## Traps and exceptions (60_exceptions.md R365, R366) -/

/-- Taking an exception (R366): the program counter stays on the instruction, nothing is saved, switched or vectored, the
status says which exception it was, and the machine stops. -/
def State.raise (s : State) (e : Exn) : State :=
  { s with status := .faulted e }

/-- Taking a `MemoryAccessFault`, whose free choices the next fault does not share (assumption log 10). -/
def State.raiseAccess (s : State) (kind : AccessKind) (address : Word) : State :=
  { s.raise (.memoryAccessFault kind address) with draws := s.draws + 1 }

/-- Taking a trap (R365): the program counter goes to the following instruction, which is one byte on. -/
def State.trap (s : State) (t : Trap) : State :=
  { s.advance 1 with status := .trapped t }

/-- `TX` (40_exec_control.md R101): the program counter goes past it and the machine stops for good. -/
def State.halt (s : State) : State :=
  { s.advance 1 with status := .halted }

/-- One act of the host on a stopped machine (60_exceptions.md R369). Address 0 is no location of memory
(20_memory.md R42), so an act that would write it does nothing (assumption log 6). -/
def State.hostAct (s : State) : HostAct → State
  | .setReg r v => s.setReg r v
  | .setPc a => s.jump a
  | .setByte a b => if a = 0#64 then s else { s with mem := Memory.write s.mem a.toNat b }
  | .setMemMap m => { s with memMap := m }
  | .resume => { s with status := .running }

/-- The host's turn on a machine stopped by a trap or an exception: its next act, or nothing when it has none
(60_exceptions.md R369, R370). -/
def State.hostTurn (s : State) : State :=
  match s.host with
  | [] => s
  | act :: rest => ({ s with host := rest } : State).hostAct act

/-! ## Loads and stores (44_memory_access.md) -/

/-- Whether the bytes `RB[8r]` to `RB[8r + n - 1]` would pass register 255 (44_memory_access.md R232). -/
def pastLastRegister (r : RegNum) (n : Nat) : Bool :=
  8 * r.toNat + n > 2048

/-- A load of `size` bytes from `addr` into the registers from `r` on (44_memory_access.md R233), `len` the instruction's length. -/
def State.load (s : State) (r : RegNum) (addr : Word) (size : BitVec 16) (len : Nat) : Result :=
  if pastLastRegister r size.toNat then .next (s.raise (.invalidOperand .registerRange))
  else
    match s.faultAddress .read addr size.toNat with
    | some a => .next (s.raiseAccess .read a)
    | none => .next ((s.setRegBytes (8 * r.toNat) (Memory.readBytes s.mem addr size.toNat)).advance len)

/-- What a faulting store or block copy leaves in its destination range (60_exceptions.md R368): a writable byte holds its
old value or the one the completed instruction would have written, a free choice for each (assumption log 11). The list
holds the bytes from offset `k` on, the first of them for address `a`, `none` where there is no byte to write. -/
def State.partialStore (s : State) (a : Word) (k : Nat) : List (Option Byte) → List (Option Byte)
  | [] => []
  | b :: bs =>
    (if s.allows .write a && Config.partialWrite s.draws k then b else none) :: s.partialStore (a + 1#64) (k + 1) bs

/-- A memory access fault of an instruction that writes memory: the exception, with the destination as `partialStore` says. -/
def State.faultStoring (s : State) (kind : AccessKind) (address dst : Word) (bytes : List (Option Byte)) : State :=
  { s.raiseAccess kind address with mem := Memory.writeSome s.mem dst (s.partialStore dst 0 bytes) }

/-- Stores bytes from `addr` on, `len` the instruction's length: the whole range is checked first (20_memory.md R46). -/
def State.storeBytes (s : State) (addr : Word) (bytes : List Byte) (len : Nat) : Result :=
  match s.faultAddress .write addr bytes.length with
  | some a => .next (s.faultStoring .write a addr (bytes.map some))
  | none => .next (({ s with mem := Memory.writeBytes s.mem addr bytes } : State).advance len)

/-- A store of `size` bytes of the registers from `r` on to `addr` (44_memory_access.md R234). -/
def State.store (s : State) (r : RegNum) (addr : Word) (size : BitVec 16) (len : Nat) : Result :=
  if pastLastRegister r size.toNat then .next (s.raise (.invalidOperand .registerRange))
  else s.storeBytes addr (s.regBytes (8 * r.toNat) size.toNat) len

/-- `n` bytes from address `a` on, `none` for a byte that is not readable. -/
def State.readableBytes (s : State) (a : Word) : Nat → List (Option Byte)
  | 0 => []
  | n + 1 =>
    (if s.allows .read a then some (Memory.read s.mem a.toNat) else none) :: s.readableBytes (a + 1#64) n

/-- A block copy of `n` bytes from `src` to `dst` (44_memory_access.md R237): the source is checked first, and all of it is
read before any byte is written. -/
def State.copyBlock (s : State) (src dst : Word) (n len : Nat) : Result :=
  match s.faultAddress .read src n with
  | some a => .next (s.faultStoring .read a dst (s.readableBytes src n))
  | none => s.storeBytes dst (Memory.readBytes s.mem src n) len

/-- A copy of `n` registers from `rs` on to those from `rt` on (44_memory_access.md R238): all read first. -/
def State.copyRegs (s : State) (rs rt : RegNum) (n len : Nat) : Result :=
  if rs.toNat + n > 256 || rt.toNat + n > 256 then .next (s.raise (.invalidOperand .registerRange))
  else .next ((s.setRegRun rt.toNat (s.regRun rs.toNat n)).advance len)

end Sys2Proof.Machine
end

