-- ==== Sys2Proof/Machine/Ieee.lean ====
section
/-! DEFINITION. IEEE 754 binary32 and binary64 (46_float.md R290 to R295), computed exactly on whole numbers: every finite
number of a format is a whole multiple of the format's smallest subnormal number, so a finite datum is a sign and a count of
those units, and a result is rounded once, from an exact fraction of units (assumption log 17). -/

namespace Sys2Proof.Machine

open Sys2Proof

/-! ## Formats and data (R290) -/

/-- A binary interchange format: the widths of its exponent and fraction fields. -/
structure Format where
  expBits : Nat
  fracBits : Nat
  deriving DecidableEq, Repr

/-- Fl32 (R290). -/
def binary32 : Format := { expBits := 8, fracBits := 23 }

/-- Fl64 (R290). -/
def binary64 : Format := { expBits := 11, fracBits := 52 }

/-- The number of bits of an encoding. -/
def Format.width (f : Format) : Nat :=
  1 + f.expBits + f.fracBits

/-- The sign bit, as a number. -/
def Format.signBit (f : Format) : Nat :=
  2 ^ (f.expBits + f.fracBits)

/-- The encoding of +∞: exponent all ones, fraction 0. An encoding without its sign bit is a finite number below it, and a
NaN above it. -/
def Format.infinity (f : Format) : Nat :=
  (2 ^ f.expBits - 1) * 2 ^ f.fracBits

/-- How many units, smallest subnormal numbers, make 1: 2 to the power bias + fracBits - 1, with bias 2^(expBits-1) - 1. -/
def Format.unitsPerOne (f : Format) : Nat :=
  2 ^ (2 ^ (f.expBits - 1) + f.fracBits - 2)

/-- What an encoding stands for. `fin neg mag` is the number of `mag` units with a sign, which zeros have too. -/
inductive Datum where
  | nan
  | inf (neg : Bool)
  | fin (neg : Bool) (mag : Nat)
  deriving DecidableEq, Repr

/-- `f32`, `f64` (00_scope.md R14): the datum of an encoding. -/
def Format.datum (f : Format) (bits : Nat) : Datum :=
  let neg := bits / f.signBit % 2 == 1
  let e := bits / 2 ^ f.fracBits % 2 ^ f.expBits
  let frac := bits % 2 ^ f.fracBits
  if e = 2 ^ f.expBits - 1 then (if frac = 0 then .inf neg else .nan)
  else if e = 0 then .fin neg frac
  else .fin neg ((2 ^ f.fracBits + frac) * 2 ^ (e - 1))

/-- The encoding with this sign whose other bits are `magBits`. -/
def Format.pack (f : Format) (neg : Bool) (magBits : Nat) : Nat :=
  (if neg then f.signBit else 0) + magBits

/-- A signed whole number of units. -/
def signed (neg : Bool) (mag : Nat) : Int :=
  if neg then -(mag : Int) else (mag : Int)

/-! ## Rounding (R291, R293) -/

/-- The rounding modes (30_encoding.md R79). -/
inductive RoundMode where
  | nearestEven
  | towardZero
  | up
  | down
  deriving DecidableEq, Repr

/-- Whether a whole number (`odd` says its lowest bit), short of the exact magnitude by `rem / den`, goes to the next one up. -/
def RoundMode.increments (mode : RoundMode) (neg odd : Bool) (rem den : Nat) : Bool :=
  match mode with
  | .nearestEven => den < 2 * rem || (2 * rem == den && odd)
  | .towardZero => false
  | .up => !neg && rem != 0
  | .down => neg && rem != 0

/-- `num / den` rounded to a whole number: the magnitude of `round(v, rm)` (R293). -/
def RoundMode.whole (mode : RoundMode) (neg : Bool) (num den : Nat) : Nat :=
  num / den + if mode.increments neg (num / den % 2 == 1) (num % den) den then 1 else 0

/-- What a magnitude too large for the format becomes (R291, 46_float.md R319): an infinity when the mode rounds it away from
zero, else the largest finite number. -/
def RoundMode.overflow (mode : RoundMode) (f : Format) (neg : Bool) : Nat :=
  match mode with
  | .nearestEven => f.infinity
  | .towardZero => f.infinity - 1
  | .up => if neg then f.infinity - 1 else f.infinity
  | .down => if neg then f.infinity else f.infinity - 1

/-- `round(r, fmt, mode)` (00_scope.md R14): the encoding of the number of `num / den` units with this sign, rounded once.
The quantum is 2^q units, where q is 0 for a subnormal result and otherwise leaves fracBits + 1 significant bits. -/
def Format.round (f : Format) (mode : RoundMode) (neg : Bool) (num den : Nat) : Nat :=
  let q := Nat.log2 (num / den) - f.fracBits
  let magBits := q * 2 ^ f.fracBits + mode.whole neg num (den * 2 ^ q)
  f.pack neg (if f.infinity ≤ magBits then mode.overflow f neg else magBits)

/-- As `Format.round`, of a signed number of `v / den` units; a zero gets the sign `negZero`. -/
def Format.roundSigned (f : Format) (mode : RoundMode) (negZero : Bool) (v : Int) (den : Nat) : Nat :=
  if v = 0 then f.pack negZero 0 else f.round mode (v < 0) v.natAbs den

/-! ## Arithmetic: the encoding of the result, none for a NaN (R291, R292, R294, R300 to R309) -/

/-- a + b. -/
def Format.add (f : Format) (mode : RoundMode) (a b : Datum) : Option Nat :=
  match a, b with
  | .nan, _ | _, .nan => none
  | .inf p, .inf q => if p = q then some (f.pack p f.infinity) else none
  | .inf p, .fin _ _ => some (f.pack p f.infinity)
  | .fin _ _, .inf q => some (f.pack q f.infinity)
  | .fin p m, .fin q n => some (f.roundSigned mode (p && q) (signed p m + signed q n) 1)

/-- The datum with its sign bit flipped (R302). -/
def Datum.negate : Datum → Datum
  | .nan => .nan
  | .inf p => .inf !p
  | .fin p m => .fin (!p) m

/-- a - b equals a + (-b) (R302). -/
def Format.sub (f : Format) (mode : RoundMode) (a b : Datum) : Option Nat :=
  f.add mode a b.negate

/-- a × b. -/
def Format.mul (f : Format) (mode : RoundMode) (a b : Datum) : Option Nat :=
  match a, b with
  | .nan, _ | _, .nan => none
  | .inf p, .inf q => some (f.pack (p ^^ q) f.infinity)
  | .inf p, .fin q n => if n = 0 then none else some (f.pack (p ^^ q) f.infinity)
  | .fin p m, .inf q => if m = 0 then none else some (f.pack (p ^^ q) f.infinity)
  | .fin p m, .fin q n => some (f.round mode (p ^^ q) (m * n) f.unitsPerOne)

/-- a / b. -/
def Format.div (f : Format) (mode : RoundMode) (a b : Datum) : Option Nat :=
  match a, b with
  | .nan, _ | _, .nan => none
  | .inf _, .inf _ => none
  | .inf p, .fin q _ => some (f.pack (p ^^ q) f.infinity)
  | .fin p _, .inf q => some (f.pack (p ^^ q) 0)
  | .fin p m, .fin q n =>
    if n = 0 then (if m = 0 then none else some (f.pack (p ^^ q) f.infinity))
    else some (f.round mode (p ^^ q) (m * f.unitsPerOne) n)

/-- a × b + c, rounded once (R308). An infinite product is added to `c`; a finite one is kept exact, in units of 1 / unitsPerOne. -/
def Format.fma (f : Format) (mode : RoundMode) (a b c : Datum) : Option Nat :=
  match a, b, c with
  | .nan, _, _ | _, .nan, _ | _, _, .nan => none
  | .inf p, .inf q, c => f.add mode (.inf (p ^^ q)) c
  | .inf p, .fin q n, c => if n = 0 then none else f.add mode (.inf (p ^^ q)) c
  | .fin p m, .inf q, c => if m = 0 then none else f.add mode (.inf (p ^^ q)) c
  | .fin _ _, .fin _ _, .inf t => some (f.pack t f.infinity)
  | .fin p m, .fin q n, .fin t k =>
    some (f.roundSigned mode ((p ^^ q) && t) (signed (p ^^ q) (m * n) + signed t (k * f.unitsPerOne)) f.unitsPerOne)

/-! ## Comparison (R295) -/

/-- A number of units that orders the data that are not NaN: an infinity stands beyond every finite number of its format. -/
def Format.orderKey (f : Format) : Datum → Int
  | .nan => 0
  | .inf p => signed p (2 ^ f.fracBits * 2 ^ (2 ^ f.expBits - 2))
  | .fin p m => signed p m

/-! ## Conversions (R314 to R319) -/

/-- A signed integer in this format (R314, R315). -/
def Format.ofInt (f : Format) (mode : RoundMode) (i : Int) : Nat :=
  f.round mode (i < 0) (i.natAbs * f.unitsPerOne) 1

/-- `round(a, rm)` as a whole number, where it fits a signed 64-bit integer (R316, R317); none for a NaN, an infinity and a
value out of range. -/
def Format.toSi64 (f : Format) (mode : RoundMode) (a : Datum) : Option Int :=
  match a with
  | .nan | .inf _ => none
  | .fin p m =>
    let v := signed p (mode.whole p m f.unitsPerOne)
    if -2 ^ 63 ≤ v ∧ v ≤ 2 ^ 63 - 1 then some v else none

/-- A datum of format `g` in this format (R318, R319). -/
def Format.convertFrom (f g : Format) (mode : RoundMode) (a : Datum) : Option Nat :=
  match a with
  | .nan => none
  | .inf p => some (f.pack p f.infinity)
  | .fin p m => some (f.round mode p (m * f.unitsPerOne) g.unitsPerOne)

/-! ## NaN results (R292) -/

/-- The NaN that a choice of sign (bit 63) and fraction (the low bits) picks. Every NaN of the format is picked by some
choice; the fraction 0, which would be an infinity, picks 1. -/
def Format.nanPattern (f : Format) (choice : Word) : Nat :=
  f.pack choice.msb (f.infinity + max 1 (choice.toNat % 2 ^ f.fracBits))

/-- The encoding of a result that may be a NaN: `bits32`, `bits64` (00_scope.md R14). -/
def Format.resultBits (f : Format) (source : NanSource) (operands : List Word) (result : Option Nat) : Nat :=
  result.getD (f.nanPattern (Config.nanChoice source operands))

end Sys2Proof.Machine
end

