-- ==== Sys2Proof/Machine/Operands.lean ====
section
/-! DEFINITION. The operand forms: registers read and written at a width, shift amounts, effective addresses, the rounding-mode byte. -/

namespace Sys2Proof.Machine

open Sys2Proof

/-- `x[r][n-1:0]` (10_state.md R23). -/
def State.narrow (s : State) (n : Nat) (r : RegNum) : BitVec n :=
  (s.reg r).setWidth n

/-- Writes an `n`-bit result, bits 63:n of the register becoming 0 (10_state.md R23, decision D2). -/
def State.setNarrow {n : Nat} (s : State) (r : RegNum) (v : BitVec n) : State :=
  s.setReg r (v.setWidth 64)

/-- The amount a shift of an `n`-bit operand moves by: reduced modulo the width (41_int_reg_reg.md R111, decision D3). -/
def shiftAmount (n amount : Nat) : Nat :=
  amount % n

/-- An absolute effective address (44_memory_access.md R239, 45_jumps_and_traps.md R260). -/
def State.absoluteAddress (s : State) (rb : RegNum) (addr64 : Word) : Word :=
  s.reg rb + addr64

/-- A relative address, counted from the first byte of the offset field, `k` bytes into the instruction (30_encoding.md R78). -/
def State.relativeAddress {w : Nat} (s : State) (k : Nat) (off : BitVec w) : Word :=
  s.pc + BitVec.ofNat 64 k + off.signExtend 64

/-- A relative address with a register added (44_memory_access.md R239). The offset field of every instruction that has this
form starts at byte 3. -/
def State.relativeAddressReg {w : Nat} (s : State) (rb : RegNum) (off : BitVec w) : Word :=
  s.relativeAddress 3 off + s.reg rb

/-- The rounding mode that a byte selects; none for 4 to 255 (30_encoding.md R79). -/
def RoundMode.ofByte (rm : Byte) : Option RoundMode :=
  match rm.toNat with
  | 0 => some .nearestEven
  | 1 => some .towardZero
  | 2 => some .up
  | 3 => some .down
  | _ => none

/-- The Fl32 or Fl64 datum of a register: its low bits (46_float.md R290). -/
def State.floatOperand (s : State) (f : Format) (r : RegNum) : Datum :=
  f.datum (s.narrow f.width r).toNat

/-- The operand bits that `NAN_CHOICE` and `FTI_INVALID` may depend on: those of the operand's width. -/
def State.operandBits (s : State) (f : Format) (r : RegNum) : Word :=
  (s.narrow f.width r).setWidth 64

/-- Writes a float result, bits above it becoming 0 (46_float.md R290). -/
def State.setFloat (s : State) (f : Format) (r : RegNum) (bits : Nat) : State :=
  s.setNarrow r (BitVec.ofNat f.width bits)

end Sys2Proof.Machine
end

