-- ==== Sys2Proof/Machine/Flags.lean ====
section
/-! DEFINITION. The machine has no flags (10_state.md R27): what a comparison finds goes to a register as -1, 0 or 1, and a conditional jump compares two registers itself. Those results stand here. -/

namespace Sys2Proof.Machine

open Sys2Proof

/-- The number of an ordering: "<" is -1, "=" is 0, ">" is 1, as 64 bits (41_int_reg_reg.md R112, decision D34). -/
def orderNumber (less equal : Bool) : Word :=
  if less then 0xFFFFFFFFFFFFFFFF#64 else if equal then 0#64 else 1#64

/-- Comparison as unsigned 64-bit integers (41_int_reg_reg.md R141). -/
def compareUnsigned (a b : Word) : Word :=
  orderNumber (a.toNat < b.toNat) (a == b)

/-- Comparison as signed 64-bit integers (41_int_reg_reg.md R142). -/
def compareSigned (a b : Word) : Word :=
  orderNumber (a.toInt < b.toInt) (a == b)

/-- Comparison of floats; `nanNumber` is the number the variant gives when an operand is a NaN (46_float.md R295). -/
def Format.compare (f : Format) (nanNumber : Word) (a b : Datum) : Word :=
  match a, b with
  | .nan, _ | _, .nan => nanNumber
  | a, b => orderNumber (f.orderKey a < f.orderKey b) (f.orderKey a == f.orderKey b)

/-- The conditions of the conditional jumps, on whole registers (45_jumps_and_traps.md R265 to R271). -/
inductive Condition where
  | equal | notEqual | lessUnsigned | greaterUnsigned | lessSigned | greaterSigned
  deriving DecidableEq, Repr

/-- Whether the condition holds of the two registers' values. -/
def Condition.holds (c : Condition) (a b : Word) : Bool :=
  match c with
  | .equal => a == b
  | .notEqual => a != b
  | .lessUnsigned => a.toNat < b.toNat
  | .greaterUnsigned => b.toNat < a.toNat
  | .lessSigned => a.toInt < b.toInt
  | .greaterSigned => b.toInt < a.toInt

end Sys2Proof.Machine
end

