-- ==== Sys2Proof/Machine/CopyLoad.lean ====
section
/-! DEFINITION. Register copies, load immediate, load relative address (43_copy_li_lra.md). -/

namespace Sys2Proof.Machine

open Sys2Proof

/-- Loads an immediate of `n` bits, zero-extended, `len` the instruction's length (R212). -/
def State.loadImm {n : Nat} (s : State) (rd : RegNum) (imm : BitVec n) (len : Nat) : Result :=
  .next ((s.setNarrow rd imm).advance len)

/-- Loads a relative address, `len` the instruction's length (R216). -/
def State.loadAddress {w : Nat} (s : State) (rd rb : RegNum) (off : BitVec w) (len : Nat) : Result :=
  .next ((s.setReg rd (s.relativeAddressReg rb off)).advance len)

/-- `CP` (R210). -/
def execCp (rd ra : RegNum) (s : State) : Result :=
  .next ((s.setReg rd (s.reg ra)).advance 3)

/-- `SWA` (R211): both are read first (decision D6). -/
def execSwa (ra rb : RegNum) (s : State) : Result :=
  .next (((s.setReg ra (s.reg rb)).setReg rb (s.reg ra)).advance 3)

/-- `LI8` (R212). -/
def execLi8 (rd : RegNum) (imm : Byte) (s : State) : Result :=
  s.loadImm rd imm 3

/-- `LI16` (R213). -/
def execLi16 (rd : RegNum) (imm : BitVec 16) (s : State) : Result :=
  s.loadImm rd imm 4

/-- `LI32` (R214). -/
def execLi32 (rd : RegNum) (imm : BitVec 32) (s : State) : Result :=
  s.loadImm rd imm 6

/-- `LI64` (R215). -/
def execLi64 (rd : RegNum) (imm : Word) (s : State) : Result :=
  s.loadImm rd imm 10

/-- `LRA` (R216). -/
def execLra (rd rb : RegNum) (off : BitVec 32) (s : State) : Result :=
  s.loadAddress rd rb off 7

end Sys2Proof.Machine
end

