-- ==== Sys2Proof/Machine/ExecControl.lean ====
section
/-! DEFINITION. Program execution control (40_exec_control.md). -/

namespace Sys2Proof.Machine

open Sys2Proof

/-- `UN` (R100). -/
def execUn (s : State) : Result :=
  .next (s.raise .unreachable)

/-- `TX` (R101). -/
def execTx (s : State) : Result :=
  .next s.halt

/-- `NOP` (R102). -/
def execNop (s : State) : Result :=
  .next (s.advance 1)

end Sys2Proof.Machine
end

