-- ==== Sys2Proof/Machine/FloatingPoint.lean ====
section
/-! DEFINITION. Floating point (46_float.md). -/

namespace Sys2Proof.Machine

open Sys2Proof

/-! ## Shared shapes -/

/-- A binary operation on floats, rounded to nearest-even; the result is a NaN where `op` has none (R291, R292, R300). -/
def State.floatBinary (s : State) (f : Format) (source : NanSource)
    (op : RoundMode → Datum → Datum → Option Nat) (rd ra rb : RegNum) : Result :=
  let result := op .nearestEven (s.floatOperand f ra) (s.floatOperand f rb)
  .next ((s.setFloat f rd (f.resultBits source [s.operandBits f ra, s.operandBits f rb] result)).advance 4)

/-- Fused multiply-add (R308). -/
def State.floatFma (s : State) (f : Format) (source : NanSource) (rd ra rb rc : RegNum) : Result :=
  let result := f.fma .nearestEven (s.floatOperand f ra) (s.floatOperand f rb) (s.floatOperand f rc)
  let operands := [s.operandBits f ra, s.operandBits f rb, s.operandBits f rc]
  .next ((s.setFloat f rd (f.resultBits source operands result)).advance 5)

/-- A comparison of floats (R295). -/
def State.floatCompare (s : State) (f : Format) (nanNumber : Word) (rd ra rb : RegNum) : Result :=
  .next ((s.setReg rd (f.compare nanNumber (s.floatOperand f ra) (s.floatOperand f rb))).advance 4)

/-- A signed 64-bit integer to a float (R314). -/
def State.intToFloat (s : State) (f : Format) (rd ra : RegNum) : Result :=
  .next ((s.setFloat f rd (f.ofInt .nearestEven (s.reg ra).toInt)).advance 3)

/-- A float to a signed 64-bit integer. The rounding-mode byte is checked first; where the value has no integer, `FTI_INVALID`
says what happens (R316, decision D32, assumption log 9). DESIGN CHOICE (log 9): the value that it writes may depend on the
rounding-mode byte, which the spec leaves open. -/
def State.floatToInt (s : State) (f : Format) (source : FtiSource) (rd ra : RegNum) (rm : Byte) : Result :=
  match RoundMode.ofByte rm with
  | none => .next (s.raise (.invalidOperand .roundingMode))
  | some mode =>
    match f.toSi64 mode (s.floatOperand f ra) with
    | some v => .next ((s.setReg rd (BitVec.ofInt 64 v)).advance 4)
    | none =>
      if Config.ftiInvalidRaises then .next (s.raise (.invalidOperand .conversionSource))
      else .next ((s.setReg rd (Config.ftiInvalidValue source (s.operandBits f ra) rm)).advance 4)

/-- A datum of format `g` written in format `f` (R318, R319). `immediates` are the operand bits that stand beside the
source's for `NAN_CHOICE` (R292): none, or `FC64T32`'s rounding-mode byte. DESIGN CHOICE (assumption log 8): R292 does not
say whether that byte is one of the operand bits, and here the NaN may depend on it. -/
def State.floatConvert (s : State) (f g : Format) (source : NanSource) (mode : RoundMode) (rd ra : RegNum)
    (immediates : List Word) (len : Nat) : Result :=
  let result := f.convertFrom g mode (s.floatOperand g ra)
  .next ((s.setFloat f rd (f.resultBits source (s.operandBits g ra :: immediates) result)).advance len)

/-! ## Arithmetic -/

/-- `FADD32` (R300). -/
def execFadd32 (rd ra rb : RegNum) (s : State) : Result :=
  s.floatBinary binary32 .fadd32 binary32.add rd ra rb

/-- `FADD64` (R301). -/
def execFadd64 (rd ra rb : RegNum) (s : State) : Result :=
  s.floatBinary binary64 .fadd64 binary64.add rd ra rb

/-- `FSUB32` (R302). -/
def execFsub32 (rd ra rb : RegNum) (s : State) : Result :=
  s.floatBinary binary32 .fsub32 binary32.sub rd ra rb

/-- `FSUB64` (R303). -/
def execFsub64 (rd ra rb : RegNum) (s : State) : Result :=
  s.floatBinary binary64 .fsub64 binary64.sub rd ra rb

/-- `FMUL32` (R304). -/
def execFmul32 (rd ra rb : RegNum) (s : State) : Result :=
  s.floatBinary binary32 .fmul32 binary32.mul rd ra rb

/-- `FMUL64` (R305). -/
def execFmul64 (rd ra rb : RegNum) (s : State) : Result :=
  s.floatBinary binary64 .fmul64 binary64.mul rd ra rb

/-- `FDIV32` (R306). -/
def execFdiv32 (rd ra rb : RegNum) (s : State) : Result :=
  s.floatBinary binary32 .fdiv32 binary32.div rd ra rb

/-- `FDIV64` (R307). -/
def execFdiv64 (rd ra rb : RegNum) (s : State) : Result :=
  s.floatBinary binary64 .fdiv64 binary64.div rd ra rb

/-- `FMA32` (R308). -/
def execFma32 (rd ra rb rc : RegNum) (s : State) : Result :=
  s.floatFma binary32 .fma32 rd ra rb rc

/-- `FMA64` (R309). -/
def execFma64 (rd ra rb rc : RegNum) (s : State) : Result :=
  s.floatFma binary64 .fma64 rd ra rb rc

/-! ## Comparison -/

/-- `FCMPLT32` (R310): "NaN is <". -/
def execFcmplt32 (rd ra rb : RegNum) (s : State) : Result :=
  s.floatCompare binary32 0xFFFFFFFFFFFFFFFF#64 rd ra rb

/-- `FCMPLT64` (R311): "NaN is <". -/
def execFcmplt64 (rd ra rb : RegNum) (s : State) : Result :=
  s.floatCompare binary64 0xFFFFFFFFFFFFFFFF#64 rd ra rb

/-- `FCMPGT32` (R312): "NaN is >". -/
def execFcmpgt32 (rd ra rb : RegNum) (s : State) : Result :=
  s.floatCompare binary32 1#64 rd ra rb

/-- `FCMPGT64` (R313): "NaN is >". -/
def execFcmpgt64 (rd ra rb : RegNum) (s : State) : Result :=
  s.floatCompare binary64 1#64 rd ra rb

/-! ## Conversions -/

/-- `ITF32` (R314). -/
def execItf32 (rd ra : RegNum) (s : State) : Result :=
  s.intToFloat binary32 rd ra

/-- `ITF64` (R315). -/
def execItf64 (rd ra : RegNum) (s : State) : Result :=
  s.intToFloat binary64 rd ra

/-- `FTI32` (R316). -/
def execFti32 (rd ra : RegNum) (rm : Byte) (s : State) : Result :=
  s.floatToInt binary32 .fti32 rd ra rm

/-- `FTI64` (R317). -/
def execFti64 (rd ra : RegNum) (rm : Byte) (s : State) : Result :=
  s.floatToInt binary64 .fti64 rd ra rm

/-- `FC32T64` (R318): exact, so the mode does not matter. -/
def execFc32t64 (rd ra : RegNum) (s : State) : Result :=
  s.floatConvert binary64 binary32 .fc32t64 .nearestEven rd ra [] 3

/-- `FC64T32` (R319): the rounding-mode byte is checked first. -/
def execFc64t32 (rd ra : RegNum) (rm : Byte) (s : State) : Result :=
  match RoundMode.ofByte rm with
  | none => .next (s.raise (.invalidOperand .roundingMode))
  | some mode => s.floatConvert binary32 binary64 .fc64t32 mode rd ra [rm.setWidth 64] 4

end Sys2Proof.Machine
end

