-- ==== Sys2Proof/Machine/IntRegReg.lean ====
section
/-! DEFINITION. Integer register-register operations (41_int_reg_reg.md). -/

namespace Sys2Proof.Machine

open Sys2Proof

/-! ## Shared shapes -/

/-- A binary register-register operation of `n` bits (R110). -/
def State.binaryReg {n : Nat} (s : State) (op : BitVec n → BitVec n → BitVec n) (rd ra rb : RegNum) : Result :=
  .next ((s.setNarrow rd (op (s.narrow n ra) (s.narrow n rb))).advance 4)

/-- A shift of `n` bits by a register amount (R111). -/
def State.shiftReg {n : Nat} (s : State) (op : BitVec n → Nat → BitVec n) (rd ra rb : RegNum) : Result :=
  .next ((s.setNarrow rd (op (s.narrow n ra) (shiftAmount n (s.reg rb).toNat))).advance 4)

/-- A comparison of two registers (R112). -/
def State.compareReg (s : State) (op : Word → Word → Word) (rd ra rb : RegNum) : Result :=
  .next ((s.setReg rd (op (s.reg ra) (s.reg rb))).advance 4)

/-- A quotient and a remainder, written in this order (R113, decision D6). -/
def State.writeDivision (s : State) (rq rr : RegNum) (q r : Word) : Result :=
  .next (((s.setReg rq q).setReg rr r).advance 5)

/-- Unsigned merged divide-remainder of `n` bits; a zero divisor gives 64 ones and the dividend (R113, decision D5). -/
def State.divideUnsigned (s : State) (n : Nat) (rq rr ra rb : RegNum) : Result :=
  let a := (s.narrow n ra).toNat
  let b := (s.narrow n rb).toNat
  if b = 0 then s.writeDivision rq rr 0xFFFFFFFFFFFFFFFF#64 (BitVec.ofNat 64 a)
  else s.writeDivision rq rr (BitVec.ofNat 64 (a / b)) (BitVec.ofNat 64 (a - a / b * b))

/-- Signed merged divide-remainder of `n` bits: the quotient rounds toward zero, both results wrap to `n` bits and are
zero-extended (R113, decisions D4, D5). -/
def State.divideSigned (s : State) (n : Nat) (rq rr ra rb : RegNum) : Result :=
  let a := s.narrow n ra
  let b := s.narrow n rb
  if b = 0#n then s.writeDivision rq rr 0xFFFFFFFFFFFFFFFF#64 (a.setWidth 64)
  else
    let q := a.toInt.tdiv b.toInt
    let r := a.toInt - q * b.toInt
    s.writeDivision rq rr ((BitVec.ofInt n q).setWidth 64) ((BitVec.ofInt n r).setWidth 64)

/-- A unary operation on a whole register. -/
def State.unaryReg (s : State) (op : Word → Word) (rd ra : RegNum) : Result :=
  .next ((s.setReg rd (op (s.reg ra))).advance 3)

/-- Sign extension of the low `n` bits (R153). -/
def State.signExtendReg (s : State) (n : Nat) (rd ra : RegNum) : Result :=
  .next ((s.setReg rd ((s.narrow n ra).signExtend 64)).advance 3)

/-- Left shift: zeros enter at the right (R111). -/
def shiftLeft {n : Nat} (a : BitVec n) (sh : Nat) : BitVec n := a <<< sh

/-- Logical right shift: zeros enter at the left (R111). -/
def shiftRight {n : Nat} (a : BitVec n) (sh : Nat) : BitVec n := a >>> sh

/-- Arithmetic right shift: copies of the top bit enter at the left (R111). -/
def shiftRightSigned {n : Nat} (a : BitVec n) (sh : Nat) : BitVec n := a.sshiftRight sh

/-! ## Addition, subtraction, multiplication -/

/-- `ADD8` (R114). -/
def execAdd8 (rd ra rb : RegNum) (s : State) : Result :=
  s.binaryReg (n := 8) (fun a b => a + b) rd ra rb

/-- `ADD16` (R115). -/
def execAdd16 (rd ra rb : RegNum) (s : State) : Result :=
  s.binaryReg (n := 16) (fun a b => a + b) rd ra rb

/-- `ADD32` (R116). -/
def execAdd32 (rd ra rb : RegNum) (s : State) : Result :=
  s.binaryReg (n := 32) (fun a b => a + b) rd ra rb

/-- `ADD64` (R117). -/
def execAdd64 (rd ra rb : RegNum) (s : State) : Result :=
  s.binaryReg (n := 64) (fun a b => a + b) rd ra rb

/-- `SUB8` (R118). -/
def execSub8 (rd ra rb : RegNum) (s : State) : Result :=
  s.binaryReg (n := 8) (fun a b => a - b) rd ra rb

/-- `SUB16` (R119). -/
def execSub16 (rd ra rb : RegNum) (s : State) : Result :=
  s.binaryReg (n := 16) (fun a b => a - b) rd ra rb

/-- `SUB32` (R120). -/
def execSub32 (rd ra rb : RegNum) (s : State) : Result :=
  s.binaryReg (n := 32) (fun a b => a - b) rd ra rb

/-- `SUB64` (R121). -/
def execSub64 (rd ra rb : RegNum) (s : State) : Result :=
  s.binaryReg (n := 64) (fun a b => a - b) rd ra rb

/-- `MUL8` (R122). -/
def execMul8 (rd ra rb : RegNum) (s : State) : Result :=
  s.binaryReg (n := 8) (fun a b => a * b) rd ra rb

/-- `MUL16` (R123). -/
def execMul16 (rd ra rb : RegNum) (s : State) : Result :=
  s.binaryReg (n := 16) (fun a b => a * b) rd ra rb

/-- `MUL32` (R124). -/
def execMul32 (rd ra rb : RegNum) (s : State) : Result :=
  s.binaryReg (n := 32) (fun a b => a * b) rd ra rb

/-- `MUL64` (R125). -/
def execMul64 (rd ra rb : RegNum) (s : State) : Result :=
  s.binaryReg (n := 64) (fun a b => a * b) rd ra rb

/-! ## Bitwise operations -/

/-- `AND` (R126). -/
def execAnd (rd ra rb : RegNum) (s : State) : Result :=
  s.binaryReg (n := 64) (fun a b => a &&& b) rd ra rb

/-- `OR` (R127). -/
def execOr (rd ra rb : RegNum) (s : State) : Result :=
  s.binaryReg (n := 64) (fun a b => a ||| b) rd ra rb

/-- `XOR` (R128). -/
def execXor (rd ra rb : RegNum) (s : State) : Result :=
  s.binaryReg (n := 64) (fun a b => a ^^^ b) rd ra rb

/-! ## Shifts -/

/-- `SLU8` (R129). -/
def execSlu8 (rd ra rb : RegNum) (s : State) : Result :=
  s.shiftReg (n := 8) shiftLeft rd ra rb

/-- `SLU16` (R130). -/
def execSlu16 (rd ra rb : RegNum) (s : State) : Result :=
  s.shiftReg (n := 16) shiftLeft rd ra rb

/-- `SLU32` (R131). -/
def execSlu32 (rd ra rb : RegNum) (s : State) : Result :=
  s.shiftReg (n := 32) shiftLeft rd ra rb

/-- `SLU64` (R132). -/
def execSlu64 (rd ra rb : RegNum) (s : State) : Result :=
  s.shiftReg (n := 64) shiftLeft rd ra rb

/-- `SRU8` (R133). -/
def execSru8 (rd ra rb : RegNum) (s : State) : Result :=
  s.shiftReg (n := 8) shiftRight rd ra rb

/-- `SRU16` (R134). -/
def execSru16 (rd ra rb : RegNum) (s : State) : Result :=
  s.shiftReg (n := 16) shiftRight rd ra rb

/-- `SRU32` (R135). -/
def execSru32 (rd ra rb : RegNum) (s : State) : Result :=
  s.shiftReg (n := 32) shiftRight rd ra rb

/-- `SRU64` (R136). -/
def execSru64 (rd ra rb : RegNum) (s : State) : Result :=
  s.shiftReg (n := 64) shiftRight rd ra rb

/-- `SRS8` (R137). -/
def execSrs8 (rd ra rb : RegNum) (s : State) : Result :=
  s.shiftReg (n := 8) shiftRightSigned rd ra rb

/-- `SRS16` (R138). -/
def execSrs16 (rd ra rb : RegNum) (s : State) : Result :=
  s.shiftReg (n := 16) shiftRightSigned rd ra rb

/-- `SRS32` (R139). -/
def execSrs32 (rd ra rb : RegNum) (s : State) : Result :=
  s.shiftReg (n := 32) shiftRightSigned rd ra rb

/-- `SRS64` (R140). -/
def execSrs64 (rd ra rb : RegNum) (s : State) : Result :=
  s.shiftReg (n := 64) shiftRightSigned rd ra rb

/-! ## Comparison -/

/-- `CMPU` (R141). -/
def execCmpu (rd ra rb : RegNum) (s : State) : Result :=
  s.compareReg compareUnsigned rd ra rb

/-- `CMPS` (R142). -/
def execCmps (rd ra rb : RegNum) (s : State) : Result :=
  s.compareReg compareSigned rd ra rb

/-! ## Merged divide-remainder -/

/-- `DIRU8` (R143). -/
def execDiru8 (rq rr ra rb : RegNum) (s : State) : Result :=
  s.divideUnsigned 8 rq rr ra rb

/-- `DIRU16` (R144). -/
def execDiru16 (rq rr ra rb : RegNum) (s : State) : Result :=
  s.divideUnsigned 16 rq rr ra rb

/-- `DIRU32` (R145). -/
def execDiru32 (rq rr ra rb : RegNum) (s : State) : Result :=
  s.divideUnsigned 32 rq rr ra rb

/-- `DIRU64` (R146). -/
def execDiru64 (rq rr ra rb : RegNum) (s : State) : Result :=
  s.divideUnsigned 64 rq rr ra rb

/-- `DIRS8` (R147). -/
def execDirs8 (rq rr ra rb : RegNum) (s : State) : Result :=
  s.divideSigned 8 rq rr ra rb

/-- `DIRS16` (R148). -/
def execDirs16 (rq rr ra rb : RegNum) (s : State) : Result :=
  s.divideSigned 16 rq rr ra rb

/-- `DIRS32` (R149). -/
def execDirs32 (rq rr ra rb : RegNum) (s : State) : Result :=
  s.divideSigned 32 rq rr ra rb

/-- `DIRS64` (R150). -/
def execDirs64 (rq rr ra rb : RegNum) (s : State) : Result :=
  s.divideSigned 64 rq rr ra rb

/-! ## Unary operations, sign extension -/

/-- `NEG` (R151): the bitwise complement, whatever its name says. -/
def execNeg (rd ra : RegNum) (s : State) : Result :=
  s.unaryReg (fun a => ~~~a) rd ra

/-- `NOT` (R152): the logical negation (decision D7). -/
def execNot (rd ra : RegNum) (s : State) : Result :=
  s.unaryReg (fun a => if a = 0#64 then 1#64 else 0#64) rd ra

/-- `SXT8` (R153). -/
def execSxt8 (rd ra : RegNum) (s : State) : Result :=
  s.signExtendReg 8 rd ra

/-- `SXT16` (R154). -/
def execSxt16 (rd ra : RegNum) (s : State) : Result :=
  s.signExtendReg 16 rd ra

/-- `SXT32` (R155). -/
def execSxt32 (rd ra : RegNum) (s : State) : Result :=
  s.signExtendReg 32 rd ra

end Sys2Proof.Machine
end

