-- ==== Sys2Proof/Machine/IntRegImm.lean ====
section
/-! DEFINITION. Integer register-immediate operations (42_int_reg_imm.md). -/

namespace Sys2Proof.Machine

open Sys2Proof

/-! ## Shared shapes -/

/-- A binary operation of `n` bits on a register and an immediate of that width, `len` the instruction's length (R170). -/
def State.binaryImm {n : Nat} (s : State) (op : BitVec n → BitVec n → BitVec n) (rd ra : RegNum) (imm : BitVec n)
    (len : Nat) : Result :=
  .next ((s.setNarrow rd (op (s.narrow n ra) imm)).advance len)

/-- A shift of `n` bits by an immediate amount (R171). -/
def State.shiftImm {n : Nat} (s : State) (op : BitVec n → Nat → BitVec n) (rd ra : RegNum) (sh8 : Byte) : Result :=
  .next ((s.setNarrow rd (op (s.narrow n ra) (shiftAmount n sh8.toNat))).advance 4)

/-- A comparison of a register, on the left, with an immediate (R195). -/
def State.compareImm (s : State) (op : Word → Word → Word) (rd ra : RegNum) (imm : Word) : Result :=
  .next ((s.setReg rd (op (s.reg ra) imm)).advance 11)

/-! ## Addition, multiplication -/

/-- `ADDI8` (R172). -/
def execAddi8 (rd ra : RegNum) (imm : Byte) (s : State) : Result :=
  s.binaryImm (n := 8) (fun a b => a + b) rd ra imm 4

/-- `ADDI16` (R173). -/
def execAddi16 (rd ra : RegNum) (imm : BitVec 16) (s : State) : Result :=
  s.binaryImm (n := 16) (fun a b => a + b) rd ra imm 5

/-- `ADDI32` (R174). -/
def execAddi32 (rd ra : RegNum) (imm : BitVec 32) (s : State) : Result :=
  s.binaryImm (n := 32) (fun a b => a + b) rd ra imm 7

/-- `ADDI64` (R175). -/
def execAddi64 (rd ra : RegNum) (imm : Word) (s : State) : Result :=
  s.binaryImm (n := 64) (fun a b => a + b) rd ra imm 11

/-- `MULI8` (R176). -/
def execMuli8 (rd ra : RegNum) (imm : Byte) (s : State) : Result :=
  s.binaryImm (n := 8) (fun a b => a * b) rd ra imm 4

/-- `MULI16` (R177). -/
def execMuli16 (rd ra : RegNum) (imm : BitVec 16) (s : State) : Result :=
  s.binaryImm (n := 16) (fun a b => a * b) rd ra imm 5

/-- `MULI32` (R178). -/
def execMuli32 (rd ra : RegNum) (imm : BitVec 32) (s : State) : Result :=
  s.binaryImm (n := 32) (fun a b => a * b) rd ra imm 7

/-- `MULI64` (R179). -/
def execMuli64 (rd ra : RegNum) (imm : Word) (s : State) : Result :=
  s.binaryImm (n := 64) (fun a b => a * b) rd ra imm 11

/-! ## Bitwise operations -/

/-- `ANDI` (R180). -/
def execAndi (rd ra : RegNum) (imm : Word) (s : State) : Result :=
  s.binaryImm (n := 64) (fun a b => a &&& b) rd ra imm 11

/-- `ORI` (R181). -/
def execOri (rd ra : RegNum) (imm : Word) (s : State) : Result :=
  s.binaryImm (n := 64) (fun a b => a ||| b) rd ra imm 11

/-- `XORI` (R182). -/
def execXori (rd ra : RegNum) (imm : Word) (s : State) : Result :=
  s.binaryImm (n := 64) (fun a b => a ^^^ b) rd ra imm 11

/-! ## Shifts -/

/-- `SLUI8` (R183). -/
def execSlui8 (rd ra : RegNum) (sh8 : Byte) (s : State) : Result :=
  s.shiftImm (n := 8) shiftLeft rd ra sh8

/-- `SLUI16` (R184). -/
def execSlui16 (rd ra : RegNum) (sh8 : Byte) (s : State) : Result :=
  s.shiftImm (n := 16) shiftLeft rd ra sh8

/-- `SLUI32` (R185). -/
def execSlui32 (rd ra : RegNum) (sh8 : Byte) (s : State) : Result :=
  s.shiftImm (n := 32) shiftLeft rd ra sh8

/-- `SLUI64` (R186). -/
def execSlui64 (rd ra : RegNum) (sh8 : Byte) (s : State) : Result :=
  s.shiftImm (n := 64) shiftLeft rd ra sh8

/-- `SRUI8` (R187). -/
def execSrui8 (rd ra : RegNum) (sh8 : Byte) (s : State) : Result :=
  s.shiftImm (n := 8) shiftRight rd ra sh8

/-- `SRUI16` (R188). -/
def execSrui16 (rd ra : RegNum) (sh8 : Byte) (s : State) : Result :=
  s.shiftImm (n := 16) shiftRight rd ra sh8

/-- `SRUI32` (R189). -/
def execSrui32 (rd ra : RegNum) (sh8 : Byte) (s : State) : Result :=
  s.shiftImm (n := 32) shiftRight rd ra sh8

/-- `SRUI64` (R190). -/
def execSrui64 (rd ra : RegNum) (sh8 : Byte) (s : State) : Result :=
  s.shiftImm (n := 64) shiftRight rd ra sh8

/-- `SRSI8` (R191). -/
def execSrsi8 (rd ra : RegNum) (sh8 : Byte) (s : State) : Result :=
  s.shiftImm (n := 8) shiftRightSigned rd ra sh8

/-- `SRSI16` (R192). -/
def execSrsi16 (rd ra : RegNum) (sh8 : Byte) (s : State) : Result :=
  s.shiftImm (n := 16) shiftRightSigned rd ra sh8

/-- `SRSI32` (R193). -/
def execSrsi32 (rd ra : RegNum) (sh8 : Byte) (s : State) : Result :=
  s.shiftImm (n := 32) shiftRightSigned rd ra sh8

/-- `SRSI64` (R194). -/
def execSrsi64 (rd ra : RegNum) (sh8 : Byte) (s : State) : Result :=
  s.shiftImm (n := 64) shiftRightSigned rd ra sh8

/-! ## Comparison -/

/-- `CMPUI` (R195). -/
def execCmpui (rd ra : RegNum) (imm : Word) (s : State) : Result :=
  s.compareImm compareUnsigned rd ra imm

/-- `CMPSI` (R196). -/
def execCmpsi (rd ra : RegNum) (imm : Word) (s : State) : Result :=
  s.compareImm compareSigned rd ra imm

end Sys2Proof.Machine
end

