-- ==== Sys2Proof/Machine/Jumps.lean ====
section
/-! DEFINITION. Jumps, linking jumps, conditional jumps and environment traps (45_jumps_and_traps.md). -/

namespace Sys2Proof.Machine

open Sys2Proof

/-! ## Shared shapes -/

/-- A relative jump whose offset field starts at byte 1 (R262). -/
def State.jumpRelative {w : Nat} (s : State) (off : BitVec w) : Result :=
  .next (s.jump (s.relativeAddress 1 off))

/-- The link of a linking jump of `len` bytes, written before the base register is read (R261, decision D14). -/
def State.link (s : State) (rl : RegNum) (len : Nat) : State :=
  s.setReg rl (s.pc + BitVec.ofNat 64 len)

/-- A conditional jump (R265). -/
def State.branch (s : State) (c : Condition) (ra rb : RegNum) (off : BitVec 16) : Result :=
  if c.holds (s.reg ra) (s.reg rb) then .next (s.jump (s.relativeAddress 3 off)) else .next (s.advance 5)

/-! ## Jumps -/

/-- `JMP` (R262). -/
def execJmp (off : BitVec 32) (s : State) : Result :=
  s.jumpRelative off

/-- `JAL` (R263). -/
def execJal (rl rb : RegNum) (off : BitVec 32) (s : State) : Result :=
  .next ((s.link rl 7).jump ((s.link rl 7).relativeAddressReg rb off))

/-- `JALA` (R264). -/
def execJala (rl rb : RegNum) (addr64 : Word) (s : State) : Result :=
  .next ((s.link rl 11).jump ((s.link rl 11).absoluteAddress rb addr64))

/-- `JEQ` (R266). -/
def execJeq (ra rb : RegNum) (off : BitVec 16) (s : State) : Result :=
  s.branch .equal ra rb off

/-- `JNE` (R267). -/
def execJne (ra rb : RegNum) (off : BitVec 16) (s : State) : Result :=
  s.branch .notEqual ra rb off

/-- `JLTU` (R268). -/
def execJltu (ra rb : RegNum) (off : BitVec 16) (s : State) : Result :=
  s.branch .lessUnsigned ra rb off

/-- `JGTU` (R269). -/
def execJgtu (ra rb : RegNum) (off : BitVec 16) (s : State) : Result :=
  s.branch .greaterUnsigned ra rb off

/-- `JLTS` (R270). -/
def execJlts (ra rb : RegNum) (off : BitVec 16) (s : State) : Result :=
  s.branch .lessSigned ra rb off

/-- `JGTS` (R271). -/
def execJgts (ra rb : RegNum) (off : BitVec 16) (s : State) : Result :=
  s.branch .greaterSigned ra rb off

/-! ## Environment traps -/

/-- `ECA` (R272). -/
def execEca (s : State) : Result :=
  .next (s.trap .environmentCall)

/-- `EBP` (R273). -/
def execEbp (s : State) : Result :=
  .next (s.trap .breakpoint)

end Sys2Proof.Machine
end

