-- ==== Sys2Proof/Machine/MemoryAccess.lean ====
section
/-! DEFINITION. Memory access and block copies (44_memory_access.md). -/

namespace Sys2Proof.Machine

open Sys2Proof

/-- `LD` (R233). -/
def execLd (r rb : RegNum) (addr64 : Word) (size : BitVec 16) (s : State) : Result :=
  s.load r (s.absoluteAddress rb addr64) size 13

/-- `ST` (R234). -/
def execSt (r rb : RegNum) (addr64 : Word) (size : BitVec 16) (s : State) : Result :=
  s.store r (s.absoluteAddress rb addr64) size 13

/-- `LDR` (R235). -/
def execLdr (r rb : RegNum) (off : BitVec 32) (size : BitVec 16) (s : State) : Result :=
  s.load r (s.relativeAddressReg rb off) size 9

/-- `STR` (R236). -/
def execStr (r rb : RegNum) (off : BitVec 32) (size : BitVec 16) (s : State) : Result :=
  s.store r (s.relativeAddressReg rb off) size 9

/-- `BMC` (R237). -/
def execBmc (rs rt : RegNum) (count : BitVec 16) (s : State) : Result :=
  s.copyBlock (s.reg rs) (s.reg rt) count.toNat 5

/-- `BRC` (R238). -/
def execBrc (rs rt : RegNum) (count : Byte) (s : State) : Result :=
  s.copyRegs rs rt count.toNat 4

end Sys2Proof.Machine
end

