-- ==== Sys2Proof/Machine/Rel16.lean ====
section
/-! DEFINITION. The 16-bit relative address variants (47_rel16_variants.md). -/

namespace Sys2Proof.Machine

open Sys2Proof

/-- `LRA16` (R341). -/
def execLra16 (rd rb : RegNum) (off : BitVec 16) (s : State) : Result :=
  s.loadAddress rd rb off 5

/-- `LDR16` (R342). -/
def execLdr16 (r rb : RegNum) (off size : BitVec 16) (s : State) : Result :=
  s.load r (s.relativeAddressReg rb off) size 7

/-- `STR16` (R343). -/
def execStr16 (r rb : RegNum) (off size : BitVec 16) (s : State) : Result :=
  s.store r (s.relativeAddressReg rb off) size 7

/-- `JMP16` (R344). -/
def execJmp16 (off : BitVec 16) (s : State) : Result :=
  s.jumpRelative off

end Sys2Proof.Machine
end

