-- ==== Sys2Proof/Syntax.lean ====
section
/-! DEFINITION. The instructions: one constructor for each of the 118 rows of spec/opcode_table.json, with the operands of its format (30_encoding.md R73) in encoding order. Offsets (`O`, `P`) are kept as the bit pattern of their width; the meanings sign-extend them. -/

namespace Sys2Proof

/-- An instruction (30_encoding.md R80). -/
inductive Instr where
  -- Program execution control (40_exec_control.md)
  | un
  | tx
  | nop
  -- Binary register-register operations (41_int_reg_reg.md)
  | add8 (rd ra rb : RegNum)
  | add16 (rd ra rb : RegNum)
  | add32 (rd ra rb : RegNum)
  | add64 (rd ra rb : RegNum)
  | sub8 (rd ra rb : RegNum)
  | sub16 (rd ra rb : RegNum)
  | sub32 (rd ra rb : RegNum)
  | sub64 (rd ra rb : RegNum)
  | mul8 (rd ra rb : RegNum)
  | mul16 (rd ra rb : RegNum)
  | mul32 (rd ra rb : RegNum)
  | mul64 (rd ra rb : RegNum)
  | and (rd ra rb : RegNum)
  | or (rd ra rb : RegNum)
  | xor (rd ra rb : RegNum)
  | slu8 (rd ra rb : RegNum)
  | slu16 (rd ra rb : RegNum)
  | slu32 (rd ra rb : RegNum)
  | slu64 (rd ra rb : RegNum)
  | sru8 (rd ra rb : RegNum)
  | sru16 (rd ra rb : RegNum)
  | sru32 (rd ra rb : RegNum)
  | sru64 (rd ra rb : RegNum)
  | srs8 (rd ra rb : RegNum)
  | srs16 (rd ra rb : RegNum)
  | srs32 (rd ra rb : RegNum)
  | srs64 (rd ra rb : RegNum)
  | cmpu (rd ra rb : RegNum)
  | cmps (rd ra rb : RegNum)
  -- Merged divide-remainder (41_int_reg_reg.md R113)
  | diru8 (rq rr ra rb : RegNum)
  | diru16 (rq rr ra rb : RegNum)
  | diru32 (rq rr ra rb : RegNum)
  | diru64 (rq rr ra rb : RegNum)
  | dirs8 (rq rr ra rb : RegNum)
  | dirs16 (rq rr ra rb : RegNum)
  | dirs32 (rq rr ra rb : RegNum)
  | dirs64 (rq rr ra rb : RegNum)
  -- Unary operations and sign extensions (41_int_reg_reg.md)
  | neg (rd ra : RegNum)
  | not (rd ra : RegNum)
  | sxt8 (rd ra : RegNum)
  | sxt16 (rd ra : RegNum)
  | sxt32 (rd ra : RegNum)
  -- Register-immediate operations (42_int_reg_imm.md)
  | addi8 (rd ra : RegNum) (imm : Byte)
  | addi16 (rd ra : RegNum) (imm : BitVec 16)
  | addi32 (rd ra : RegNum) (imm : BitVec 32)
  | addi64 (rd ra : RegNum) (imm : Word)
  | muli8 (rd ra : RegNum) (imm : Byte)
  | muli16 (rd ra : RegNum) (imm : BitVec 16)
  | muli32 (rd ra : RegNum) (imm : BitVec 32)
  | muli64 (rd ra : RegNum) (imm : Word)
  | andi (rd ra : RegNum) (imm : Word)
  | ori (rd ra : RegNum) (imm : Word)
  | xori (rd ra : RegNum) (imm : Word)
  | slui8 (rd ra : RegNum) (sh8 : Byte)
  | slui16 (rd ra : RegNum) (sh8 : Byte)
  | slui32 (rd ra : RegNum) (sh8 : Byte)
  | slui64 (rd ra : RegNum) (sh8 : Byte)
  | srui8 (rd ra : RegNum) (sh8 : Byte)
  | srui16 (rd ra : RegNum) (sh8 : Byte)
  | srui32 (rd ra : RegNum) (sh8 : Byte)
  | srui64 (rd ra : RegNum) (sh8 : Byte)
  | srsi8 (rd ra : RegNum) (sh8 : Byte)
  | srsi16 (rd ra : RegNum) (sh8 : Byte)
  | srsi32 (rd ra : RegNum) (sh8 : Byte)
  | srsi64 (rd ra : RegNum) (sh8 : Byte)
  | cmpui (rd ra : RegNum) (imm : Word)
  | cmpsi (rd ra : RegNum) (imm : Word)
  -- Register copies, load immediate, load relative address (43_copy_li_lra.md)
  | cp (rd ra : RegNum)
  | swa (ra rb : RegNum)
  | li8 (rd : RegNum) (imm : Byte)
  | li16 (rd : RegNum) (imm : BitVec 16)
  | li32 (rd : RegNum) (imm : BitVec 32)
  | li64 (rd : RegNum) (imm : Word)
  | lra (rd rb : RegNum) (off : BitVec 32)
  -- Memory access and block copies (44_memory_access.md)
  | ld (r rb : RegNum) (addr64 : Word) (size : BitVec 16)
  | st (r rb : RegNum) (addr64 : Word) (size : BitVec 16)
  | ldr (r rb : RegNum) (off : BitVec 32) (size : BitVec 16)
  | str (r rb : RegNum) (off : BitVec 32) (size : BitVec 16)
  | bmc (rs rt : RegNum) (count : BitVec 16)
  | brc (rs rt : RegNum) (count : Byte)
  -- Jumps and environment traps (45_jumps_and_traps.md)
  | jmp (off : BitVec 32)
  | jal (rl rb : RegNum) (off : BitVec 32)
  | jala (rl rb : RegNum) (addr64 : Word)
  | jeq (ra rb : RegNum) (off : BitVec 16)
  | jne (ra rb : RegNum) (off : BitVec 16)
  | jltu (ra rb : RegNum) (off : BitVec 16)
  | jgtu (ra rb : RegNum) (off : BitVec 16)
  | jlts (ra rb : RegNum) (off : BitVec 16)
  | jgts (ra rb : RegNum) (off : BitVec 16)
  | eca
  | ebp
  -- Floating point (46_float.md)
  | fadd32 (rd ra rb : RegNum)
  | fadd64 (rd ra rb : RegNum)
  | fsub32 (rd ra rb : RegNum)
  | fsub64 (rd ra rb : RegNum)
  | fmul32 (rd ra rb : RegNum)
  | fmul64 (rd ra rb : RegNum)
  | fdiv32 (rd ra rb : RegNum)
  | fdiv64 (rd ra rb : RegNum)
  | fma32 (rd ra rb rc : RegNum)
  | fma64 (rd ra rb rc : RegNum)
  | fcmplt32 (rd ra rb : RegNum)
  | fcmplt64 (rd ra rb : RegNum)
  | fcmpgt32 (rd ra rb : RegNum)
  | fcmpgt64 (rd ra rb : RegNum)
  | itf32 (rd ra : RegNum)
  | itf64 (rd ra : RegNum)
  | fti32 (rd ra : RegNum) (rm : Byte)
  | fti64 (rd ra : RegNum) (rm : Byte)
  | fc32t64 (rd ra : RegNum)
  | fc64t32 (rd ra : RegNum) (rm : Byte)
  -- 16-bit relative address variants (47_rel16_variants.md)
  | lra16 (rd rb : RegNum) (off : BitVec 16)
  | ldr16 (r rb : RegNum) (off size : BitVec 16)
  | str16 (r rb : RegNum) (off size : BitVec 16)
  | jmp16 (off : BitVec 16)
  deriving DecidableEq, Repr

end Sys2Proof
end

