-- ==== Sys2Proof/Machine/Dispatch.lean ====
section
/-! DEFINITION. Executing an instruction: one arm per constructor of Instr. -/

namespace Sys2Proof.Machine

open Sys2Proof

/-- The effect of one instruction at the program counter (70_reset_and_hazards.md R405). -/
def exec (i : Instr) (s : State) : Host.Outcome State Fault Refusal :=
  match i with
  | .un => Sys2Proof.Machine.execUn s
  | .tx => Sys2Proof.Machine.execTx s
  | .nop => Sys2Proof.Machine.execNop s
  | .add8 rd ra rb => Sys2Proof.Machine.execAdd8 rd ra rb s
  | .add16 rd ra rb => Sys2Proof.Machine.execAdd16 rd ra rb s
  | .add32 rd ra rb => Sys2Proof.Machine.execAdd32 rd ra rb s
  | .add64 rd ra rb => Sys2Proof.Machine.execAdd64 rd ra rb s
  | .sub8 rd ra rb => Sys2Proof.Machine.execSub8 rd ra rb s
  | .sub16 rd ra rb => Sys2Proof.Machine.execSub16 rd ra rb s
  | .sub32 rd ra rb => Sys2Proof.Machine.execSub32 rd ra rb s
  | .sub64 rd ra rb => Sys2Proof.Machine.execSub64 rd ra rb s
  | .mul8 rd ra rb => Sys2Proof.Machine.execMul8 rd ra rb s
  | .mul16 rd ra rb => Sys2Proof.Machine.execMul16 rd ra rb s
  | .mul32 rd ra rb => Sys2Proof.Machine.execMul32 rd ra rb s
  | .mul64 rd ra rb => Sys2Proof.Machine.execMul64 rd ra rb s
  | .and rd ra rb => Sys2Proof.Machine.execAnd rd ra rb s
  | .or rd ra rb => Sys2Proof.Machine.execOr rd ra rb s
  | .xor rd ra rb => Sys2Proof.Machine.execXor rd ra rb s
  | .slu8 rd ra rb => Sys2Proof.Machine.execSlu8 rd ra rb s
  | .slu16 rd ra rb => Sys2Proof.Machine.execSlu16 rd ra rb s
  | .slu32 rd ra rb => Sys2Proof.Machine.execSlu32 rd ra rb s
  | .slu64 rd ra rb => Sys2Proof.Machine.execSlu64 rd ra rb s
  | .sru8 rd ra rb => Sys2Proof.Machine.execSru8 rd ra rb s
  | .sru16 rd ra rb => Sys2Proof.Machine.execSru16 rd ra rb s
  | .sru32 rd ra rb => Sys2Proof.Machine.execSru32 rd ra rb s
  | .sru64 rd ra rb => Sys2Proof.Machine.execSru64 rd ra rb s
  | .srs8 rd ra rb => Sys2Proof.Machine.execSrs8 rd ra rb s
  | .srs16 rd ra rb => Sys2Proof.Machine.execSrs16 rd ra rb s
  | .srs32 rd ra rb => Sys2Proof.Machine.execSrs32 rd ra rb s
  | .srs64 rd ra rb => Sys2Proof.Machine.execSrs64 rd ra rb s
  | .cmpu rd ra rb => Sys2Proof.Machine.execCmpu rd ra rb s
  | .cmps rd ra rb => Sys2Proof.Machine.execCmps rd ra rb s
  | .diru8 rq rr ra rb => Sys2Proof.Machine.execDiru8 rq rr ra rb s
  | .diru16 rq rr ra rb => Sys2Proof.Machine.execDiru16 rq rr ra rb s
  | .diru32 rq rr ra rb => Sys2Proof.Machine.execDiru32 rq rr ra rb s
  | .diru64 rq rr ra rb => Sys2Proof.Machine.execDiru64 rq rr ra rb s
  | .dirs8 rq rr ra rb => Sys2Proof.Machine.execDirs8 rq rr ra rb s
  | .dirs16 rq rr ra rb => Sys2Proof.Machine.execDirs16 rq rr ra rb s
  | .dirs32 rq rr ra rb => Sys2Proof.Machine.execDirs32 rq rr ra rb s
  | .dirs64 rq rr ra rb => Sys2Proof.Machine.execDirs64 rq rr ra rb s
  | .neg rd ra => Sys2Proof.Machine.execNeg rd ra s
  | .not rd ra => Sys2Proof.Machine.execNot rd ra s
  | .sxt8 rd ra => Sys2Proof.Machine.execSxt8 rd ra s
  | .sxt16 rd ra => Sys2Proof.Machine.execSxt16 rd ra s
  | .sxt32 rd ra => Sys2Proof.Machine.execSxt32 rd ra s
  | .addi8 rd ra imm => Sys2Proof.Machine.execAddi8 rd ra imm s
  | .addi16 rd ra imm => Sys2Proof.Machine.execAddi16 rd ra imm s
  | .addi32 rd ra imm => Sys2Proof.Machine.execAddi32 rd ra imm s
  | .addi64 rd ra imm => Sys2Proof.Machine.execAddi64 rd ra imm s
  | .muli8 rd ra imm => Sys2Proof.Machine.execMuli8 rd ra imm s
  | .muli16 rd ra imm => Sys2Proof.Machine.execMuli16 rd ra imm s
  | .muli32 rd ra imm => Sys2Proof.Machine.execMuli32 rd ra imm s
  | .muli64 rd ra imm => Sys2Proof.Machine.execMuli64 rd ra imm s
  | .andi rd ra imm => Sys2Proof.Machine.execAndi rd ra imm s
  | .ori rd ra imm => Sys2Proof.Machine.execOri rd ra imm s
  | .xori rd ra imm => Sys2Proof.Machine.execXori rd ra imm s
  | .slui8 rd ra sh8 => Sys2Proof.Machine.execSlui8 rd ra sh8 s
  | .slui16 rd ra sh8 => Sys2Proof.Machine.execSlui16 rd ra sh8 s
  | .slui32 rd ra sh8 => Sys2Proof.Machine.execSlui32 rd ra sh8 s
  | .slui64 rd ra sh8 => Sys2Proof.Machine.execSlui64 rd ra sh8 s
  | .srui8 rd ra sh8 => Sys2Proof.Machine.execSrui8 rd ra sh8 s
  | .srui16 rd ra sh8 => Sys2Proof.Machine.execSrui16 rd ra sh8 s
  | .srui32 rd ra sh8 => Sys2Proof.Machine.execSrui32 rd ra sh8 s
  | .srui64 rd ra sh8 => Sys2Proof.Machine.execSrui64 rd ra sh8 s
  | .srsi8 rd ra sh8 => Sys2Proof.Machine.execSrsi8 rd ra sh8 s
  | .srsi16 rd ra sh8 => Sys2Proof.Machine.execSrsi16 rd ra sh8 s
  | .srsi32 rd ra sh8 => Sys2Proof.Machine.execSrsi32 rd ra sh8 s
  | .srsi64 rd ra sh8 => Sys2Proof.Machine.execSrsi64 rd ra sh8 s
  | .cmpui rd ra imm => Sys2Proof.Machine.execCmpui rd ra imm s
  | .cmpsi rd ra imm => Sys2Proof.Machine.execCmpsi rd ra imm s
  | .cp rd ra => Sys2Proof.Machine.execCp rd ra s
  | .swa ra rb => Sys2Proof.Machine.execSwa ra rb s
  | .li8 rd imm => Sys2Proof.Machine.execLi8 rd imm s
  | .li16 rd imm => Sys2Proof.Machine.execLi16 rd imm s
  | .li32 rd imm => Sys2Proof.Machine.execLi32 rd imm s
  | .li64 rd imm => Sys2Proof.Machine.execLi64 rd imm s
  | .lra rd rb off => Sys2Proof.Machine.execLra rd rb off s
  | .ld r rb addr64 size => Sys2Proof.Machine.execLd r rb addr64 size s
  | .st r rb addr64 size => Sys2Proof.Machine.execSt r rb addr64 size s
  | .ldr r rb off size => Sys2Proof.Machine.execLdr r rb off size s
  | .str r rb off size => Sys2Proof.Machine.execStr r rb off size s
  | .bmc rs rt count => Sys2Proof.Machine.execBmc rs rt count s
  | .brc rs rt count => Sys2Proof.Machine.execBrc rs rt count s
  | .jmp off => Sys2Proof.Machine.execJmp off s
  | .jal rl rb off => Sys2Proof.Machine.execJal rl rb off s
  | .jala rl rb addr64 => Sys2Proof.Machine.execJala rl rb addr64 s
  | .jeq ra rb off => Sys2Proof.Machine.execJeq ra rb off s
  | .jne ra rb off => Sys2Proof.Machine.execJne ra rb off s
  | .jltu ra rb off => Sys2Proof.Machine.execJltu ra rb off s
  | .jgtu ra rb off => Sys2Proof.Machine.execJgtu ra rb off s
  | .jlts ra rb off => Sys2Proof.Machine.execJlts ra rb off s
  | .jgts ra rb off => Sys2Proof.Machine.execJgts ra rb off s
  | .eca => Sys2Proof.Machine.execEca s
  | .ebp => Sys2Proof.Machine.execEbp s
  | .fadd32 rd ra rb => Sys2Proof.Machine.execFadd32 rd ra rb s
  | .fadd64 rd ra rb => Sys2Proof.Machine.execFadd64 rd ra rb s
  | .fsub32 rd ra rb => Sys2Proof.Machine.execFsub32 rd ra rb s
  | .fsub64 rd ra rb => Sys2Proof.Machine.execFsub64 rd ra rb s
  | .fmul32 rd ra rb => Sys2Proof.Machine.execFmul32 rd ra rb s
  | .fmul64 rd ra rb => Sys2Proof.Machine.execFmul64 rd ra rb s
  | .fdiv32 rd ra rb => Sys2Proof.Machine.execFdiv32 rd ra rb s
  | .fdiv64 rd ra rb => Sys2Proof.Machine.execFdiv64 rd ra rb s
  | .fma32 rd ra rb rc => Sys2Proof.Machine.execFma32 rd ra rb rc s
  | .fma64 rd ra rb rc => Sys2Proof.Machine.execFma64 rd ra rb rc s
  | .fcmplt32 rd ra rb => Sys2Proof.Machine.execFcmplt32 rd ra rb s
  | .fcmplt64 rd ra rb => Sys2Proof.Machine.execFcmplt64 rd ra rb s
  | .fcmpgt32 rd ra rb => Sys2Proof.Machine.execFcmpgt32 rd ra rb s
  | .fcmpgt64 rd ra rb => Sys2Proof.Machine.execFcmpgt64 rd ra rb s
  | .itf32 rd ra => Sys2Proof.Machine.execItf32 rd ra s
  | .itf64 rd ra => Sys2Proof.Machine.execItf64 rd ra s
  | .fti32 rd ra rm => Sys2Proof.Machine.execFti32 rd ra rm s
  | .fti64 rd ra rm => Sys2Proof.Machine.execFti64 rd ra rm s
  | .fc32t64 rd ra => Sys2Proof.Machine.execFc32t64 rd ra s
  | .fc64t32 rd ra rm => Sys2Proof.Machine.execFc64t32 rd ra rm s
  | .lra16 rd rb off => Sys2Proof.Machine.execLra16 rd rb off s
  | .ldr16 r rb off size => Sys2Proof.Machine.execLdr16 r rb off size s
  | .str16 r rb off size => Sys2Proof.Machine.execStr16 r rb off size s
  | .jmp16 off => Sys2Proof.Machine.execJmp16 off s

end Sys2Proof.Machine
end

