-- ==== Sys2Proof/WellFormed.lean ====
section
/-! DEFINITION. Which operand values are accepted. 30_encoding.md R85 calls every encoding of an assigned opcode well formed and lists the operand values that raise `InvalidOperand` when the instruction executes; `Instr.wellFormed` is the stricter word "raises no `InvalidOperand` by its operand bytes alone" (60_exceptions.md R367 step 4). Nothing in decoding or execution assumes it (assumption log 18). -/

namespace Sys2Proof

/-- The rounding-mode byte, where there is one, is 0 to 3 (30_encoding.md R79). -/
def Instr.roundingModeOk : Instr → Bool
  | .fti32 _ _ rm | .fti64 _ _ rm | .fc64t32 _ _ rm => rm.toNat ≤ 3
  | _ => true

/-- A run of registers named by a load, a store or `BRC` ends at register 255 at the latest (44_memory_access.md R232,
R238; 47_rel16_variants.md R342, R343). -/
def Instr.registerRunOk : Instr → Bool
  | .ld r _ _ size | .st r _ _ size | .ldr r _ _ size | .str r _ _ size | .ldr16 r _ _ size | .str16 r _ _ size =>
    8 * r.toNat + size.toNat ≤ 2048
  | .brc rs rt count => rs.toNat + count.toNat ≤ 256 && rt.toNat + count.toNat ≤ 256
  | _ => true

/-- No operand value that raises `InvalidOperand` (30_encoding.md R85). -/
def Instr.wellFormed (i : Instr) : Bool :=
  i.roundingModeOk && i.registerRunOk

end Sys2Proof
end

