-- ==== Sys2Proof/Decode.lean ====
section
/-! DEFINITION. The encoding (30_encoding.md): the opcode map, the decoder (total on any bytes, refusing by name) and the encoder. -/

namespace Sys2Proof

/-! ## Little-endian numbers (30_encoding.md R72) -/

/-- The `n` low bytes of `v`, least significant first. -/
def leBytes : Nat → Nat → List Byte
  | 0, _ => []
  | n + 1, v => BitVec.ofNat 8 v :: leBytes n (v / 256)

/-- Reads `n` bytes, least significant first, off the front of a list of bytes; none if there are fewer. -/
def takeLe : Nat → List Byte → Option (Nat × List Byte)
  | 0, bs => some (0, bs)
  | _ + 1, [] => none
  | n + 1, b :: bs =>
    match takeLe n bs with
    | none => none
    | some (v, rest) => some (b.toNat + 256 * v, rest)

/-! ## The opcode map (30_encoding.md R73, R80) -/

/-- What an opcode selects: a format and the constructor that the format's operands go to, in encoding order. -/
inductive Row where
  | n (i : Instr)
  | rr (f : RegNum → RegNum → Instr)
  | rrr (f : RegNum → RegNum → RegNum → Instr)
  | rrrr (f : RegNum → RegNum → RegNum → RegNum → Instr)
  | rrb (f : RegNum → RegNum → Byte → Instr)
  | rrh (f : RegNum → RegNum → BitVec 16 → Instr)
  | rrw (f : RegNum → RegNum → BitVec 32 → Instr)
  | rrd (f : RegNum → RegNum → Word → Instr)
  | rb (f : RegNum → Byte → Instr)
  | rh (f : RegNum → BitVec 16 → Instr)
  | rw (f : RegNum → BitVec 32 → Instr)
  | rd (f : RegNum → Word → Instr)
  | rro (f : RegNum → RegNum → BitVec 32 → Instr)
  | rrp (f : RegNum → RegNum → BitVec 16 → Instr)
  | rra (f : RegNum → RegNum → Word → Instr)
  | rrah (f : RegNum → RegNum → Word → BitVec 16 → Instr)
  | rroh (f : RegNum → RegNum → BitVec 32 → BitVec 16 → Instr)
  | rrph (f : RegNum → RegNum → BitVec 16 → BitVec 16 → Instr)
  | o (f : BitVec 32 → Instr)
  | p (f : BitVec 16 → Instr)

/-- The opcode map (30_encoding.md R80). An opcode with no row is not assigned (R84). -/
def opcodeRow (op : Byte) : Option Row :=
  match op.toNat with
  | 0x00 => some (.n .un)
  | 0x01 => some (.n .tx)
  | 0x02 => some (.n .nop)
  | 0x03 => some (.rrr .add8)
  | 0x04 => some (.rrr .add16)
  | 0x05 => some (.rrr .add32)
  | 0x06 => some (.rrr .add64)
  | 0x07 => some (.rrr .sub8)
  | 0x08 => some (.rrr .sub16)
  | 0x09 => some (.rrr .sub32)
  | 0x0A => some (.rrr .sub64)
  | 0x0B => some (.rrr .mul8)
  | 0x0C => some (.rrr .mul16)
  | 0x0D => some (.rrr .mul32)
  | 0x0E => some (.rrr .mul64)
  | 0x0F => some (.rrr .and)
  | 0x10 => some (.rrr .or)
  | 0x11 => some (.rrr .xor)
  | 0x12 => some (.rrr .slu8)
  | 0x13 => some (.rrr .slu16)
  | 0x14 => some (.rrr .slu32)
  | 0x15 => some (.rrr .slu64)
  | 0x16 => some (.rrr .sru8)
  | 0x17 => some (.rrr .sru16)
  | 0x18 => some (.rrr .sru32)
  | 0x19 => some (.rrr .sru64)
  | 0x1A => some (.rrr .srs8)
  | 0x1B => some (.rrr .srs16)
  | 0x1C => some (.rrr .srs32)
  | 0x1D => some (.rrr .srs64)
  | 0x1E => some (.rrr .cmpu)
  | 0x1F => some (.rrr .cmps)
  | 0x20 => some (.rrrr .diru8)
  | 0x21 => some (.rrrr .diru16)
  | 0x22 => some (.rrrr .diru32)
  | 0x23 => some (.rrrr .diru64)
  | 0x24 => some (.rrrr .dirs8)
  | 0x25 => some (.rrrr .dirs16)
  | 0x26 => some (.rrrr .dirs32)
  | 0x27 => some (.rrrr .dirs64)
  | 0x28 => some (.rr .neg)
  | 0x29 => some (.rr .not)
  | 0x2A => some (.rr .sxt8)
  | 0x2B => some (.rr .sxt16)
  | 0x2C => some (.rr .sxt32)
  | 0x2D => some (.rrb .addi8)
  | 0x2E => some (.rrh .addi16)
  | 0x2F => some (.rrw .addi32)
  | 0x30 => some (.rrd .addi64)
  | 0x31 => some (.rrb .muli8)
  | 0x32 => some (.rrh .muli16)
  | 0x33 => some (.rrw .muli32)
  | 0x34 => some (.rrd .muli64)
  | 0x35 => some (.rrd .andi)
  | 0x36 => some (.rrd .ori)
  | 0x37 => some (.rrd .xori)
  | 0x38 => some (.rrb .slui8)
  | 0x39 => some (.rrb .slui16)
  | 0x3A => some (.rrb .slui32)
  | 0x3B => some (.rrb .slui64)
  | 0x3C => some (.rrb .srui8)
  | 0x3D => some (.rrb .srui16)
  | 0x3E => some (.rrb .srui32)
  | 0x3F => some (.rrb .srui64)
  | 0x40 => some (.rrb .srsi8)
  | 0x41 => some (.rrb .srsi16)
  | 0x42 => some (.rrb .srsi32)
  | 0x43 => some (.rrb .srsi64)
  | 0x44 => some (.rrd .cmpui)
  | 0x45 => some (.rrd .cmpsi)
  | 0x46 => some (.rr .cp)
  | 0x47 => some (.rr .swa)
  | 0x48 => some (.rb .li8)
  | 0x49 => some (.rh .li16)
  | 0x4A => some (.rw .li32)
  | 0x4B => some (.rd .li64)
  | 0x4C => some (.rro .lra)
  | 0x4D => some (.rrah .ld)
  | 0x4E => some (.rrah .st)
  | 0x4F => some (.rroh .ldr)
  | 0x50 => some (.rroh .str)
  | 0x51 => some (.rrh .bmc)
  | 0x52 => some (.rrb .brc)
  | 0x53 => some (.o .jmp)
  | 0x54 => some (.rro .jal)
  | 0x55 => some (.rra .jala)
  | 0x56 => some (.rrp .jeq)
  | 0x57 => some (.rrp .jne)
  | 0x58 => some (.rrp .jltu)
  | 0x59 => some (.rrp .jgtu)
  | 0x5A => some (.rrp .jlts)
  | 0x5B => some (.rrp .jgts)
  | 0x5C => some (.n .eca)
  | 0x5D => some (.n .ebp)
  | 0x5E => some (.rrr .fadd32)
  | 0x5F => some (.rrr .fadd64)
  | 0x60 => some (.rrr .fsub32)
  | 0x61 => some (.rrr .fsub64)
  | 0x62 => some (.rrr .fmul32)
  | 0x63 => some (.rrr .fmul64)
  | 0x64 => some (.rrr .fdiv32)
  | 0x65 => some (.rrr .fdiv64)
  | 0x66 => some (.rrrr .fma32)
  | 0x67 => some (.rrrr .fma64)
  | 0x6A => some (.rrr .fcmplt32)
  | 0x6B => some (.rrr .fcmplt64)
  | 0x6C => some (.rrr .fcmpgt32)
  | 0x6D => some (.rrr .fcmpgt64)
  | 0x6E => some (.rr .itf32)
  | 0x6F => some (.rr .itf64)
  | 0x70 => some (.rrb .fti32)
  | 0x71 => some (.rrb .fti64)
  | 0x72 => some (.rr .fc32t64)
  | 0x73 => some (.rrb .fc64t32)
  | 0x74 => some (.rrp .lra16)
  | 0x75 => some (.rrph .ldr16)
  | 0x76 => some (.rrph .str16)
  | 0x77 => some (.p .jmp16)
  | _ => none

/-- The total length in bytes of an instruction, opcode included (30_encoding.md R73, R74): the opcode alone decides it (R75). -/
def Row.length : Row → Nat
  | .n _ => 1
  | .rr _ => 3
  | .rrr _ => 4
  | .rrrr _ => 5
  | .rrb _ => 4
  | .rrh _ => 5
  | .rrw _ => 7
  | .rrd _ => 11
  | .rb _ => 3
  | .rh _ => 4
  | .rw _ => 6
  | .rd _ => 10
  | .rro _ => 7
  | .rrp _ => 5
  | .rra _ => 11
  | .rrah _ => 13
  | .rroh _ => 9
  | .rrph _ => 7
  | .o _ => 5
  | .p _ => 3

/-! ## The decoder -/

/-- Reads one byte and goes on with the rest. -/
def withByte {α : Type} (bs : List Byte) (k : Byte → List Byte → Option α) : Option α :=
  match bs with
  | [] => none
  | b :: rest => k b rest

/-- Reads an `n`-byte little-endian operand of `w` bits and goes on with the rest. -/
def withLe {α : Type} (n w : Nat) (bs : List Byte) (k : BitVec w → List Byte → Option α) : Option α :=
  match takeLe n bs with
  | none => none
  | some (v, rest) => k (BitVec.ofNat w v) rest

/-- Reads the operands of a row's format off the bytes after the opcode; what is left over comes with the instruction. -/
def Row.parse (row : Row) (bs : List Byte) : Option (Instr × List Byte) :=
  match row with
  | .n i => some (i, bs)
  | .rr f => withByte bs fun a bs => withByte bs fun b bs => some (f a b, bs)
  | .rrr f => withByte bs fun a bs => withByte bs fun b bs => withByte bs fun c bs => some (f a b c, bs)
  | .rrrr f => withByte bs fun a bs => withByte bs fun b bs => withByte bs fun c bs => withByte bs fun d bs => some (f a b c d, bs)
  | .rrb f => withByte bs fun a bs => withByte bs fun b bs => withByte bs fun c bs => some (f a b c, bs)
  | .rrh f => withByte bs fun a bs => withByte bs fun b bs => withLe 2 16 bs fun c bs => some (f a b c, bs)
  | .rrw f => withByte bs fun a bs => withByte bs fun b bs => withLe 4 32 bs fun c bs => some (f a b c, bs)
  | .rrd f => withByte bs fun a bs => withByte bs fun b bs => withLe 8 64 bs fun c bs => some (f a b c, bs)
  | .rb f => withByte bs fun a bs => withByte bs fun b bs => some (f a b, bs)
  | .rh f => withByte bs fun a bs => withLe 2 16 bs fun b bs => some (f a b, bs)
  | .rw f => withByte bs fun a bs => withLe 4 32 bs fun b bs => some (f a b, bs)
  | .rd f => withByte bs fun a bs => withLe 8 64 bs fun b bs => some (f a b, bs)
  | .rro f => withByte bs fun a bs => withByte bs fun b bs => withLe 4 32 bs fun c bs => some (f a b c, bs)
  | .rrp f => withByte bs fun a bs => withByte bs fun b bs => withLe 2 16 bs fun c bs => some (f a b c, bs)
  | .rra f => withByte bs fun a bs => withByte bs fun b bs => withLe 8 64 bs fun c bs => some (f a b c, bs)
  | .rrah f => withByte bs fun a bs => withByte bs fun b bs => withLe 8 64 bs fun c bs => withLe 2 16 bs fun d bs => some (f a b c d, bs)
  | .rroh f => withByte bs fun a bs => withByte bs fun b bs => withLe 4 32 bs fun c bs => withLe 2 16 bs fun d bs => some (f a b c d, bs)
  | .rrph f => withByte bs fun a bs => withByte bs fun b bs => withLe 2 16 bs fun c bs => withLe 2 16 bs fun d bs => some (f a b c d, bs)
  | .o f => withLe 4 32 bs fun a bs => some (f a, bs)
  | .p f => withLe 2 16 bs fun a bs => some (f a, bs)

/-- Why a list of bytes is no instruction. -/
inductive DecodeError where
  /-- There is no opcode byte. -/
  | empty
  /-- The opcode is 0x68, 0x69 or 0x78 to 0xFF (30_encoding.md R84). -/
  | unknownOpcode (op : Byte)
  /-- The bytes end inside the operands of this opcode. -/
  | truncated (op : Byte)
  deriving DecidableEq, Repr

/-- Reads one instruction off the front of a list of bytes (30_encoding.md R70, R75). -/
def decode (bs : List Byte) : Except DecodeError (Instr × List Byte) :=
  match bs with
  | [] => .error .empty
  | op :: operands =>
    match opcodeRow op with
    | none => .error (.unknownOpcode op)
    | some row =>
      match row.parse operands with
      | none => .error (.truncated op)
      | some r => .ok r

/-- The longest instruction (30_encoding.md R74). -/
def maxLength : Nat := 13

/-- The bytes of an instruction given as a number, bit 0 the least significant bit of its first byte: `nbits` bits of `w`,
every bit above them 0, up to the longest instruction. -/
def tableBytes (nbits w : Nat) : List Byte :=
  leBytes maxLength (w % 2 ^ nbits)

/-- The instruction the decoder reads from a number of `nbits` bits (see `tableBytes`). -/
def decodeTableWord (nbits w : Nat) : Option Instr :=
  match decode (tableBytes nbits w) with
  | .error _ => none
  | .ok (i, _) => some i

/-! ## The encoder (30_encoding.md R70 to R73) -/

/-- A two-byte operand (`H`, `P`). -/
def le2 (v : BitVec 16) : List Byte := leBytes 2 v.toNat

/-- A four-byte operand (`W`, `O`). -/
def le4 (v : BitVec 32) : List Byte := leBytes 4 v.toNat

/-- An eight-byte operand (`D`, `A`). -/
def le8 (v : Word) : List Byte := leBytes 8 v.toNat

/-- The bytes of an instruction: the opcode, then the operands, packed. -/
def encode : Instr → List Byte
  | .un => [0x00#8]
  | .tx => [0x01#8]
  | .nop => [0x02#8]
  | .add8 rd ra rb => [0x03#8, rd, ra, rb]
  | .add16 rd ra rb => [0x04#8, rd, ra, rb]
  | .add32 rd ra rb => [0x05#8, rd, ra, rb]
  | .add64 rd ra rb => [0x06#8, rd, ra, rb]
  | .sub8 rd ra rb => [0x07#8, rd, ra, rb]
  | .sub16 rd ra rb => [0x08#8, rd, ra, rb]
  | .sub32 rd ra rb => [0x09#8, rd, ra, rb]
  | .sub64 rd ra rb => [0x0A#8, rd, ra, rb]
  | .mul8 rd ra rb => [0x0B#8, rd, ra, rb]
  | .mul16 rd ra rb => [0x0C#8, rd, ra, rb]
  | .mul32 rd ra rb => [0x0D#8, rd, ra, rb]
  | .mul64 rd ra rb => [0x0E#8, rd, ra, rb]
  | .and rd ra rb => [0x0F#8, rd, ra, rb]
  | .or rd ra rb => [0x10#8, rd, ra, rb]
  | .xor rd ra rb => [0x11#8, rd, ra, rb]
  | .slu8 rd ra rb => [0x12#8, rd, ra, rb]
  | .slu16 rd ra rb => [0x13#8, rd, ra, rb]
  | .slu32 rd ra rb => [0x14#8, rd, ra, rb]
  | .slu64 rd ra rb => [0x15#8, rd, ra, rb]
  | .sru8 rd ra rb => [0x16#8, rd, ra, rb]
  | .sru16 rd ra rb => [0x17#8, rd, ra, rb]
  | .sru32 rd ra rb => [0x18#8, rd, ra, rb]
  | .sru64 rd ra rb => [0x19#8, rd, ra, rb]
  | .srs8 rd ra rb => [0x1A#8, rd, ra, rb]
  | .srs16 rd ra rb => [0x1B#8, rd, ra, rb]
  | .srs32 rd ra rb => [0x1C#8, rd, ra, rb]
  | .srs64 rd ra rb => [0x1D#8, rd, ra, rb]
  | .cmpu rd ra rb => [0x1E#8, rd, ra, rb]
  | .cmps rd ra rb => [0x1F#8, rd, ra, rb]
  | .diru8 rq rr ra rb => [0x20#8, rq, rr, ra, rb]
  | .diru16 rq rr ra rb => [0x21#8, rq, rr, ra, rb]
  | .diru32 rq rr ra rb => [0x22#8, rq, rr, ra, rb]
  | .diru64 rq rr ra rb => [0x23#8, rq, rr, ra, rb]
  | .dirs8 rq rr ra rb => [0x24#8, rq, rr, ra, rb]
  | .dirs16 rq rr ra rb => [0x25#8, rq, rr, ra, rb]
  | .dirs32 rq rr ra rb => [0x26#8, rq, rr, ra, rb]
  | .dirs64 rq rr ra rb => [0x27#8, rq, rr, ra, rb]
  | .neg rd ra => [0x28#8, rd, ra]
  | .not rd ra => [0x29#8, rd, ra]
  | .sxt8 rd ra => [0x2A#8, rd, ra]
  | .sxt16 rd ra => [0x2B#8, rd, ra]
  | .sxt32 rd ra => [0x2C#8, rd, ra]
  | .addi8 rd ra imm => [0x2D#8, rd, ra, imm]
  | .addi16 rd ra imm => 0x2E#8 :: rd :: ra :: le2 imm
  | .addi32 rd ra imm => 0x2F#8 :: rd :: ra :: le4 imm
  | .addi64 rd ra imm => 0x30#8 :: rd :: ra :: le8 imm
  | .muli8 rd ra imm => [0x31#8, rd, ra, imm]
  | .muli16 rd ra imm => 0x32#8 :: rd :: ra :: le2 imm
  | .muli32 rd ra imm => 0x33#8 :: rd :: ra :: le4 imm
  | .muli64 rd ra imm => 0x34#8 :: rd :: ra :: le8 imm
  | .andi rd ra imm => 0x35#8 :: rd :: ra :: le8 imm
  | .ori rd ra imm => 0x36#8 :: rd :: ra :: le8 imm
  | .xori rd ra imm => 0x37#8 :: rd :: ra :: le8 imm
  | .slui8 rd ra sh8 => [0x38#8, rd, ra, sh8]
  | .slui16 rd ra sh8 => [0x39#8, rd, ra, sh8]
  | .slui32 rd ra sh8 => [0x3A#8, rd, ra, sh8]
  | .slui64 rd ra sh8 => [0x3B#8, rd, ra, sh8]
  | .srui8 rd ra sh8 => [0x3C#8, rd, ra, sh8]
  | .srui16 rd ra sh8 => [0x3D#8, rd, ra, sh8]
  | .srui32 rd ra sh8 => [0x3E#8, rd, ra, sh8]
  | .srui64 rd ra sh8 => [0x3F#8, rd, ra, sh8]
  | .srsi8 rd ra sh8 => [0x40#8, rd, ra, sh8]
  | .srsi16 rd ra sh8 => [0x41#8, rd, ra, sh8]
  | .srsi32 rd ra sh8 => [0x42#8, rd, ra, sh8]
  | .srsi64 rd ra sh8 => [0x43#8, rd, ra, sh8]
  | .cmpui rd ra imm => 0x44#8 :: rd :: ra :: le8 imm
  | .cmpsi rd ra imm => 0x45#8 :: rd :: ra :: le8 imm
  | .cp rd ra => [0x46#8, rd, ra]
  | .swa ra rb => [0x47#8, ra, rb]
  | .li8 rd imm => [0x48#8, rd, imm]
  | .li16 rd imm => 0x49#8 :: rd :: le2 imm
  | .li32 rd imm => 0x4A#8 :: rd :: le4 imm
  | .li64 rd imm => 0x4B#8 :: rd :: le8 imm
  | .lra rd rb off => 0x4C#8 :: rd :: rb :: le4 off
  | .ld r rb addr64 size => 0x4D#8 :: r :: rb :: (le8 addr64 ++ le2 size)
  | .st r rb addr64 size => 0x4E#8 :: r :: rb :: (le8 addr64 ++ le2 size)
  | .ldr r rb off size => 0x4F#8 :: r :: rb :: (le4 off ++ le2 size)
  | .str r rb off size => 0x50#8 :: r :: rb :: (le4 off ++ le2 size)
  | .bmc rs rt count => 0x51#8 :: rs :: rt :: le2 count
  | .brc rs rt count => [0x52#8, rs, rt, count]
  | .jmp off => 0x53#8 :: le4 off
  | .jal rl rb off => 0x54#8 :: rl :: rb :: le4 off
  | .jala rl rb addr64 => 0x55#8 :: rl :: rb :: le8 addr64
  | .jeq ra rb off => 0x56#8 :: ra :: rb :: le2 off
  | .jne ra rb off => 0x57#8 :: ra :: rb :: le2 off
  | .jltu ra rb off => 0x58#8 :: ra :: rb :: le2 off
  | .jgtu ra rb off => 0x59#8 :: ra :: rb :: le2 off
  | .jlts ra rb off => 0x5A#8 :: ra :: rb :: le2 off
  | .jgts ra rb off => 0x5B#8 :: ra :: rb :: le2 off
  | .eca => [0x5C#8]
  | .ebp => [0x5D#8]
  | .fadd32 rd ra rb => [0x5E#8, rd, ra, rb]
  | .fadd64 rd ra rb => [0x5F#8, rd, ra, rb]
  | .fsub32 rd ra rb => [0x60#8, rd, ra, rb]
  | .fsub64 rd ra rb => [0x61#8, rd, ra, rb]
  | .fmul32 rd ra rb => [0x62#8, rd, ra, rb]
  | .fmul64 rd ra rb => [0x63#8, rd, ra, rb]
  | .fdiv32 rd ra rb => [0x64#8, rd, ra, rb]
  | .fdiv64 rd ra rb => [0x65#8, rd, ra, rb]
  | .fma32 rd ra rb rc => [0x66#8, rd, ra, rb, rc]
  | .fma64 rd ra rb rc => [0x67#8, rd, ra, rb, rc]
  | .fcmplt32 rd ra rb => [0x6A#8, rd, ra, rb]
  | .fcmplt64 rd ra rb => [0x6B#8, rd, ra, rb]
  | .fcmpgt32 rd ra rb => [0x6C#8, rd, ra, rb]
  | .fcmpgt64 rd ra rb => [0x6D#8, rd, ra, rb]
  | .itf32 rd ra => [0x6E#8, rd, ra]
  | .itf64 rd ra => [0x6F#8, rd, ra]
  | .fti32 rd ra rm => [0x70#8, rd, ra, rm]
  | .fti64 rd ra rm => [0x71#8, rd, ra, rm]
  | .fc32t64 rd ra => [0x72#8, rd, ra]
  | .fc64t32 rd ra rm => [0x73#8, rd, ra, rm]
  | .lra16 rd rb off => 0x74#8 :: rd :: rb :: le2 off
  | .ldr16 r rb off size => 0x75#8 :: r :: rb :: (le2 off ++ le2 size)
  | .str16 r rb off size => 0x76#8 :: r :: rb :: (le2 off ++ le2 size)
  | .jmp16 off => 0x77#8 :: le2 off

end Sys2Proof
end

