-- ==== Sys2Proof/Machine/Fetch.lean ====
section
/-! DEFINITION. Fetching the instruction at the program counter (20_memory.md R48), and placing one there. -/

namespace Sys2Proof.Machine

open Sys2Proof

/-- What a fetch gives. -/
inductive Fetched where
  /-- The instruction. -/
  | instr (i : Instr)
  /-- The state in which the fetch has raised an exception. -/
  | raised (s : State)
  /-- The decoder refuses the bytes of an assigned opcode; no state gives this. -/
  | undecodable
  deriving DecidableEq, Repr

/-- The fetch, in the order of 20_memory.md R48 and 60_exceptions.md R367: the opcode byte; the opcode looked up, an
unassigned one raising `UnknownOpcode` before any operand byte is read; the operand bytes; the instruction. -/
def State.fetch (s : State) : Fetched :=
  match s.faultAddress .fetch s.pc 1 with
  | some a => .raised (s.raiseAccess .fetch a)
  | none =>
    match opcodeRow (s.byteAt s.pc) with
    | none => .raised (s.raise (.unknownOpcode (s.byteAt s.pc)))
    | some row =>
      match s.faultAddress .fetch (s.pc + 1#64) (row.length - 1) with
      | some a => .raised (s.raiseAccess .fetch a)
      | none =>
        match decode (Memory.readBytes s.mem s.pc row.length) with
        | .ok (i, _) => .instr i
        | .error _ => .undecodable

/-- Whether the longest instruction fits between the program counter and the end of the address space, off address 0. -/
def State.roomAtPc (s : State) : Bool :=
  s.pc != 0#64 && s.pc.toNat + maxLength ≤ 2 ^ 64

/-- The state with these bytes of an instruction at the program counter, running, and able to fetch them: the program
counter moves only if no instruction fits where it is, and `MemMap` gains a fetchable region only if it lacks one. -/
def State.placeAtPc (s : State) (bytes : List Byte) : State :=
  let pc := if s.roomAtPc then s.pc else Config.entryPc
  let memMap :=
    if (s.failing .fetch pc maxLength).isEmpty then s.memMap
    else { base := pc.toNat, size := maxLength, readable := false, writable := false, fetchable := true } :: s.memMap
  { s with pc := pc, memMap := memMap, status := .running, mem := Memory.writeBytes s.mem pc bytes }

end Sys2Proof.Machine
end

