-- ==== Sys2Proof/Machine/Step.lean ====
section
/-! DEFINITION. One step of the machine (70_reset_and_hazards.md R405). -/

namespace Sys2Proof.Machine

open Sys2Proof

/-- One step. A running machine fetches the instruction at the program counter and executes it. A machine stopped by a trap
or an exception executes nothing: the host has its turn (60_exceptions.md R369). A halted machine stays as it is
(70_reset_and_hazards.md R404). -/
def step (s : State) : Host.Outcome State Fault Refusal :=
  match s.status with
  | .running =>
    match s.fetch with
    | .instr i => exec i s
    | .raised t => .next t
    | .undecodable => .fault .undecodable
  | .trapped _ | .faulted _ => .next s.hostTurn
  | .halted => .next s

/-- The state with the instruction of `nbits` bits `w` (30_encoding.md R72, see `tableBytes`) stored where the next step
fetches, and able to fetch it. It stands for the host's load of a program (assumption log 13). -/
def State.withFetchWord (s : State) (nbits w : Nat) : State :=
  s.placeAtPc (tableBytes nbits w)

end Sys2Proof.Machine
end

