-- ==== Sys2Proof/Safety.lean ====
section
/-! DEFINITION. The terms that statements about the machine use: the invariant, frames, the spec's pseudocode primitives on whole numbers (00_scope.md R10), and what IEEE 754 asks of a result (46_float.md), said without the operations that the meanings use. -/

namespace Sys2Proof.Machine

open Sys2Proof

/-! ## The invariant -/

/-- The memory has its canonical form, and the element of the register file that stands for register 0 holds 0. -/
def State.Inv (s : State) : Prop :=
  Memory.wf s.mem = true ∧ s.regs[0] = 0#64

/-! ## Frames -/

/-- Everything but the registers and the program counter is as before: every byte of memory and all the rest. -/
structure SameRest (s t : State) : Prop where
  bytes : ∀ a : Word, t.byteAt a = s.byteAt a
  memMap : t.memMap = s.memMap
  status : t.status = s.status
  host : t.host = s.host
  draws : t.draws = s.draws

/-- The instruction completes: the program counter becomes `pc'`, every register `r` reads `regs' r`, all else is as before. -/
def Completes (i : Instr) (s : State) (pc' : Word) (regs' : RegNum → Word) : Prop :=
  ∃ t, exec i s = .next t ∧ t.pc = pc' ∧ (∀ r, t.reg r = regs' r) ∧ SameRest s t

/-- What the registers read when register `rd` has been given `v`: a write to register 0 does nothing (10_state.md R22). -/
def afterWrite (s : State) (rd : RegNum) (v : Word) (r : RegNum) : Word :=
  if r = rd ∧ r ≠ 0#8 then v else s.reg r

/-- What they read when `rq` has been given `q` and then `rr` has been given `v` (41_int_reg_reg.md R113). -/
def afterWriteTwo (s : State) (rq : RegNum) (q : Word) (rr : RegNum) (v : Word) (r : RegNum) : Word :=
  if r = rr ∧ r ≠ 0#8 then v else afterWrite s rq q r

/-- A load completes: byte `j` of the register file is the byte of memory for it where it lies in the run from register `r`
and not in register 0, and as before elsewhere (44_memory_access.md R231). -/
def Loads (i : Instr) (s : State) (pc' : Word) (r : RegNum) (addr : Word) (n : Nat) : Prop :=
  ∃ t, exec i s = .next t ∧ t.pc = pc' ∧
    (∀ j < 2048, t.regByte j =
      if 8 ≤ j ∧ 8 * r.toNat ≤ j ∧ j < 8 * r.toNat + n then s.byteAt (addr + BitVec.ofNat 64 (j - 8 * r.toNat))
      else s.regByte j) ∧
    SameRest s t

/-- A store of `n` bytes at `addr` completes: byte `k` there is `data k`, every byte outside is as before, and so is all else. -/
def Stores (i : Instr) (s : State) (pc' addr : Word) (n : Nat) (data : Nat → Byte) : Prop :=
  ∃ t, exec i s = .next t ∧ t.pc = pc' ∧ (∀ r, t.reg r = s.reg r) ∧
    (∀ k < n, t.byteAt (addr + BitVec.ofNat 64 k) = data k) ∧
    (∀ a, (∀ k < n, a ≠ addr + BitVec.ofNat 64 k) → t.byteAt a = s.byteAt a) ∧
    t.memMap = s.memMap ∧ t.status = s.status ∧ t.host = s.host ∧ t.draws = s.draws

/-- Every byte of an access is permitted (20_memory.md R46). -/
def State.AllowsAll (s : State) (kind : AccessKind) (addr : Word) (n : Nat) : Prop :=
  ∀ k < n, s.allows kind (addr + BitVec.ofNat 64 k) = true

/-- Address `a` is a byte of the access that is not permitted. -/
def State.Failing (s : State) (kind : AccessKind) (addr : Word) (n : Nat) (a : Word) : Prop :=
  s.allows kind a = false ∧ ∃ k < n, a = addr + BitVec.ofNat 64 k

/-- The instruction raises a memory access fault that reports `a`, and nothing but the status has changed (60_exceptions.md
R366, R368); the model's own counter of free choices goes on. -/
def RaisesAccess (i : Instr) (s : State) (kind : AccessKind) (a : Word) : Prop :=
  exec i s = .next { s with status := .faulted (.memoryAccessFault kind a), draws := s.draws + 1 }

/-- As `RaisesAccess`, of an instruction that was to write `data` to the `n` bytes at `dst`: bytes outside keep their values, a
byte inside has its old value or, if it is writable, the one the completed instruction would have written (R368). -/
def RaisesAccessStoring (i : Instr) (s : State) (kind : AccessKind) (a dst : Word) (n : Nat) (data : Nat → Byte) : Prop :=
  ∃ m, exec i s = .next { s with status := .faulted (.memoryAccessFault kind a), draws := s.draws + 1, mem := m } ∧
    (∀ b : Word, (∀ k < n, b ≠ dst + BitVec.ofNat 64 k) → Memory.read m b.toNat = s.byteAt b) ∧
    (∀ k < n, Memory.read m (dst + BitVec.ofNat 64 k).toNat = s.byteAt (dst + BitVec.ofNat 64 k) ∨
      s.allows .write (dst + BitVec.ofNat 64 k) = true ∧ Memory.read m (dst + BitVec.ofNat 64 k).toNat = data k)

/-- The registers an instruction may write (10_state.md R34). -/
def mayWrite (i : Instr) (r : RegNum) : Bool :=
  match i with
  | .add8 rd _ _ | .add16 rd _ _ | .add32 rd _ _ | .add64 rd _ _ | .sub8 rd _ _ | .sub16 rd _ _ | .sub32 rd _ _
  | .sub64 rd _ _ | .mul8 rd _ _ | .mul16 rd _ _ | .mul32 rd _ _ | .mul64 rd _ _ | .and rd _ _ | .or rd _ _
  | .xor rd _ _ | .slu8 rd _ _ | .slu16 rd _ _ | .slu32 rd _ _ | .slu64 rd _ _ | .sru8 rd _ _ | .sru16 rd _ _
  | .sru32 rd _ _ | .sru64 rd _ _ | .srs8 rd _ _ | .srs16 rd _ _ | .srs32 rd _ _ | .srs64 rd _ _ | .cmpu rd _ _
  | .cmps rd _ _ | .neg rd _ | .not rd _ | .sxt8 rd _ | .sxt16 rd _ | .sxt32 rd _ | .addi8 rd _ _
  | .addi16 rd _ _ | .addi32 rd _ _ | .addi64 rd _ _ | .muli8 rd _ _ | .muli16 rd _ _ | .muli32 rd _ _
  | .muli64 rd _ _ | .andi rd _ _ | .ori rd _ _ | .xori rd _ _ | .slui8 rd _ _ | .slui16 rd _ _ | .slui32 rd _ _
  | .slui64 rd _ _ | .srui8 rd _ _ | .srui16 rd _ _ | .srui32 rd _ _ | .srui64 rd _ _ | .srsi8 rd _ _
  | .srsi16 rd _ _ | .srsi32 rd _ _ | .srsi64 rd _ _ | .cmpui rd _ _ | .cmpsi rd _ _ | .cp rd _ | .li8 rd _
  | .li16 rd _ | .li32 rd _ | .li64 rd _ | .lra rd _ _ | .fadd32 rd _ _ | .fadd64 rd _ _ | .fsub32 rd _ _
  | .fsub64 rd _ _ | .fmul32 rd _ _ | .fmul64 rd _ _ | .fdiv32 rd _ _ | .fdiv64 rd _ _ | .fma32 rd _ _ _
  | .fma64 rd _ _ _ | .fcmplt32 rd _ _ | .fcmplt64 rd _ _ | .fcmpgt32 rd _ _ | .fcmpgt64 rd _ _ | .itf32 rd _
  | .itf64 rd _ | .fti32 rd _ _ | .fti64 rd _ _ | .fc32t64 rd _ | .fc64t32 rd _ _ | .lra16 rd _ _ => r == rd
  | .diru8 rq rr _ _ | .diru16 rq rr _ _ | .diru32 rq rr _ _ | .diru64 rq rr _ _ | .dirs8 rq rr _ _
  | .dirs16 rq rr _ _ | .dirs32 rq rr _ _ | .dirs64 rq rr _ _ => r == rq || r == rr
  | .swa ra rb => r == ra || r == rb
  | .jal rl _ _ | .jala rl _ _ => r == rl
  | .ld r0 _ _ size | .ldr r0 _ _ size | .ldr16 r0 _ _ size =>
    8 * r0.toNat < 8 * r.toNat + 8 && 8 * r.toNat < 8 * r0.toNat + size.toNat
  | .brc _ rt count => rt.toNat ≤ r.toNat && r.toNat < rt.toNat + count.toNat
  | .un | .tx | .nop | .st _ _ _ _ | .str _ _ _ _ | .bmc _ _ _ | .jmp _ | .jeq _ _ _ | .jne _ _ _ | .jltu _ _ _
  | .jgtu _ _ _ | .jlts _ _ _ | .jgts _ _ _ | .eca | .ebp | .str16 _ _ _ _ | .jmp16 _ => false

/-- The bytes an instruction stores to: where they start and how many they are (20_memory.md R41). -/
def destination (i : Instr) (s : State) : Option (Word × Nat) :=
  match i with
  | .st _ rb addr64 size => some (s.absoluteAddress rb addr64, size.toNat)
  | .str _ rb off size => some (s.relativeAddressReg rb off, size.toNat)
  | .str16 _ rb off size => some (s.relativeAddressReg rb off, size.toNat)
  | .bmc _ rt count => some (s.reg rt, count.toNat)
  | .un | .tx | .nop | .add8 _ _ _ | .add16 _ _ _ | .add32 _ _ _ | .add64 _ _ _ | .sub8 _ _ _ | .sub16 _ _ _
  | .sub32 _ _ _ | .sub64 _ _ _ | .mul8 _ _ _ | .mul16 _ _ _ | .mul32 _ _ _ | .mul64 _ _ _ | .and _ _ _
  | .or _ _ _ | .xor _ _ _ | .slu8 _ _ _ | .slu16 _ _ _ | .slu32 _ _ _ | .slu64 _ _ _ | .sru8 _ _ _
  | .sru16 _ _ _ | .sru32 _ _ _ | .sru64 _ _ _ | .srs8 _ _ _ | .srs16 _ _ _ | .srs32 _ _ _ | .srs64 _ _ _
  | .cmpu _ _ _ | .cmps _ _ _ | .diru8 _ _ _ _ | .diru16 _ _ _ _ | .diru32 _ _ _ _ | .diru64 _ _ _ _
  | .dirs8 _ _ _ _ | .dirs16 _ _ _ _ | .dirs32 _ _ _ _ | .dirs64 _ _ _ _ | .neg _ _ | .not _ _ | .sxt8 _ _
  | .sxt16 _ _ | .sxt32 _ _ | .addi8 _ _ _ | .addi16 _ _ _ | .addi32 _ _ _ | .addi64 _ _ _ | .muli8 _ _ _
  | .muli16 _ _ _ | .muli32 _ _ _ | .muli64 _ _ _ | .andi _ _ _ | .ori _ _ _ | .xori _ _ _ | .slui8 _ _ _
  | .slui16 _ _ _ | .slui32 _ _ _ | .slui64 _ _ _ | .srui8 _ _ _ | .srui16 _ _ _ | .srui32 _ _ _ | .srui64 _ _ _
  | .srsi8 _ _ _ | .srsi16 _ _ _ | .srsi32 _ _ _ | .srsi64 _ _ _ | .cmpui _ _ _ | .cmpsi _ _ _ | .cp _ _
  | .swa _ _ | .li8 _ _ | .li16 _ _ | .li32 _ _ | .li64 _ _ | .lra _ _ _ | .ld _ _ _ _ | .ldr _ _ _ _
  | .brc _ _ _ | .jmp _ | .jal _ _ _ | .jala _ _ _ | .jeq _ _ _ | .jne _ _ _ | .jltu _ _ _ | .jgtu _ _ _
  | .jlts _ _ _ | .jgts _ _ _ | .eca | .ebp | .fadd32 _ _ _ | .fadd64 _ _ _ | .fsub32 _ _ _ | .fsub64 _ _ _
  | .fmul32 _ _ _ | .fmul64 _ _ _ | .fdiv32 _ _ _ | .fdiv64 _ _ _ | .fma32 _ _ _ _ | .fma64 _ _ _ _
  | .fcmplt32 _ _ _ | .fcmplt64 _ _ _ | .fcmpgt32 _ _ _ | .fcmpgt64 _ _ _ | .itf32 _ _ | .itf64 _ _
  | .fti32 _ _ _ | .fti64 _ _ _ | .fc32t64 _ _ | .fc64t32 _ _ _ | .lra16 _ _ _ | .ldr16 _ _ _ _ | .jmp16 _ => none

/-- The jumps (45_jumps_and_traps.md R260, 47_rel16_variants.md R344). -/
def isJump (i : Instr) : Bool :=
  match i with
  | .jmp _ | .jal _ _ _ | .jala _ _ _ | .jeq _ _ _ | .jne _ _ _ | .jltu _ _ _ | .jgtu _ _ _ | .jlts _ _ _
  | .jgts _ _ _ | .jmp16 _ => true
  | .un | .tx | .nop | .add8 _ _ _ | .add16 _ _ _ | .add32 _ _ _ | .add64 _ _ _ | .sub8 _ _ _ | .sub16 _ _ _
  | .sub32 _ _ _ | .sub64 _ _ _ | .mul8 _ _ _ | .mul16 _ _ _ | .mul32 _ _ _ | .mul64 _ _ _ | .and _ _ _
  | .or _ _ _ | .xor _ _ _ | .slu8 _ _ _ | .slu16 _ _ _ | .slu32 _ _ _ | .slu64 _ _ _ | .sru8 _ _ _
  | .sru16 _ _ _ | .sru32 _ _ _ | .sru64 _ _ _ | .srs8 _ _ _ | .srs16 _ _ _ | .srs32 _ _ _ | .srs64 _ _ _
  | .cmpu _ _ _ | .cmps _ _ _ | .diru8 _ _ _ _ | .diru16 _ _ _ _ | .diru32 _ _ _ _ | .diru64 _ _ _ _
  | .dirs8 _ _ _ _ | .dirs16 _ _ _ _ | .dirs32 _ _ _ _ | .dirs64 _ _ _ _ | .neg _ _ | .not _ _ | .sxt8 _ _
  | .sxt16 _ _ | .sxt32 _ _ | .addi8 _ _ _ | .addi16 _ _ _ | .addi32 _ _ _ | .addi64 _ _ _ | .muli8 _ _ _
  | .muli16 _ _ _ | .muli32 _ _ _ | .muli64 _ _ _ | .andi _ _ _ | .ori _ _ _ | .xori _ _ _ | .slui8 _ _ _
  | .slui16 _ _ _ | .slui32 _ _ _ | .slui64 _ _ _ | .srui8 _ _ _ | .srui16 _ _ _ | .srui32 _ _ _ | .srui64 _ _ _
  | .srsi8 _ _ _ | .srsi16 _ _ _ | .srsi32 _ _ _ | .srsi64 _ _ _ | .cmpui _ _ _ | .cmpsi _ _ _ | .cp _ _
  | .swa _ _ | .li8 _ _ | .li16 _ _ | .li32 _ _ | .li64 _ _ | .lra _ _ _ | .ld _ _ _ _ | .st _ _ _ _
  | .ldr _ _ _ _ | .str _ _ _ _ | .bmc _ _ _ | .brc _ _ _ | .eca | .ebp | .fadd32 _ _ _ | .fadd64 _ _ _
  | .fsub32 _ _ _ | .fsub64 _ _ _ | .fmul32 _ _ _ | .fmul64 _ _ _ | .fdiv32 _ _ _ | .fdiv64 _ _ _
  | .fma32 _ _ _ _ | .fma64 _ _ _ _ | .fcmplt32 _ _ _ | .fcmplt64 _ _ _ | .fcmpgt32 _ _ _ | .fcmpgt64 _ _ _
  | .itf32 _ _ | .itf64 _ _ | .fti32 _ _ _ | .fti64 _ _ _ | .fc32t64 _ _ | .fc64t32 _ _ _ | .lra16 _ _ _
  | .ldr16 _ _ _ _ | .str16 _ _ _ _ => false

/-! ## Whole numbers (00_scope.md R10, 30_encoding.md R72) -/

/-- `v[n-1:0]`: the low `n` bits as an unsigned number. -/
def low (n : Nat) (v : Word) : Nat :=
  v.toNat % 2 ^ n

/-- `s_N(v)`: the signed reading of the `n`-bit pattern `v`. -/
def signedReading (n : Nat) (v : Nat) : Int :=
  if 2 ^ (n - 1) ≤ v then (v : Int) - 2 ^ n else (v : Int)

/-- The `n` bytes of a number in little-endian order: byte `k` is its bits 8k+7 to 8k. -/
def bytesLE {w : Nat} (n : Nat) (v : BitVec w) : List Byte :=
  (List.range n).map fun k => v.extractLsb' (8 * k) 8

/-- The number of an ordering (41_int_reg_reg.md R112): -1, 0 or 1. -/
def ordering (less equal : Prop) [Decidable less] [Decidable equal] : Word :=
  if less then BitVec.ofInt 64 (-1) else if equal then BitVec.ofInt 64 0 else BitVec.ofInt 64 1

/-- No instruction has this opcode (30_encoding.md R84). -/
def unassigned (op : Byte) : Prop :=
  op = 0x68#8 ∨ op = 0x69#8 ∨ 0x78 ≤ op.toNat

/-! ## What IEEE 754 asks of a result (46_float.md R290 to R293) -/

/-- The magnitude, in units of the smallest subnormal number, that an encoding without its sign bit stands for. The encoding of
+∞ counts as the power of two after the largest finite number, which is what rounding to nearest needs (R291). -/
def Format.point (f : Format) (b : Nat) : Nat :=
  let e := b / 2 ^ f.fracBits
  let frac := b % 2 ^ f.fracBits
  if e = 0 then frac else (2 ^ f.fracBits + frac) * 2 ^ (e - 1)

/-- How far the point of `b` is from `num / den`, times `den`. -/
def Format.distance (f : Format) (num den b : Nat) : Nat :=
  ((f.point b * den : Nat) - (num : Int)).natAbs

/-- `b` encodes the largest finite magnitude not above `num / den`. -/
def Format.IsFloor (f : Format) (num den b : Nat) : Prop :=
  b < f.infinity ∧ f.point b * den ≤ num ∧ ∀ c < f.infinity, f.point c * den ≤ num → f.point c ≤ f.point b

/-- `b` encodes the least magnitude not below `num / den`, or +∞ where there is none. -/
def Format.IsCeiling (f : Format) (num den b : Nat) : Prop :=
  b ≤ f.infinity ∧ (num ≤ f.point b * den ∨ b = f.infinity) ∧
    ∀ c ≤ f.infinity, num ≤ f.point c * den → f.point b ≤ f.point c

/-- `b` encodes the magnitude nearest to `num / den`, the even one of two equally near. -/
def Format.IsNearest (f : Format) (num den b : Nat) : Prop :=
  b ≤ f.infinity ∧ ∀ c ≤ f.infinity, c ≠ b →
    f.distance num den b < f.distance num den c ∨ f.distance num den b = f.distance num den c ∧ b % 2 = 0

/-- `bits` encodes `round(v, fmt, mode)` for v of magnitude `num / den` units and this sign (00_scope.md R14). -/
def Format.IsRounding (f : Format) (mode : RoundMode) (neg : Bool) (num den bits : Nat) : Prop :=
  ∃ b, bits = f.pack neg b ∧
    match mode with
    | .nearestEven => f.IsNearest num den b
    | .towardZero => f.IsFloor num den b
    | .up => if neg then f.IsFloor num den b else f.IsCeiling num den b
    | .down => if neg then f.IsCeiling num den b else f.IsFloor num den b

/-- `bits` encodes some NaN. -/
def Format.IsNaN (f : Format) (bits : Nat) : Prop :=
  bits < 2 ^ f.width ∧ f.datum bits = .nan

/-- `bits` encodes the sum of two data, rounded to nearest-even (R291, R292). -/
def Format.IsSum (f : Format) (a b : Datum) (bits : Nat) : Prop :=
  match a, b with
  | .nan, _ | _, .nan => f.IsNaN bits
  | .inf p, .inf q => if p = q then bits = f.pack p f.infinity else f.IsNaN bits
  | .inf p, .fin _ _ => bits = f.pack p f.infinity
  | .fin _ _, .inf q => bits = f.pack q f.infinity
  | .fin p m, .fin q n =>
    if signed p m + signed q n = 0 then bits = f.pack (p && q) 0
    else f.IsRounding .nearestEven (signed p m + signed q n < 0) (signed p m + signed q n).natAbs 1 bits

/-- `bits` encodes the product of two data, rounded to nearest-even. -/
def Format.IsProduct (f : Format) (a b : Datum) (bits : Nat) : Prop :=
  match a, b with
  | .nan, _ | _, .nan => f.IsNaN bits
  | .inf p, .inf q => bits = f.pack (p ^^ q) f.infinity
  | .inf p, .fin q n => if n = 0 then f.IsNaN bits else bits = f.pack (p ^^ q) f.infinity
  | .fin p m, .inf q => if m = 0 then f.IsNaN bits else bits = f.pack (p ^^ q) f.infinity
  | .fin p m, .fin q n => f.IsRounding .nearestEven (p ^^ q) (m * n) f.unitsPerOne bits

/-- `bits` encodes the quotient of two data, rounded to nearest-even. -/
def Format.IsQuotient (f : Format) (a b : Datum) (bits : Nat) : Prop :=
  match a, b with
  | .nan, _ | _, .nan => f.IsNaN bits
  | .inf _, .inf _ => f.IsNaN bits
  | .inf p, .fin q _ => bits = f.pack (p ^^ q) f.infinity
  | .fin p _, .inf q => bits = f.pack (p ^^ q) 0
  | .fin p m, .fin q n =>
    if n = 0 then (if m = 0 then f.IsNaN bits else bits = f.pack (p ^^ q) f.infinity)
    else f.IsRounding .nearestEven (p ^^ q) (m * f.unitsPerOne) n bits

/-- `bits` encodes `a × b + c`, rounded once to nearest-even (R308). -/
def Format.IsFused (f : Format) (a b c : Datum) (bits : Nat) : Prop :=
  match a, b, c with
  | .nan, _, _ | _, .nan, _ | _, _, .nan => f.IsNaN bits
  | .fin p m, .fin q n, .fin t k =>
    if signed (p ^^ q) (m * n) + signed t (k * f.unitsPerOne) = 0 then bits = f.pack ((p ^^ q) && t) 0
    else f.IsRounding .nearestEven (signed (p ^^ q) (m * n) + signed t (k * f.unitsPerOne) < 0)
      (signed (p ^^ q) (m * n) + signed t (k * f.unitsPerOne)).natAbs f.unitsPerOne bits
  | .fin _ _, .fin _ _, .inf t => bits = f.pack t f.infinity
  | .inf p, .fin q n, c =>
    if n = 0 ∨ c = .inf !(p ^^ q) then f.IsNaN bits else bits = f.pack (p ^^ q) f.infinity
  | .fin p m, .inf q, c =>
    if m = 0 ∨ c = .inf !(p ^^ q) then f.IsNaN bits else bits = f.pack (p ^^ q) f.infinity
  | .inf p, .inf q, c => if c = .inf !(p ^^ q) then f.IsNaN bits else bits = f.pack (p ^^ q) f.infinity

/-- The datum with the other sign (R302). -/
def Datum.opposite : Datum → Datum
  | .nan => .nan
  | .inf p => .inf (!p)
  | .fin p m => .fin (!p) m

/-- `a < b` on data that are not NaN (R295). -/
def Datum.below : Datum → Datum → Prop
  | .inf p, .inf q => p = true ∧ q = false
  | .inf p, .fin _ _ => p = true
  | .fin _ _, .inf q => q = false
  | .fin p m, .fin q n => signed p m < signed q n
  | .nan, _ | _, .nan => False

/-- `a = b` on data that are not NaN: the two zeros are equal (R295). -/
def Datum.same : Datum → Datum → Prop
  | .inf p, .inf q => p = q
  | .fin p m, .fin q n => signed p m = signed q n
  | .inf _, .fin _ _ | .fin _ _, .inf _ | .nan, _ | _, .nan => False

/-- The byte of a rounding mode (30_encoding.md R79). -/
def RoundMode.byte : RoundMode → Byte
  | .nearestEven => 0#8
  | .towardZero => 1#8
  | .up => 2#8
  | .down => 3#8

/-- The whole number `k` is `v / unit` rounded in this mode (R293). -/
def RoundMode.IsWhole (mode : RoundMode) (v : Int) (unit : Nat) (k : Int) : Prop :=
  match mode with
  | .nearestEven => 2 * (v - k * unit).natAbs ≤ unit ∧ (2 * (v - k * unit).natAbs = unit → k % 2 = 0)
  | .towardZero => if 0 ≤ v then k * unit ≤ v ∧ v < (k + 1) * unit else v ≤ k * unit ∧ (k - 1) * unit < v
  | .up => v ≤ k * unit ∧ (k - 1) * unit < v
  | .down => k * unit ≤ v ∧ v < (k + 1) * unit

/-- What `FTI_INVALID` does, whichever of the two it is on this implementation (R316). -/
def ConvertsInvalid (i : Instr) (s : State) (source : FtiSource) (rd : RegNum) (operand : Word)
    (rm : Byte) : Prop :=
  if Config.ftiInvalidRaises then exec i s = .next { s with status := .faulted (.invalidOperand .conversionSource) }
  else Completes i s (s.pc + 4#64) (afterWrite s rd (Config.ftiInvalidValue source operand rm))

end Sys2Proof.Machine
end

