-- ==== Sys2Proof/Certificates/Slice0/Obligations.lean ====
section
/-! DEFINITION. The statements for the provers. A statement that names an encoding gives its bytes in the spec's own order: the opcode, then the operands (30_encoding.md R70 to R73). -/

open Sys2Proof Sys2Proof.Machine

/-- At launch the machine runs and register 0 reads 0 (10_state.md R33). The other values are the model's own choices: registers 1 to 255 read 0, the program counter is 0x1000, memory reads 0 everywhere, every address but 0 is valid for every kind of access, and the host has nothing to do (assumption log 1, 2, 3, 4, 6). -/
def Obligations.LaunchStateIsAsNamed : Prop :=
  State.reset.status = .running ∧ State.reset.reg 0#8 = 0#64 ∧
  (∀ r, State.reset.reg r = 0#64) ∧ State.reset.pc = 0x1000#64 ∧ (∀ a, State.reset.byteAt a = 0#8) ∧
  (∀ kind a, State.reset.allows kind a = true ↔ a ≠ 0#64) ∧ State.reset.host = []

/-- The machine at launch meets the invariant. -/
def Obligations.LaunchMeetsInvariant : Prop :=
  State.reset.Inv

/-- From every state that meets the invariant, whether or not a run reaches it, a step gives a state that meets it: memory stays in its canonical form, with nothing at address 0, and the element of the register file behind register 0 stays 0. -/
def Obligations.StepKeepsInvariant : Prop :=
  ∀ s t, s.Inv → step s = .next t → t.Inv

/-- Every instruction, with every value of its operands, is read back from its encoding, whatever bytes follow. -/
def Obligations.DecodeOfEncode : Prop :=
  ∀ (i : Instr) (rest : List Byte), decode (encode i ++ rest) = .ok (i, rest)

/-- The bytes an instruction is read from are its encoding: no byte has two readings and none is ignored. -/
def Obligations.EncodeOfDecode : Prop :=
  ∀ (bs rest : List Byte) (i : Instr), decode bs = .ok (i, rest) → encode i ++ rest = bs

/-- The opcode byte alone decides the length (30_encoding.md R75): instructions with the same first byte have encodings of the same length, and bytes that start as an instruction does but are fewer are refused as truncated. -/
def Obligations.OpcodeAloneDecidesLength : Prop :=
  (∀ i j : Instr, (encode i).head? = (encode j).head? → (encode i).length = (encode j).length) ∧
  ∀ (i : Instr) (op : Byte) (operands : List Byte), (encode i).head? = some op →
    operands.length + 1 < (encode i).length → decode (op :: operands) = .error (.truncated op)

/-- The opcodes 0x68, 0x69 and 0x78 to 0xFF have no instruction: the decoder refuses them, and them alone, by name, whatever follows, and a running machine that meets one raises `UnknownOpcode` with the program counter and all else as it was, its other bytes not looked at (30_encoding.md R84). It rests on the spec's own decision D38 (92_eei_decisions.md, assumption log 12). -/
def Obligations.UnassignedOpcodesAreUnknown : Prop :=
  (∀ (op : Byte) (operands : List Byte), decode (op :: operands) = .error (.unknownOpcode op) ↔ unassigned op) ∧
  ∀ s : State, s.status = .running → s.allows .fetch s.pc = true → unassigned (s.byteAt s.pc) →
    step s = .next { s with status := .faulted (.unknownOpcode (s.byteAt s.pc)) }

/-- Bytes written out from the spec's encodings are the instructions they stand for: one of every family (examples of 41_int_reg_reg.md R114, R143, R153; 42_int_reg_imm.md R173; 43_copy_li_lra.md R214, R216; 44_memory_access.md R233, R236, R238; 45_jumps_and_traps.md R263, R264, R266; 46_float.md R308, R319; 47_rel16_variants.md R342, R344). -/
def Obligations.WrittenBytesDecode : Prop :=
  decode [0x02#8] = .ok (.nop, []) ∧
  decode [0x03#8, 0x03#8, 0x01#8, 0x02#8] = .ok (.add8 3#8 1#8 2#8, []) ∧
  decode [0x20#8, 0x03#8, 0x04#8, 0x01#8, 0x02#8] = .ok (.diru8 3#8 4#8 1#8 2#8, []) ∧
  decode [0x2A#8, 0x03#8, 0x01#8] = .ok (.sxt8 3#8 1#8, []) ∧
  decode [0x2E#8, 0x03#8, 0x01#8, 0xFA#8, 0xFF#8] = .ok (.addi16 3#8 1#8 0xFFFA#16, []) ∧
  decode [0x4A#8, 0x03#8, 0x01#8, 0x00#8, 0x00#8, 0x80#8] = .ok (.li32 3#8 0x80000001#32, []) ∧
  decode [0x4C#8, 0x03#8, 0x01#8, 0xF0#8, 0xFF#8, 0xFF#8, 0xFF#8] = .ok (.lra 3#8 1#8 (-16#32), []) ∧
  decode [0x4D#8, 0x01#8, 0x00#8, 0x00#8, 0x20#8, 0x00#8, 0x00#8, 0x00#8, 0x00#8, 0x00#8, 0x00#8, 0x10#8, 0x00#8] =
    .ok (.ld 1#8 0#8 0x2000#64 16#16, []) ∧
  decode [0x50#8, 0x01#8, 0x02#8, 0x00#8, 0x01#8, 0x00#8, 0x00#8, 0x04#8, 0x00#8] = .ok (.str 1#8 2#8 256#32 4#16, []) ∧
  decode [0x52#8, 0x01#8, 0x03#8, 0x03#8] = .ok (.brc 1#8 3#8 3#8, []) ∧
  decode [0x54#8, 0x1F#8, 0x00#8, 0x00#8, 0x01#8, 0x00#8, 0x00#8] = .ok (.jal 31#8 0#8 256#32, []) ∧
  decode [0x55#8, 0x1F#8, 0x04#8, 0x20#8, 0x00#8, 0x00#8, 0x00#8, 0x00#8, 0x00#8, 0x00#8, 0x00#8] =
    .ok (.jala 31#8 4#8 32#64, []) ∧
  decode [0x56#8, 0x01#8, 0x02#8, 0xFD#8, 0xFF#8] = .ok (.jeq 1#8 2#8 (-3#16), []) ∧
  decode [0x66#8, 0x04#8, 0x01#8, 0x02#8, 0x03#8] = .ok (.fma32 4#8 1#8 2#8 3#8, []) ∧
  decode [0x73#8, 0x03#8, 0x01#8, 0xFF#8] = .ok (.fc64t32 3#8 1#8 255#8, []) ∧
  decode [0x75#8, 0x01#8, 0x00#8, 0x04#8, 0x00#8, 0x08#8, 0x00#8] = .ok (.ldr16 1#8 0#8 4#16 8#16, []) ∧
  decode [0x77#8, 0x10#8, 0x00#8] = .ok (.jmp16 16#16, [])

/-- When the machine runs, the bytes at the program counter decode to an instruction and may all be fetched, the step is that instruction's meaning in that state and nothing else. -/
def Obligations.StepRunsTheDecodedInstruction : Prop :=
  ∀ (s : State) (i : Instr), s.status = .running → s.AllowsAll .fetch s.pc (encode i).length →
    decode (Memory.readBytes s.mem s.pc (encode i).length) = .ok (i, []) → step s = exec i s

/-- The fetch (20_memory.md R48): an opcode byte that may not be fetched raises `MemoryAccessFault` at the program counter; an opcode without an instruction raises `UnknownOpcode`; an operand byte that may not be fetched raises `MemoryAccessFault` at one such byte; otherwise the instruction executes. Where it raises, the status changes and no other state that the spec gives the machine. The model's own choice (assumption log 10): a `MemoryAccessFault` also moves `draws`, the model's counter of free choices, on by one. It rests on the spec's own decision D22 (92_eei_decisions.md, assumption log 12). -/
def Obligations.FetchFollowsItsOrder : Prop :=
  ∀ s : State, s.status = .running →
    (s.allows .fetch s.pc = false →
      step s = .next { s with status := .faulted (.memoryAccessFault .fetch s.pc), draws := s.draws + 1 }) ∧
    (s.allows .fetch s.pc = true → unassigned (s.byteAt s.pc) →
      step s = .next { s with status := .faulted (.unknownOpcode (s.byteAt s.pc)) }) ∧
    (∀ i : Instr, s.allows .fetch s.pc = true → (encode i).head? = some (s.byteAt s.pc) →
      ¬ s.AllowsAll .fetch (s.pc + 1#64) ((encode i).length - 1) →
      ∃ a, s.Failing .fetch (s.pc + 1#64) ((encode i).length - 1) a ∧
        step s = .next { s with status := .faulted (.memoryAccessFault .fetch a), draws := s.draws + 1 }) ∧
    (∀ i : Instr, s.AllowsAll .fetch s.pc (encode i).length →
      (∀ (k : Nat) (hk : k < (encode i).length), s.byteAt (s.pc + BitVec.ofNat 64 k) = (encode i)[k]) →
      step s = exec i s)

/-- No state is stuck: every step answers a next state. For a running machine the spec says it (93_implementation_defined.md U14; 70_reset_and_hazards.md R405); that taking a trap, an exception or `TX` is a next state, and that the decoder's refusal is never reached, is deduced from it (assumption log 5 and 14). The model's own choice (assumption log 7): a halted machine, and a stopped one whose host has no act left, step too, to the same state, where the spec only says that the machine stops. A stopped machine whose host has an act left steps by that act (assumption log 6). -/
def Obligations.EveryStepHasANextState : Prop :=
  ∀ s : State, ∃ t, step s = .next t

/-- While the machine runs, a step changes neither `MemMap` nor anything of the host's (20_memory.md R43, R55). It rests on the spec's own decisions D17 and D20 (92_eei_decisions.md, assumption log 12). -/
def Obligations.RunningStepKeepsMapAndHost : Prop :=
  ∀ s t : State, s.status = .running → step s = .next t → t.memMap = s.memMap ∧ t.host = s.host

/-- An instruction changes no byte of memory outside the bytes it stores to, which start where `destination` says and which only `ST`, `STR`, `STR16` and `BMC` have (20_memory.md R41). -/
def Obligations.OnlyStoresWriteMemory : Prop :=
  ∀ (i : Instr) (s t : State) (a : Word), exec i s = .next t →
    (∀ dst n, destination i s = some (dst, n) → ∀ k < n, a ≠ dst + BitVec.ofNat 64 k) → t.byteAt a = s.byteAt a

/-- An instruction changes no register but those it names as destinations, and never register 0, which reads 0 before and after (10_state.md R22, R34). -/
def Obligations.OnlyNamedRegistersAreWritten : Prop :=
  ∀ (i : Instr) (s t : State) (r : RegNum), exec i s = .next t →
    t.reg 0#8 = 0#64 ∧ (mayWrite i r = false → t.reg r = s.reg r)

/-- An instruction that is no jump and raises no exception leaves the program counter at the byte after it, modulo 2^64, whether the machine then runs on, has trapped or has halted; one that raises leaves it where it was (10_state.md R26). It rests on the spec's own decisions D15 and D16 (92_eei_decisions.md, assumption log 12). -/
def Obligations.ProgramCounterMovesByLength : Prop :=
  ∀ (i : Instr) (s t : State), s.status = .running → exec i s = .next t →
    ((∃ e, t.status = .faulted e) → t.pc = s.pc) ∧
    ((∀ e, t.status ≠ .faulted e) → isJump i = false → t.pc.toNat = (s.pc.toNat + (encode i).length) % 2 ^ 64)

/-- An instruction that raises an exception leaves the program counter on itself, every register, `MemMap` and the host's acts as they were, and every byte of memory outside the bytes it stores to; and all of memory where the exception is no memory access fault (60_exceptions.md R366, R368). It rests on the spec's own decisions D24 and D25 (92_eei_decisions.md, assumption log 12). -/
def Obligations.ExceptionLeavesTheRest : Prop :=
  ∀ (i : Instr) (s t : State) (e : Exn), s.status = .running → exec i s = .next t → t.status = .faulted e →
    t.pc = s.pc ∧ (∀ r, t.reg r = s.reg r) ∧ t.memMap = s.memMap ∧ t.host = s.host ∧
    (∀ a, (∀ dst n, destination i s = some (dst, n) → ∀ k < n, a ≠ dst + BitVec.ofNat 64 k) → t.byteAt a = s.byteAt a) ∧
    ((∀ kind a, e ≠ .memoryAccessFault kind a) → ∀ a, t.byteAt a = s.byteAt a)

/-- `UN` raises `Unreachable` with the program counter on itself, `TX` moves it past itself and halts, `NOP` moves it past itself; nothing else changes (40_exec_control.md R100 to R102). It rests on the spec's own decisions D11 and D15 (92_eei_decisions.md, assumption log 12). -/
def Obligations.UnreachableHaltAndNop : Prop :=
  encode .un = [0x00#8] ∧ encode .tx = [0x01#8] ∧ encode .nop = [0x02#8] ∧
  ∀ s : State,
    exec .un s = .next { s with status := .faulted .unreachable } ∧
    exec .tx s = .next { s with pc := s.pc + 1#64, status := .halted } ∧
    exec .nop s = .next { s with pc := s.pc + 1#64 }

/-- `ECA` and `EBP` set the program counter to the following instruction and the status to the trap, and change nothing else (45_jumps_and_traps.md R272, R273; 60_exceptions.md R365). -/
def Obligations.TrapsGoToTheHost : Prop :=
  encode .eca = [0x5C#8] ∧ encode .ebp = [0x5D#8] ∧
  ∀ s : State,
    exec .eca s = .next { s with pc := s.pc + 1#64, status := .trapped .environmentCall } ∧
    exec .ebp s = .next { s with pc := s.pc + 1#64, status := .trapped .breakpoint }

/-- A machine stopped by a trap or an exception executes nothing: the host does its next act, a write of one register (not of register 0), of the program counter, of one byte of memory, of `MemMap`, or the return to running, after which the instruction at the program counter is next (60_exceptions.md R369). That the acts stand in a list, one for each step, and that a write to address 0 does nothing, is the model's form of the OPEN parameter `Host` (assumption log 6). It rests on the spec's own decisions D25 and D26 (92_eei_decisions.md, assumption log 12). -/
def Obligations.HostActsOnAStoppedMachine : Prop :=
  ∀ (s : State) (act : HostAct) (rest : List HostAct), s.host = act :: rest →
    (∃ t, s.status = .trapped t) ∨ (∃ e, s.status = .faulted e) →
    ∃ t, step s = .next t ∧ t.host = rest ∧ t.draws = s.draws ∧
      (t.status = if act = .resume then .running else s.status) ∧
      (t.pc = match act with | .setPc a => a | _ => s.pc) ∧
      (∀ r, t.reg r = match act with | .setReg q v => afterWrite s q v r | _ => s.reg r) ∧
      (∀ a, a ≠ 0#64 → t.byteAt a = match act with | .setByte b v => if a = b then v else s.byteAt a | _ => s.byteAt a) ∧
      (t.memMap = match act with | .setMemMap m => m | _ => s.memMap)

/-- A halted machine stays as it is, whatever the host has (70_reset_and_hazards.md R404). The model's own choice (assumption log 7): so does a machine that a trap or an exception has stopped and whose host has no act left, and such a stay is a step to the same state. It rests on the spec's own decisions D15 and D25 (92_eei_decisions.md, assumption log 12). -/
def Obligations.StoppedMachineStays : Prop :=
  ∀ s : State, s.status = .halted ∨ (s.status ≠ .running ∧ s.host = []) → step s = .next s

/-- `ADD8` to `ADD64` (41_int_reg_reg.md R114 to R117): the sum of the low N bits, modulo 2^N, zero-extended. It rests on the spec's own decision D2 (92_eei_decisions.md, assumption log 12). -/
def Obligations.AddsWrap : Prop :=
  ∀ (s : State) (rd ra rb : RegNum),
    encode (.add8 rd ra rb) = [0x03#8, rd, ra, rb] ∧
    Completes (.add8 rd ra rb) s (s.pc + 4#64) (afterWrite s rd (BitVec.ofNat 64 ((low 8 (s.reg ra) + low 8 (s.reg rb)) % 2 ^ 8))) ∧
    encode (.add16 rd ra rb) = [0x04#8, rd, ra, rb] ∧
    Completes (.add16 rd ra rb) s (s.pc + 4#64) (afterWrite s rd (BitVec.ofNat 64 ((low 16 (s.reg ra) + low 16 (s.reg rb)) % 2 ^ 16))) ∧
    encode (.add32 rd ra rb) = [0x05#8, rd, ra, rb] ∧
    Completes (.add32 rd ra rb) s (s.pc + 4#64) (afterWrite s rd (BitVec.ofNat 64 ((low 32 (s.reg ra) + low 32 (s.reg rb)) % 2 ^ 32))) ∧
    encode (.add64 rd ra rb) = [0x06#8, rd, ra, rb] ∧
    Completes (.add64 rd ra rb) s (s.pc + 4#64) (afterWrite s rd (BitVec.ofNat 64 ((low 64 (s.reg ra) + low 64 (s.reg rb)) % 2 ^ 64)))

/-- `SUB8` to `SUB64` (R118 to R121): the difference of the low N bits, modulo 2^N, zero-extended. It rests on the spec's own decision D2 (92_eei_decisions.md, assumption log 12). -/
def Obligations.SubtractionsWrap : Prop :=
  ∀ (s : State) (rd ra rb : RegNum),
    encode (.sub8 rd ra rb) = [0x07#8, rd, ra, rb] ∧
    Completes (.sub8 rd ra rb) s (s.pc + 4#64) (afterWrite s rd (BitVec.ofInt 64 (((low 8 (s.reg ra) : Int) - low 8 (s.reg rb)) % 2 ^ 8))) ∧
    encode (.sub16 rd ra rb) = [0x08#8, rd, ra, rb] ∧
    Completes (.sub16 rd ra rb) s (s.pc + 4#64) (afterWrite s rd (BitVec.ofInt 64 (((low 16 (s.reg ra) : Int) - low 16 (s.reg rb)) % 2 ^ 16))) ∧
    encode (.sub32 rd ra rb) = [0x09#8, rd, ra, rb] ∧
    Completes (.sub32 rd ra rb) s (s.pc + 4#64) (afterWrite s rd (BitVec.ofInt 64 (((low 32 (s.reg ra) : Int) - low 32 (s.reg rb)) % 2 ^ 32))) ∧
    encode (.sub64 rd ra rb) = [0x0A#8, rd, ra, rb] ∧
    Completes (.sub64 rd ra rb) s (s.pc + 4#64) (afterWrite s rd (BitVec.ofInt 64 (((low 64 (s.reg ra) : Int) - low 64 (s.reg rb)) % 2 ^ 64)))

/-- `MUL8` to `MUL64` (R122 to R125): the low N bits of the product of the low N bits, zero-extended. It rests on the spec's own decision D2 (92_eei_decisions.md, assumption log 12). -/
def Obligations.ProductsWrap : Prop :=
  ∀ (s : State) (rd ra rb : RegNum),
    encode (.mul8 rd ra rb) = [0x0B#8, rd, ra, rb] ∧
    Completes (.mul8 rd ra rb) s (s.pc + 4#64) (afterWrite s rd (BitVec.ofNat 64 (low 8 (s.reg ra) * low 8 (s.reg rb) % 2 ^ 8))) ∧
    encode (.mul16 rd ra rb) = [0x0C#8, rd, ra, rb] ∧
    Completes (.mul16 rd ra rb) s (s.pc + 4#64) (afterWrite s rd (BitVec.ofNat 64 (low 16 (s.reg ra) * low 16 (s.reg rb) % 2 ^ 16))) ∧
    encode (.mul32 rd ra rb) = [0x0D#8, rd, ra, rb] ∧
    Completes (.mul32 rd ra rb) s (s.pc + 4#64) (afterWrite s rd (BitVec.ofNat 64 (low 32 (s.reg ra) * low 32 (s.reg rb) % 2 ^ 32))) ∧
    encode (.mul64 rd ra rb) = [0x0E#8, rd, ra, rb] ∧
    Completes (.mul64 rd ra rb) s (s.pc + 4#64) (afterWrite s rd (BitVec.ofNat 64 (low 64 (s.reg ra) * low 64 (s.reg rb) % 2 ^ 64)))

/-- `AND`, `OR`, `XOR` (41_int_reg_reg.md R126 to R128), bit by bit on all 64 bits. -/
def Obligations.BitwiseOperations : Prop :=
  ∀ (s : State) (rd ra rb : RegNum),
    encode (.and rd ra rb) = [0x0F#8, rd, ra, rb] ∧ encode (.or rd ra rb) = [0x10#8, rd, ra, rb] ∧
    encode (.xor rd ra rb) = [0x11#8, rd, ra, rb] ∧
    (∃ v, Completes (.and rd ra rb) s (s.pc + 4#64) (afterWrite s rd v) ∧
      ∀ k < 64, v.getLsbD k = ((s.reg ra).getLsbD k && (s.reg rb).getLsbD k)) ∧
    (∃ v, Completes (.or rd ra rb) s (s.pc + 4#64) (afterWrite s rd v) ∧
      ∀ k < 64, v.getLsbD k = ((s.reg ra).getLsbD k || (s.reg rb).getLsbD k)) ∧
    (∃ v, Completes (.xor rd ra rb) s (s.pc + 4#64) (afterWrite s rd v) ∧
      ∀ k < 64, v.getLsbD k = ((s.reg ra).getLsbD k ^^ (s.reg rb).getLsbD k))

/-- `SLU8` to `SLU64` and `SRU8` to `SRU64` (41_int_reg_reg.md R129 to R136): the amount is the register modulo the width; left is a product with the power of two modulo 2^N, right a quotient rounded down. It rests on the spec's own decisions D2 and D3 (92_eei_decisions.md, assumption log 12). -/
def Obligations.LogicalShiftsByRegister : Prop :=
  ∀ (s : State) (rd ra rb : RegNum),
    encode (.slu8 rd ra rb) = [0x12#8, rd, ra, rb] ∧
    Completes (.slu8 rd ra rb) s (s.pc + 4#64) (afterWrite s rd (BitVec.ofNat 64 (low 8 (s.reg ra) * 2 ^ ((s.reg rb).toNat % 8) % 2 ^ 8))) ∧
    encode (.slu16 rd ra rb) = [0x13#8, rd, ra, rb] ∧
    Completes (.slu16 rd ra rb) s (s.pc + 4#64) (afterWrite s rd (BitVec.ofNat 64 (low 16 (s.reg ra) * 2 ^ ((s.reg rb).toNat % 16) % 2 ^ 16))) ∧
    encode (.slu32 rd ra rb) = [0x14#8, rd, ra, rb] ∧
    Completes (.slu32 rd ra rb) s (s.pc + 4#64) (afterWrite s rd (BitVec.ofNat 64 (low 32 (s.reg ra) * 2 ^ ((s.reg rb).toNat % 32) % 2 ^ 32))) ∧
    encode (.slu64 rd ra rb) = [0x15#8, rd, ra, rb] ∧
    Completes (.slu64 rd ra rb) s (s.pc + 4#64) (afterWrite s rd (BitVec.ofNat 64 (low 64 (s.reg ra) * 2 ^ ((s.reg rb).toNat % 64) % 2 ^ 64))) ∧
    encode (.sru8 rd ra rb) = [0x16#8, rd, ra, rb] ∧
    Completes (.sru8 rd ra rb) s (s.pc + 4#64) (afterWrite s rd (BitVec.ofNat 64 (low 8 (s.reg ra) / 2 ^ ((s.reg rb).toNat % 8)))) ∧
    encode (.sru16 rd ra rb) = [0x17#8, rd, ra, rb] ∧
    Completes (.sru16 rd ra rb) s (s.pc + 4#64) (afterWrite s rd (BitVec.ofNat 64 (low 16 (s.reg ra) / 2 ^ ((s.reg rb).toNat % 16)))) ∧
    encode (.sru32 rd ra rb) = [0x18#8, rd, ra, rb] ∧
    Completes (.sru32 rd ra rb) s (s.pc + 4#64) (afterWrite s rd (BitVec.ofNat 64 (low 32 (s.reg ra) / 2 ^ ((s.reg rb).toNat % 32)))) ∧
    encode (.sru64 rd ra rb) = [0x19#8, rd, ra, rb] ∧
    Completes (.sru64 rd ra rb) s (s.pc + 4#64) (afterWrite s rd (BitVec.ofNat 64 (low 64 (s.reg ra) / 2 ^ ((s.reg rb).toNat % 64))))

/-- `SRS8` to `SRS64` (R137 to R140): the signed reading divided by the power of two, rounded down, its low N bits zero-extended. It rests on the spec's own decisions D2 and D3 (92_eei_decisions.md, assumption log 12). -/
def Obligations.ArithmeticShiftsByRegister : Prop :=
  ∀ (s : State) (rd ra rb : RegNum),
    encode (.srs8 rd ra rb) = [0x1A#8, rd, ra, rb] ∧
    Completes (.srs8 rd ra rb) s (s.pc + 4#64) (afterWrite s rd (BitVec.ofInt 64 (signedReading 8 (low 8 (s.reg ra)) / 2 ^ ((s.reg rb).toNat % 8) % 2 ^ 8))) ∧
    encode (.srs16 rd ra rb) = [0x1B#8, rd, ra, rb] ∧
    Completes (.srs16 rd ra rb) s (s.pc + 4#64) (afterWrite s rd (BitVec.ofInt 64 (signedReading 16 (low 16 (s.reg ra)) / 2 ^ ((s.reg rb).toNat % 16) % 2 ^ 16))) ∧
    encode (.srs32 rd ra rb) = [0x1C#8, rd, ra, rb] ∧
    Completes (.srs32 rd ra rb) s (s.pc + 4#64) (afterWrite s rd (BitVec.ofInt 64 (signedReading 32 (low 32 (s.reg ra)) / 2 ^ ((s.reg rb).toNat % 32) % 2 ^ 32))) ∧
    encode (.srs64 rd ra rb) = [0x1D#8, rd, ra, rb] ∧
    Completes (.srs64 rd ra rb) s (s.pc + 4#64) (afterWrite s rd (BitVec.ofInt 64 (signedReading 64 (low 64 (s.reg ra)) / 2 ^ ((s.reg rb).toNat % 64) % 2 ^ 64)))

/-- `DIRU8` to `DIRU64` (R143 to R146): quotient and remainder of the low N bits, zero-extended, the remainder written last; a zero divisor gives 64 ones and the dividend and raises nothing. It rests on the spec's own decisions D2, D5 and D6 (92_eei_decisions.md, assumption log 12). -/
def Obligations.UnsignedDivisionGivesBoth : Prop :=
  ∀ (s : State) (rq rr ra rb : RegNum),
    encode (.diru8 rq rr ra rb) = [0x20#8, rq, rr, ra, rb] ∧
    Completes (.diru8 rq rr ra rb) s (s.pc + 5#64)
      (if low 8 (s.reg rb) = 0 then
        afterWriteTwo s rq 0xFFFFFFFFFFFFFFFF#64 rr (BitVec.ofNat 64 (low 8 (s.reg ra)))
      else afterWriteTwo s rq (BitVec.ofNat 64 (low 8 (s.reg ra) / low 8 (s.reg rb)))
        rr (BitVec.ofNat 64 (low 8 (s.reg ra) - low 8 (s.reg ra) / low 8 (s.reg rb) * low 8 (s.reg rb)))) ∧
    encode (.diru16 rq rr ra rb) = [0x21#8, rq, rr, ra, rb] ∧
    Completes (.diru16 rq rr ra rb) s (s.pc + 5#64)
      (if low 16 (s.reg rb) = 0 then
        afterWriteTwo s rq 0xFFFFFFFFFFFFFFFF#64 rr (BitVec.ofNat 64 (low 16 (s.reg ra)))
      else afterWriteTwo s rq (BitVec.ofNat 64 (low 16 (s.reg ra) / low 16 (s.reg rb)))
        rr (BitVec.ofNat 64 (low 16 (s.reg ra) - low 16 (s.reg ra) / low 16 (s.reg rb) * low 16 (s.reg rb)))) ∧
    encode (.diru32 rq rr ra rb) = [0x22#8, rq, rr, ra, rb] ∧
    Completes (.diru32 rq rr ra rb) s (s.pc + 5#64)
      (if low 32 (s.reg rb) = 0 then
        afterWriteTwo s rq 0xFFFFFFFFFFFFFFFF#64 rr (BitVec.ofNat 64 (low 32 (s.reg ra)))
      else afterWriteTwo s rq (BitVec.ofNat 64 (low 32 (s.reg ra) / low 32 (s.reg rb)))
        rr (BitVec.ofNat 64 (low 32 (s.reg ra) - low 32 (s.reg ra) / low 32 (s.reg rb) * low 32 (s.reg rb)))) ∧
    encode (.diru64 rq rr ra rb) = [0x23#8, rq, rr, ra, rb] ∧
    Completes (.diru64 rq rr ra rb) s (s.pc + 5#64)
      (if low 64 (s.reg rb) = 0 then
        afterWriteTwo s rq 0xFFFFFFFFFFFFFFFF#64 rr (BitVec.ofNat 64 (low 64 (s.reg ra)))
      else afterWriteTwo s rq (BitVec.ofNat 64 (low 64 (s.reg ra) / low 64 (s.reg rb)))
        rr (BitVec.ofNat 64 (low 64 (s.reg ra) - low 64 (s.reg ra) / low 64 (s.reg rb) * low 64 (s.reg rb))))

/-- `DIRS8` to `DIRS64` (R147 to R150): of the signed readings A and B the quotient Q rounds toward zero and the remainder is A - Q·B, both modulo 2^N and zero-extended, the remainder written last; a zero divisor gives 64 ones and the N-bit dividend zero-extended and raises nothing. It rests on the spec's own decisions D2, D4, D5 and D6 (92_eei_decisions.md, assumption log 12). -/
def Obligations.SignedDivisionGivesBoth : Prop :=
  ∀ (s : State) (rq rr ra rb : RegNum),
    encode (.dirs8 rq rr ra rb) = [0x24#8, rq, rr, ra, rb] ∧
    (low 8 (s.reg rb) = 0 → Completes (.dirs8 rq rr ra rb) s (s.pc + 5#64)
      (afterWriteTwo s rq 0xFFFFFFFFFFFFFFFF#64 rr (BitVec.ofNat 64 (low 8 (s.reg ra))))) ∧
    (low 8 (s.reg rb) ≠ 0 → ∀ A B Q : Int, A = signedReading 8 (low 8 (s.reg ra)) →
      B = signedReading 8 (low 8 (s.reg rb)) → Q = A.tdiv B →
      Completes (.dirs8 rq rr ra rb) s (s.pc + 5#64)
        (afterWriteTwo s rq (BitVec.ofInt 64 (Q % 2 ^ 8)) rr (BitVec.ofInt 64 ((A - Q * B) % 2 ^ 8)))) ∧
    encode (.dirs16 rq rr ra rb) = [0x25#8, rq, rr, ra, rb] ∧
    (low 16 (s.reg rb) = 0 → Completes (.dirs16 rq rr ra rb) s (s.pc + 5#64)
      (afterWriteTwo s rq 0xFFFFFFFFFFFFFFFF#64 rr (BitVec.ofNat 64 (low 16 (s.reg ra))))) ∧
    (low 16 (s.reg rb) ≠ 0 → ∀ A B Q : Int, A = signedReading 16 (low 16 (s.reg ra)) →
      B = signedReading 16 (low 16 (s.reg rb)) → Q = A.tdiv B →
      Completes (.dirs16 rq rr ra rb) s (s.pc + 5#64)
        (afterWriteTwo s rq (BitVec.ofInt 64 (Q % 2 ^ 16)) rr (BitVec.ofInt 64 ((A - Q * B) % 2 ^ 16)))) ∧
    encode (.dirs32 rq rr ra rb) = [0x26#8, rq, rr, ra, rb] ∧
    (low 32 (s.reg rb) = 0 → Completes (.dirs32 rq rr ra rb) s (s.pc + 5#64)
      (afterWriteTwo s rq 0xFFFFFFFFFFFFFFFF#64 rr (BitVec.ofNat 64 (low 32 (s.reg ra))))) ∧
    (low 32 (s.reg rb) ≠ 0 → ∀ A B Q : Int, A = signedReading 32 (low 32 (s.reg ra)) →
      B = signedReading 32 (low 32 (s.reg rb)) → Q = A.tdiv B →
      Completes (.dirs32 rq rr ra rb) s (s.pc + 5#64)
        (afterWriteTwo s rq (BitVec.ofInt 64 (Q % 2 ^ 32)) rr (BitVec.ofInt 64 ((A - Q * B) % 2 ^ 32)))) ∧
    encode (.dirs64 rq rr ra rb) = [0x27#8, rq, rr, ra, rb] ∧
    (low 64 (s.reg rb) = 0 → Completes (.dirs64 rq rr ra rb) s (s.pc + 5#64)
      (afterWriteTwo s rq 0xFFFFFFFFFFFFFFFF#64 rr (BitVec.ofNat 64 (low 64 (s.reg ra))))) ∧
    (low 64 (s.reg rb) ≠ 0 → ∀ A B Q : Int, A = signedReading 64 (low 64 (s.reg ra)) →
      B = signedReading 64 (low 64 (s.reg rb)) → Q = A.tdiv B →
      Completes (.dirs64 rq rr ra rb) s (s.pc + 5#64)
        (afterWriteTwo s rq (BitVec.ofInt 64 (Q % 2 ^ 64)) rr (BitVec.ofInt 64 ((A - Q * B) % 2 ^ 64))))

/-- `NEG` inverts every bit, `NOT` gives 1 for 0 and 0 for anything else, `SXT8`, `SXT16`, `SXT32` give the signed reading of the low bits as 64 bits (41_int_reg_reg.md R151 to R155). It rests on the spec's own decision D7 (92_eei_decisions.md, assumption log 12). -/
def Obligations.UnaryOperations : Prop :=
  ∀ (s : State) (rd ra : RegNum),
    encode (.neg rd ra) = [0x28#8, rd, ra] ∧ encode (.not rd ra) = [0x29#8, rd, ra] ∧
    (∃ v, Completes (.neg rd ra) s (s.pc + 3#64) (afterWrite s rd v) ∧ ∀ k < 64, v.getLsbD k = !(s.reg ra).getLsbD k) ∧
    Completes (.not rd ra) s (s.pc + 3#64) (afterWrite s rd (if s.reg ra = 0#64 then 1#64 else 0#64)) ∧
    encode (.sxt8 rd ra) = [0x2A#8, rd, ra] ∧
    Completes (.sxt8 rd ra) s (s.pc + 3#64) (afterWrite s rd (BitVec.ofInt 64 (signedReading 8 (low 8 (s.reg ra))))) ∧
    encode (.sxt16 rd ra) = [0x2B#8, rd, ra] ∧
    Completes (.sxt16 rd ra) s (s.pc + 3#64) (afterWrite s rd (BitVec.ofInt 64 (signedReading 16 (low 16 (s.reg ra))))) ∧
    encode (.sxt32 rd ra) = [0x2C#8, rd, ra] ∧
    Completes (.sxt32 rd ra) s (s.pc + 3#64) (afterWrite s rd (BitVec.ofInt 64 (signedReading 32 (low 32 (s.reg ra)))))

/-- `ADDI8` to `ADDI64` and `MULI8` to `MULI64` (42_int_reg_imm.md R172 to R179): the low N bits with the immediate of that width, modulo 2^N, zero-extended. It rests on the spec's own decision D2 (92_eei_decisions.md, assumption log 12). -/
def Obligations.ImmediateSumsAndProductsWrap : Prop :=
  ∀ (s : State) (rd ra : RegNum) (i8 : BitVec 8) (i16 : BitVec 16) (i32 : BitVec 32) (i64 : BitVec 64),
    encode (.addi8 rd ra i8) = [0x2D#8, rd, ra] ++ bytesLE 1 i8 ∧
    Completes (.addi8 rd ra i8) s (s.pc + 4#64)
      (afterWrite s rd (BitVec.ofNat 64 ((low 8 (s.reg ra) + i8.toNat) % 2 ^ 8))) ∧
    encode (.addi16 rd ra i16) = [0x2E#8, rd, ra] ++ bytesLE 2 i16 ∧
    Completes (.addi16 rd ra i16) s (s.pc + 5#64)
      (afterWrite s rd (BitVec.ofNat 64 ((low 16 (s.reg ra) + i16.toNat) % 2 ^ 16))) ∧
    encode (.addi32 rd ra i32) = [0x2F#8, rd, ra] ++ bytesLE 4 i32 ∧
    Completes (.addi32 rd ra i32) s (s.pc + 7#64)
      (afterWrite s rd (BitVec.ofNat 64 ((low 32 (s.reg ra) + i32.toNat) % 2 ^ 32))) ∧
    encode (.addi64 rd ra i64) = [0x30#8, rd, ra] ++ bytesLE 8 i64 ∧
    Completes (.addi64 rd ra i64) s (s.pc + 11#64)
      (afterWrite s rd (BitVec.ofNat 64 ((low 64 (s.reg ra) + i64.toNat) % 2 ^ 64))) ∧
    encode (.muli8 rd ra i8) = [0x31#8, rd, ra] ++ bytesLE 1 i8 ∧
    Completes (.muli8 rd ra i8) s (s.pc + 4#64)
      (afterWrite s rd (BitVec.ofNat 64 ((low 8 (s.reg ra) * i8.toNat) % 2 ^ 8))) ∧
    encode (.muli16 rd ra i16) = [0x32#8, rd, ra] ++ bytesLE 2 i16 ∧
    Completes (.muli16 rd ra i16) s (s.pc + 5#64)
      (afterWrite s rd (BitVec.ofNat 64 ((low 16 (s.reg ra) * i16.toNat) % 2 ^ 16))) ∧
    encode (.muli32 rd ra i32) = [0x33#8, rd, ra] ++ bytesLE 4 i32 ∧
    Completes (.muli32 rd ra i32) s (s.pc + 7#64)
      (afterWrite s rd (BitVec.ofNat 64 ((low 32 (s.reg ra) * i32.toNat) % 2 ^ 32))) ∧
    encode (.muli64 rd ra i64) = [0x34#8, rd, ra] ++ bytesLE 8 i64 ∧
    Completes (.muli64 rd ra i64) s (s.pc + 11#64)
      (afterWrite s rd (BitVec.ofNat 64 ((low 64 (s.reg ra) * i64.toNat) % 2 ^ 64)))

/-- `ANDI`, `ORI`, `XORI` (42_int_reg_imm.md R180 to R182), bit by bit on all 64 bits. -/
def Obligations.ImmediateBitwiseOperations : Prop :=
  ∀ (s : State) (rd ra : RegNum) (imm : Word),
    encode (.andi rd ra imm) = [0x35#8, rd, ra] ++ bytesLE 8 imm ∧
    encode (.ori rd ra imm) = [0x36#8, rd, ra] ++ bytesLE 8 imm ∧
    encode (.xori rd ra imm) = [0x37#8, rd, ra] ++ bytesLE 8 imm ∧
    (∃ v, Completes (.andi rd ra imm) s (s.pc + 11#64) (afterWrite s rd v) ∧
      ∀ k < 64, v.getLsbD k = ((s.reg ra).getLsbD k && imm.getLsbD k)) ∧
    (∃ v, Completes (.ori rd ra imm) s (s.pc + 11#64) (afterWrite s rd v) ∧
      ∀ k < 64, v.getLsbD k = ((s.reg ra).getLsbD k || imm.getLsbD k)) ∧
    (∃ v, Completes (.xori rd ra imm) s (s.pc + 11#64) (afterWrite s rd v) ∧
      ∀ k < 64, v.getLsbD k = ((s.reg ra).getLsbD k ^^ imm.getLsbD k))

/-- `SLUI8` to `SRSI64` (42_int_reg_imm.md R183 to R194): as the shifts by a register, the amount being the immediate byte modulo the width. It rests on the spec's own decisions D2 and D3 (92_eei_decisions.md, assumption log 12). -/
def Obligations.ImmediateShifts : Prop :=
  ∀ (s : State) (rd ra : RegNum) (sh8 : Byte),
    encode (.slui8 rd ra sh8) = [0x38#8, rd, ra, sh8] ∧
    Completes (.slui8 rd ra sh8) s (s.pc + 4#64) (afterWrite s rd
      (BitVec.ofNat 64 (low 8 (s.reg ra) * 2 ^ (sh8.toNat % 8) % 2 ^ 8))) ∧
    encode (.slui16 rd ra sh8) = [0x39#8, rd, ra, sh8] ∧
    Completes (.slui16 rd ra sh8) s (s.pc + 4#64) (afterWrite s rd
      (BitVec.ofNat 64 (low 16 (s.reg ra) * 2 ^ (sh8.toNat % 16) % 2 ^ 16))) ∧
    encode (.slui32 rd ra sh8) = [0x3A#8, rd, ra, sh8] ∧
    Completes (.slui32 rd ra sh8) s (s.pc + 4#64) (afterWrite s rd
      (BitVec.ofNat 64 (low 32 (s.reg ra) * 2 ^ (sh8.toNat % 32) % 2 ^ 32))) ∧
    encode (.slui64 rd ra sh8) = [0x3B#8, rd, ra, sh8] ∧
    Completes (.slui64 rd ra sh8) s (s.pc + 4#64) (afterWrite s rd
      (BitVec.ofNat 64 (low 64 (s.reg ra) * 2 ^ (sh8.toNat % 64) % 2 ^ 64))) ∧
    encode (.srui8 rd ra sh8) = [0x3C#8, rd, ra, sh8] ∧
    Completes (.srui8 rd ra sh8) s (s.pc + 4#64) (afterWrite s rd
      (BitVec.ofNat 64 (low 8 (s.reg ra) / 2 ^ (sh8.toNat % 8)))) ∧
    encode (.srui16 rd ra sh8) = [0x3D#8, rd, ra, sh8] ∧
    Completes (.srui16 rd ra sh8) s (s.pc + 4#64) (afterWrite s rd
      (BitVec.ofNat 64 (low 16 (s.reg ra) / 2 ^ (sh8.toNat % 16)))) ∧
    encode (.srui32 rd ra sh8) = [0x3E#8, rd, ra, sh8] ∧
    Completes (.srui32 rd ra sh8) s (s.pc + 4#64) (afterWrite s rd
      (BitVec.ofNat 64 (low 32 (s.reg ra) / 2 ^ (sh8.toNat % 32)))) ∧
    encode (.srui64 rd ra sh8) = [0x3F#8, rd, ra, sh8] ∧
    Completes (.srui64 rd ra sh8) s (s.pc + 4#64) (afterWrite s rd
      (BitVec.ofNat 64 (low 64 (s.reg ra) / 2 ^ (sh8.toNat % 64)))) ∧
    encode (.srsi8 rd ra sh8) = [0x40#8, rd, ra, sh8] ∧
    Completes (.srsi8 rd ra sh8) s (s.pc + 4#64) (afterWrite s rd
      (BitVec.ofInt 64 (signedReading 8 (low 8 (s.reg ra)) / 2 ^ (sh8.toNat % 8) % 2 ^ 8))) ∧
    encode (.srsi16 rd ra sh8) = [0x41#8, rd, ra, sh8] ∧
    Completes (.srsi16 rd ra sh8) s (s.pc + 4#64) (afterWrite s rd
      (BitVec.ofInt 64 (signedReading 16 (low 16 (s.reg ra)) / 2 ^ (sh8.toNat % 16) % 2 ^ 16))) ∧
    encode (.srsi32 rd ra sh8) = [0x42#8, rd, ra, sh8] ∧
    Completes (.srsi32 rd ra sh8) s (s.pc + 4#64) (afterWrite s rd
      (BitVec.ofInt 64 (signedReading 32 (low 32 (s.reg ra)) / 2 ^ (sh8.toNat % 32) % 2 ^ 32))) ∧
    encode (.srsi64 rd ra sh8) = [0x43#8, rd, ra, sh8] ∧
    Completes (.srsi64 rd ra sh8) s (s.pc + 4#64) (afterWrite s rd
      (BitVec.ofInt 64 (signedReading 64 (low 64 (s.reg ra)) / 2 ^ (sh8.toNat % 64) % 2 ^ 64)))

/-- `CMPU`, `CMPS`, `CMPUI`, `CMPSI` (41_int_reg_reg.md R141, R142; 42_int_reg_imm.md R195, R196): -1, 0 or 1 as 64 bits, from the whole register on the left and the register or immediate on the right, unsigned or signed. It rests on the spec's own decision D34 (92_eei_decisions.md, assumption log 12). -/
def Obligations.ComparisonsGiveOrderings : Prop :=
  (∀ (s : State) (rd ra rb : RegNum),
    encode (.cmpu rd ra rb) = [0x1E#8, rd, ra, rb] ∧ encode (.cmps rd ra rb) = [0x1F#8, rd, ra, rb] ∧
    Completes (.cmpu rd ra rb) s (s.pc + 4#64) (afterWrite s rd
      (ordering ((s.reg ra).toNat < (s.reg rb).toNat) ((s.reg ra).toNat = (s.reg rb).toNat))) ∧
    Completes (.cmps rd ra rb) s (s.pc + 4#64) (afterWrite s rd
      (ordering (signedReading 64 (s.reg ra).toNat < signedReading 64 (s.reg rb).toNat)
        (signedReading 64 (s.reg ra).toNat = signedReading 64 (s.reg rb).toNat)))) ∧
  (∀ (s : State) (rd ra : RegNum) (imm : Word),
    encode (.cmpui rd ra imm) = [0x44#8, rd, ra] ++ bytesLE 8 imm ∧
    encode (.cmpsi rd ra imm) = [0x45#8, rd, ra] ++ bytesLE 8 imm ∧
    Completes (.cmpui rd ra imm) s (s.pc + 11#64) (afterWrite s rd
      (ordering ((s.reg ra).toNat < imm.toNat) ((s.reg ra).toNat = imm.toNat))) ∧
    Completes (.cmpsi rd ra imm) s (s.pc + 11#64) (afterWrite s rd
      (ordering (signedReading 64 (s.reg ra).toNat < signedReading 64 imm.toNat)
        (signedReading 64 (s.reg ra).toNat = signedReading 64 imm.toNat))))

/-- `CP` copies a register, `SWA` swaps two: both are read before either is written, and a swap with register 0 clears the other (43_copy_li_lra.md R210, R211). It rests on the spec's own decision D6 (92_eei_decisions.md, assumption log 12). -/
def Obligations.CopyAndSwap : Prop :=
  ∀ (s : State) (ra rb : RegNum),
    encode (.cp ra rb) = [0x46#8, ra, rb] ∧ encode (.swa ra rb) = [0x47#8, ra, rb] ∧
    Completes (.cp ra rb) s (s.pc + 3#64) (afterWrite s ra (s.reg rb)) ∧
    Completes (.swa ra rb) s (s.pc + 3#64)
      (fun r => if r = 0#8 then 0#64 else if r = ra then s.reg rb else if r = rb then s.reg ra else s.reg r)

/-- `LI8` to `LI64` (43_copy_li_lra.md R212 to R215): the immediate zero-extended. It rests on the spec's own decision D2 (92_eei_decisions.md, assumption log 12). -/
def Obligations.ImmediateLoads : Prop :=
  ∀ (s : State) (rd : RegNum) (i8 : BitVec 8) (i16 : BitVec 16) (i32 : BitVec 32) (i64 : BitVec 64),
    encode (.li8 rd i8) = [0x48#8, rd] ++ bytesLE 1 i8 ∧
    Completes (.li8 rd i8) s (s.pc + 3#64) (afterWrite s rd (BitVec.ofNat 64 i8.toNat)) ∧
    encode (.li16 rd i16) = [0x49#8, rd] ++ bytesLE 2 i16 ∧
    Completes (.li16 rd i16) s (s.pc + 4#64) (afterWrite s rd (BitVec.ofNat 64 i16.toNat)) ∧
    encode (.li32 rd i32) = [0x4A#8, rd] ++ bytesLE 4 i32 ∧
    Completes (.li32 rd i32) s (s.pc + 6#64) (afterWrite s rd (BitVec.ofNat 64 i32.toNat)) ∧
    encode (.li64 rd i64) = [0x4B#8, rd] ++ bytesLE 8 i64 ∧
    Completes (.li64 rd i64) s (s.pc + 10#64) (afterWrite s rd (BitVec.ofNat 64 i64.toNat))

/-- The sums of address arithmetic: an absolute address is base plus immediate, a relative one counts from the first byte of the offset field, both modulo 2^64 (44_memory_access.md R239, 20_memory.md R47). It rests on the spec's own decision D16 (92_eei_decisions.md, assumption log 12). -/
def Obligations.EffectiveAddresses : Prop :=
  (∀ (s : State) (rb : RegNum) (addr64 : Word),
    (s.absoluteAddress rb addr64).toNat = ((s.reg rb).toNat + addr64.toNat) % 2 ^ 64) ∧
  (∀ (s : State) (rb : RegNum) (off : BitVec 32),
    ((s.relativeAddressReg rb off).toNat : Int) = ((s.pc.toNat : Int) + 3 + (s.reg rb).toNat + off.toInt) % 2 ^ 64) ∧
  (∀ (s : State) (rb : RegNum) (off : BitVec 16),
    ((s.relativeAddressReg rb off).toNat : Int) = ((s.pc.toNat : Int) + 3 + (s.reg rb).toNat + off.toInt) % 2 ^ 64)

/-- `LRA` and `LRA16` (43_copy_li_lra.md R216, 47_rel16_variants.md R341): the address of the offset field plus the register plus the signed offset. It rests on the spec's own decision D16 (92_eei_decisions.md, assumption log 12). -/
def Obligations.RelativeAddressLoads : Prop :=
  (∀ (s : State) (rd rb : RegNum) (off : BitVec 32),
    encode (.lra rd rb off) = [0x4C#8, rd, rb] ++ bytesLE 4 off ∧
    Completes (.lra rd rb off) s (s.pc + 7#64)
      (afterWrite s rd (BitVec.ofInt 64 ((s.pc.toNat : Int) + 3 + (s.reg rb).toNat + off.toInt)))) ∧
  (∀ (s : State) (rd rb : RegNum) (off : BitVec 16),
    encode (.lra16 rd rb off) = [0x74#8, rd, rb] ++ bytesLE 2 off ∧
    Completes (.lra16 rd rb off) s (s.pc + 5#64)
      (afterWrite s rd (BitVec.ofInt 64 ((s.pc.toNat : Int) + 3 + (s.reg rb).toNat + off.toInt))))

/-- `LD`, `LDR`, `LDR16` (44_memory_access.md R233, R235; 47_rel16_variants.md R342), of every size from 0 on: the bytes of memory go to the bytes of the register file from register `r` on, the other bytes of a partly covered register are kept, bytes for register 0 are dropped, nothing else changes. It rests on the spec's own decisions D8 and D12 (92_eei_decisions.md, assumption log 12). -/
def Obligations.LoadsFillRegisterBytes : Prop :=
  (∀ (s : State) (r rb : RegNum) (addr64 : Word) (size : BitVec 16),
    encode (.ld r rb addr64 size) = [0x4D#8, r, rb] ++ bytesLE 8 addr64 ++ bytesLE 2 size ∧
    (8 * r.toNat + size.toNat ≤ 2048 → s.AllowsAll .read (s.absoluteAddress rb addr64) size.toNat →
      Loads (.ld r rb addr64 size) s (s.pc + 13#64) r (s.absoluteAddress rb addr64) size.toNat)) ∧
  (∀ (s : State) (r rb : RegNum) (off : BitVec 32) (size : BitVec 16),
    encode (.ldr r rb off size) = [0x4F#8, r, rb] ++ bytesLE 4 off ++ bytesLE 2 size ∧
    (8 * r.toNat + size.toNat ≤ 2048 → s.AllowsAll .read (s.relativeAddressReg rb off) size.toNat →
      Loads (.ldr r rb off size) s (s.pc + 9#64) r (s.relativeAddressReg rb off) size.toNat)) ∧
  (∀ (s : State) (r rb : RegNum) (off : BitVec 16) (size : BitVec 16),
    encode (.ldr16 r rb off size) = [0x75#8, r, rb] ++ bytesLE 2 off ++ bytesLE 2 size ∧
    (8 * r.toNat + size.toNat ≤ 2048 → s.AllowsAll .read (s.relativeAddressReg rb off) size.toNat →
      Loads (.ldr16 r rb off size) s (s.pc + 7#64) r (s.relativeAddressReg rb off) size.toNat))

/-- `ST`, `STR`, `STR16` (44_memory_access.md R234, R236; 47_rel16_variants.md R343), of every size from 0 on: byte `k` at the address becomes byte `k` of the run from register `r` on, every byte outside and every register is kept. It rests on the spec's own decision D12 (92_eei_decisions.md, assumption log 12). -/
def Obligations.StoresWriteRegisterBytes : Prop :=
  (∀ (s : State) (r rb : RegNum) (addr64 : Word) (size : BitVec 16),
    encode (.st r rb addr64 size) = [0x4E#8, r, rb] ++ bytesLE 8 addr64 ++ bytesLE 2 size ∧
    (8 * r.toNat + size.toNat ≤ 2048 → s.AllowsAll .write (s.absoluteAddress rb addr64) size.toNat →
      Stores (.st r rb addr64 size) s (s.pc + 13#64) (s.absoluteAddress rb addr64) size.toNat
        (fun k => s.regByte (8 * r.toNat + k)))) ∧
  (∀ (s : State) (r rb : RegNum) (off : BitVec 32) (size : BitVec 16),
    encode (.str r rb off size) = [0x50#8, r, rb] ++ bytesLE 4 off ++ bytesLE 2 size ∧
    (8 * r.toNat + size.toNat ≤ 2048 → s.AllowsAll .write (s.relativeAddressReg rb off) size.toNat →
      Stores (.str r rb off size) s (s.pc + 9#64) (s.relativeAddressReg rb off) size.toNat
        (fun k => s.regByte (8 * r.toNat + k)))) ∧
  (∀ (s : State) (r rb : RegNum) (off : BitVec 16) (size : BitVec 16),
    encode (.str16 r rb off size) = [0x76#8, r, rb] ++ bytesLE 2 off ++ bytesLE 2 size ∧
    (8 * r.toNat + size.toNat ≤ 2048 → s.AllowsAll .write (s.relativeAddressReg rb off) size.toNat →
      Stores (.str16 r rb off size) s (s.pc + 7#64) (s.relativeAddressReg rb off) size.toNat
        (fun k => s.regByte (8 * r.toNat + k))))

/-- A load, a store or `BRC` whose run of registers would pass register 255 raises `InvalidOperand` whatever memory permits, and nothing but the status changes (44_memory_access.md R232, R238). It rests on the spec's own decisions D9 and D10 (92_eei_decisions.md, assumption log 12). -/
def Obligations.RegisterRunPastTheLastRaises : Prop :=
  (∀ (s : State) (r rb : RegNum) (addr64 : Word) (size : BitVec 16),
    2048 < 8 * r.toNat + size.toNat →
      exec (.ld r rb addr64 size) s = .next { s with status := .faulted (.invalidOperand .registerRange) }) ∧
  (∀ (s : State) (r rb : RegNum) (off : BitVec 32) (size : BitVec 16),
    2048 < 8 * r.toNat + size.toNat →
      exec (.ldr r rb off size) s = .next { s with status := .faulted (.invalidOperand .registerRange) }) ∧
  (∀ (s : State) (r rb : RegNum) (off : BitVec 16) (size : BitVec 16),
    2048 < 8 * r.toNat + size.toNat →
      exec (.ldr16 r rb off size) s = .next { s with status := .faulted (.invalidOperand .registerRange) }) ∧
  (∀ (s : State) (r rb : RegNum) (addr64 : Word) (size : BitVec 16),
    2048 < 8 * r.toNat + size.toNat →
      exec (.st r rb addr64 size) s = .next { s with status := .faulted (.invalidOperand .registerRange) }) ∧
  (∀ (s : State) (r rb : RegNum) (off : BitVec 32) (size : BitVec 16),
    2048 < 8 * r.toNat + size.toNat →
      exec (.str r rb off size) s = .next { s with status := .faulted (.invalidOperand .registerRange) }) ∧
  (∀ (s : State) (r rb : RegNum) (off : BitVec 16) (size : BitVec 16),
    2048 < 8 * r.toNat + size.toNat →
      exec (.str16 r rb off size) s = .next { s with status := .faulted (.invalidOperand .registerRange) }) ∧
  (∀ (s : State) (rs rt : RegNum) (count : Byte), 256 < rs.toNat + count.toNat ∨ 256 < rt.toNat + count.toNat →
    exec (.brc rs rt count) s = .next { s with status := .faulted (.invalidOperand .registerRange) })

/-- A load with a byte that is not readable raises `MemoryAccessFault`, which reports one such byte; no register and no byte of memory changes (44_memory_access.md R233, 20_memory.md R46, 60_exceptions.md R368). It rests on the spec's own decision D24 (92_eei_decisions.md, assumption log 12). The model's own form of what is left open is in assumption log 10. -/
def Obligations.LoadFaultsChangeNothing : Prop :=
  (∀ (s : State) (r rb : RegNum) (addr64 : Word) (size : BitVec 16),
    8 * r.toNat + size.toNat ≤ 2048 → ¬ s.AllowsAll .read (s.absoluteAddress rb addr64) size.toNat →
      ∃ a, s.Failing .read (s.absoluteAddress rb addr64) size.toNat a ∧ RaisesAccess (.ld r rb addr64 size) s .read a) ∧
  (∀ (s : State) (r rb : RegNum) (off : BitVec 32) (size : BitVec 16),
    8 * r.toNat + size.toNat ≤ 2048 → ¬ s.AllowsAll .read (s.relativeAddressReg rb off) size.toNat →
      ∃ a, s.Failing .read (s.relativeAddressReg rb off) size.toNat a ∧ RaisesAccess (.ldr r rb off size) s .read a) ∧
  (∀ (s : State) (r rb : RegNum) (off : BitVec 16) (size : BitVec 16),
    8 * r.toNat + size.toNat ≤ 2048 → ¬ s.AllowsAll .read (s.relativeAddressReg rb off) size.toNat →
      ∃ a, s.Failing .read (s.relativeAddressReg rb off) size.toNat a ∧ RaisesAccess (.ldr16 r rb off size) s .read a)

/-- A store with a byte that is not writable raises `MemoryAccessFault`, which reports one such byte; the bytes outside its range are kept, those inside have their old value or, if writable, the one the completed store would have written (60_exceptions.md R368). It rests on the spec's own decision D24 (92_eei_decisions.md, assumption log 12). The model's own form of what is left open is in assumption log 10 and 11. -/
def Obligations.StoreFaultsLeaveOldOrNewBytes : Prop :=
  (∀ (s : State) (r rb : RegNum) (addr64 : Word) (size : BitVec 16),
    8 * r.toNat + size.toNat ≤ 2048 → ¬ s.AllowsAll .write (s.absoluteAddress rb addr64) size.toNat →
      ∃ a, s.Failing .write (s.absoluteAddress rb addr64) size.toNat a ∧
        RaisesAccessStoring (.st r rb addr64 size) s .write a (s.absoluteAddress rb addr64) size.toNat
          (fun k => s.regByte (8 * r.toNat + k))) ∧
  (∀ (s : State) (r rb : RegNum) (off : BitVec 32) (size : BitVec 16),
    8 * r.toNat + size.toNat ≤ 2048 → ¬ s.AllowsAll .write (s.relativeAddressReg rb off) size.toNat →
      ∃ a, s.Failing .write (s.relativeAddressReg rb off) size.toNat a ∧
        RaisesAccessStoring (.str r rb off size) s .write a (s.relativeAddressReg rb off) size.toNat
          (fun k => s.regByte (8 * r.toNat + k))) ∧
  (∀ (s : State) (r rb : RegNum) (off : BitVec 16) (size : BitVec 16),
    8 * r.toNat + size.toNat ≤ 2048 → ¬ s.AllowsAll .write (s.relativeAddressReg rb off) size.toNat →
      ∃ a, s.Failing .write (s.relativeAddressReg rb off) size.toNat a ∧
        RaisesAccessStoring (.str16 r rb off size) s .write a (s.relativeAddressReg rb off) size.toNat
          (fun k => s.regByte (8 * r.toNat + k)))

/-- `BMC` (44_memory_access.md R237): every byte of the destination becomes the byte the source held before, also when the two overlap; nothing else changes. No size needs alignment, and size 0 needs no permission. It rests on the spec's own decisions D12 and D13 (92_eei_decisions.md, assumption log 12). -/
def Obligations.BlockMemoryCopy : Prop :=
  ∀ (s : State) (rs rt : RegNum) (count : BitVec 16),
    encode (.bmc rs rt count) = [0x51#8, rs, rt] ++ bytesLE 2 count ∧
    (s.AllowsAll .read (s.reg rs) count.toNat → s.AllowsAll .write (s.reg rt) count.toNat →
      Stores (.bmc rs rt count) s (s.pc + 5#64) (s.reg rt) count.toNat
        (fun k => s.byteAt (s.reg rs + BitVec.ofNat 64 k)))

/-- A `BMC` with a source byte that is not readable raises a read fault, whatever its destination permits; with all of the source readable and a destination byte not writable, a write fault. Destination bytes are left as those of a faulting store (44_memory_access.md R237, 60_exceptions.md R367, R368). It rests on the spec's own decisions D23 and D24 (92_eei_decisions.md, assumption log 12). The model's own form of what is left open is in assumption log 10 and 11. -/
def Obligations.BlockMemoryCopyFaults : Prop :=
  ∀ (s : State) (rs rt : RegNum) (count : BitVec 16),
    (¬ s.AllowsAll .read (s.reg rs) count.toNat →
      ∃ a, s.Failing .read (s.reg rs) count.toNat a ∧
        RaisesAccessStoring (.bmc rs rt count) s .read a (s.reg rt) count.toNat
          (fun k => s.byteAt (s.reg rs + BitVec.ofNat 64 k))) ∧
    (s.AllowsAll .read (s.reg rs) count.toNat → ¬ s.AllowsAll .write (s.reg rt) count.toNat →
      ∃ a, s.Failing .write (s.reg rt) count.toNat a ∧
        RaisesAccessStoring (.bmc rs rt count) s .write a (s.reg rt) count.toNat
          (fun k => s.byteAt (s.reg rs + BitVec.ofNat 64 k)))

/-- `BRC` (44_memory_access.md R238): the registers of the destination run get what those of the source run held before, register 0 excepted; a run may end at register 255. It rests on the spec's own decisions D10, D12 and D13 (92_eei_decisions.md, assumption log 12). -/
def Obligations.BlockRegisterCopy : Prop :=
  ∀ (s : State) (rs rt : RegNum) (count : Byte),
    encode (.brc rs rt count) = [0x52#8, rs, rt, count] ∧
    (rs.toNat + count.toNat ≤ 256 → rt.toNat + count.toNat ≤ 256 →
      Completes (.brc rs rt count) s (s.pc + 4#64)
        (fun r => if rt.toNat ≤ r.toNat ∧ r.toNat < rt.toNat + count.toNat ∧ r ≠ 0#8 then
          s.reg (BitVec.ofNat 8 (rs.toNat + (r.toNat - rt.toNat))) else s.reg r))

/-- `JMP` and `JMP16` (45_jumps_and_traps.md R262, 47_rel16_variants.md R344): the program counter becomes the address of the offset field plus the signed offset. -/
def Obligations.RelativeJumps : Prop :=
  (∀ (s : State) (off : BitVec 32),
    encode (.jmp off) = [0x53#8] ++ bytesLE 4 off ∧
    Completes (.jmp off) s (BitVec.ofInt 64 ((s.pc.toNat : Int) + 1 + off.toInt)) s.reg) ∧
  (∀ (s : State) (off : BitVec 16),
    encode (.jmp16 off) = [0x77#8] ++ bytesLE 2 off ∧
    Completes (.jmp16 off) s (BitVec.ofInt 64 ((s.pc.toNat : Int) + 1 + off.toInt)) s.reg)

/-- `JAL` and `JALA` (45_jumps_and_traps.md R263, R264): the link register gets the address of the following instruction, and the base register is read after that. It rests on the spec's own decisions D14 and D16 (92_eei_decisions.md, assumption log 12). -/
def Obligations.LinkingJumps : Prop :=
  (∀ (s : State) (rl rb : RegNum) (off : BitVec 32),
    encode (.jal rl rb off) = [0x54#8, rl, rb] ++ bytesLE 4 off ∧
    Completes (.jal rl rb off) s
      (BitVec.ofInt 64 ((s.pc.toNat : Int) + 3 + (afterWrite s rl (s.pc + 7#64) rb).toNat + off.toInt))
      (afterWrite s rl (s.pc + 7#64))) ∧
  (∀ (s : State) (rl rb : RegNum) (addr64 : Word),
    encode (.jala rl rb addr64) = [0x55#8, rl, rb] ++ bytesLE 8 addr64 ∧
    Completes (.jala rl rb addr64) s
      (BitVec.ofNat 64 ((afterWrite s rl (s.pc + 11#64) rb).toNat + addr64.toNat))
      (afterWrite s rl (s.pc + 11#64)))

/-- The six conditional jumps (45_jumps_and_traps.md R266 to R271) compare two whole registers and go to the address of the offset field plus the signed offset, or to the following instruction; no register changes. -/
def Obligations.ConditionalJumps : Prop :=
  ∀ (s : State) (ra rb : RegNum) (off : BitVec 16),
    encode (.jeq ra rb off) = [0x56#8, ra, rb] ++ bytesLE 2 off ∧
    Completes (.jeq ra rb off) s
      (if s.reg ra = s.reg rb then BitVec.ofInt 64 ((s.pc.toNat : Int) + 3 + off.toInt)
      else s.pc + 5#64) s.reg ∧
    encode (.jne ra rb off) = [0x57#8, ra, rb] ++ bytesLE 2 off ∧
    Completes (.jne ra rb off) s
      (if s.reg ra ≠ s.reg rb then BitVec.ofInt 64 ((s.pc.toNat : Int) + 3 + off.toInt)
      else s.pc + 5#64) s.reg ∧
    encode (.jltu ra rb off) = [0x58#8, ra, rb] ++ bytesLE 2 off ∧
    Completes (.jltu ra rb off) s
      (if (s.reg ra).toNat < (s.reg rb).toNat then BitVec.ofInt 64 ((s.pc.toNat : Int) + 3 + off.toInt)
      else s.pc + 5#64) s.reg ∧
    encode (.jgtu ra rb off) = [0x59#8, ra, rb] ++ bytesLE 2 off ∧
    Completes (.jgtu ra rb off) s
      (if (s.reg ra).toNat > (s.reg rb).toNat then BitVec.ofInt 64 ((s.pc.toNat : Int) + 3 + off.toInt)
      else s.pc + 5#64) s.reg ∧
    encode (.jlts ra rb off) = [0x5A#8, ra, rb] ++ bytesLE 2 off ∧
    Completes (.jlts ra rb off) s
      (if signedReading 64 (s.reg ra).toNat < signedReading 64 (s.reg rb).toNat then BitVec.ofInt 64 ((s.pc.toNat : Int) + 3 + off.toInt)
      else s.pc + 5#64) s.reg ∧
    encode (.jgts ra rb off) = [0x5B#8, ra, rb] ++ bytesLE 2 off ∧
    Completes (.jgts ra rb off) s
      (if signedReading 64 (s.reg ra).toNat > signedReading 64 (s.reg rb).toNat then BitVec.ofInt 64 ((s.pc.toNat : Int) + 3 + off.toInt)
      else s.pc + 5#64) s.reg

/-- The data that 32 and 64 bits stand for (46_float.md R290): sign, exponent and fraction fields, infinities, NaNs, zeros and subnormal numbers, a finite number counted in units of the smallest subnormal one. It rests on the spec's own decision D30 (92_eei_decisions.md, assumption log 12). -/
def Obligations.FloatEncodings : Prop :=
  (∀ w : BitVec 32,
    binary32.datum w.toNat =
      if (w.extractLsb' 23 8).toNat = 255 then (if (w.extractLsb' 0 23).toNat = 0 then .inf w.msb else .nan)
      else if (w.extractLsb' 23 8).toNat = 0 then .fin w.msb (w.extractLsb' 0 23).toNat
      else .fin w.msb ((2 ^ 23 + (w.extractLsb' 0 23).toNat) * 2 ^ ((w.extractLsb' 23 8).toNat - 1))) ∧
  (∀ w : BitVec 64,
    binary64.datum w.toNat =
      if (w.extractLsb' 52 11).toNat = 2047 then (if (w.extractLsb' 0 52).toNat = 0 then .inf w.msb else .nan)
      else if (w.extractLsb' 52 11).toNat = 0 then .fin w.msb (w.extractLsb' 0 52).toNat
      else .fin w.msb ((2 ^ 52 + (w.extractLsb' 0 52).toNat) * 2 ^ ((w.extractLsb' 52 11).toNat - 1))) ∧
  binary32.unitsPerOne = 2 ^ 149 ∧ binary64.unitsPerOne = 2 ^ 1074

/-- The rounding that every float result uses is the one IEEE 754 asks for, in each mode, sign and format, for every exact fraction of units: to nearest with ties to even, toward zero, up or down, subnormal and overflowing results among them (46_float.md R291, R293, R319). It rests on the spec's own decision D30 (92_eei_decisions.md, assumption log 12). What IEEE 754 asks for is general knowledge, not a text of the spec: it is presumed (assumption log 17). -/
def Obligations.RoundingIsIeee : Prop :=
  ∀ (f : Format) (mode : RoundMode) (neg : Bool) (num den : Nat), f = binary32 ∨ f = binary64 → 0 < den →
    f.IsRounding mode neg num den (f.round mode neg num den)

/-- `FADD32`, `FADD64`, `FSUB32`, `FSUB64` (46_float.md R300 to R303): a function of the operands' bits of the width alone, whose value encodes the exact sum or difference rounded once to nearest-even, or the infinity, the signed zero or some NaN that IEEE 754 asks for; which NaN is open (assumption log 8). It rests on the spec's own decisions D30 and D31 (92_eei_decisions.md, assumption log 12). -/
def Obligations.FloatSumsAndDifferences : Prop :=
  (∃ F : BitVec 32 → BitVec 32 → Nat, (∀ a b, binary32.IsSum (binary32.datum a.toNat) (binary32.datum b.toNat) (F a b)) ∧
    ∀ (s : State) (rd ra rb : RegNum),
      encode (.fadd32 rd ra rb) = [0x5E#8, rd, ra, rb] ∧
      Completes (.fadd32 rd ra rb) s (s.pc + 4#64) (afterWrite s rd
        (BitVec.ofNat 64 (F ((s.reg ra).setWidth 32) ((s.reg rb).setWidth 32))))) ∧
  (∃ F : BitVec 64 → BitVec 64 → Nat, (∀ a b, binary64.IsSum (binary64.datum a.toNat) (binary64.datum b.toNat) (F a b)) ∧
    ∀ (s : State) (rd ra rb : RegNum),
      encode (.fadd64 rd ra rb) = [0x5F#8, rd, ra, rb] ∧
      Completes (.fadd64 rd ra rb) s (s.pc + 4#64) (afterWrite s rd
        (BitVec.ofNat 64 (F ((s.reg ra).setWidth 64) ((s.reg rb).setWidth 64))))) ∧
  (∃ F : BitVec 32 → BitVec 32 → Nat, (∀ a b, binary32.IsSum (binary32.datum a.toNat) (binary32.datum b.toNat).opposite (F a b)) ∧
    ∀ (s : State) (rd ra rb : RegNum),
      encode (.fsub32 rd ra rb) = [0x60#8, rd, ra, rb] ∧
      Completes (.fsub32 rd ra rb) s (s.pc + 4#64) (afterWrite s rd
        (BitVec.ofNat 64 (F ((s.reg ra).setWidth 32) ((s.reg rb).setWidth 32))))) ∧
  (∃ F : BitVec 64 → BitVec 64 → Nat, (∀ a b, binary64.IsSum (binary64.datum a.toNat) (binary64.datum b.toNat).opposite (F a b)) ∧
    ∀ (s : State) (rd ra rb : RegNum),
      encode (.fsub64 rd ra rb) = [0x61#8, rd, ra, rb] ∧
      Completes (.fsub64 rd ra rb) s (s.pc + 4#64) (afterWrite s rd
        (BitVec.ofNat 64 (F ((s.reg ra).setWidth 64) ((s.reg rb).setWidth 64)))))

/-- `FMUL32`, `FMUL64`, `FDIV32`, `FDIV64` (46_float.md R304 to R307): as the sums, of the product and the quotient; a division by zero raises nothing. It rests on the spec's own decisions D30 and D31 (92_eei_decisions.md, assumption log 12). -/
def Obligations.FloatProductsAndQuotients : Prop :=
  (∃ F : BitVec 32 → BitVec 32 → Nat, (∀ a b, binary32.IsProduct (binary32.datum a.toNat) (binary32.datum b.toNat) (F a b)) ∧
    ∀ (s : State) (rd ra rb : RegNum),
      encode (.fmul32 rd ra rb) = [0x62#8, rd, ra, rb] ∧
      Completes (.fmul32 rd ra rb) s (s.pc + 4#64) (afterWrite s rd
        (BitVec.ofNat 64 (F ((s.reg ra).setWidth 32) ((s.reg rb).setWidth 32))))) ∧
  (∃ F : BitVec 64 → BitVec 64 → Nat, (∀ a b, binary64.IsProduct (binary64.datum a.toNat) (binary64.datum b.toNat) (F a b)) ∧
    ∀ (s : State) (rd ra rb : RegNum),
      encode (.fmul64 rd ra rb) = [0x63#8, rd, ra, rb] ∧
      Completes (.fmul64 rd ra rb) s (s.pc + 4#64) (afterWrite s rd
        (BitVec.ofNat 64 (F ((s.reg ra).setWidth 64) ((s.reg rb).setWidth 64))))) ∧
  (∃ F : BitVec 32 → BitVec 32 → Nat, (∀ a b, binary32.IsQuotient (binary32.datum a.toNat) (binary32.datum b.toNat) (F a b)) ∧
    ∀ (s : State) (rd ra rb : RegNum),
      encode (.fdiv32 rd ra rb) = [0x64#8, rd, ra, rb] ∧
      Completes (.fdiv32 rd ra rb) s (s.pc + 4#64) (afterWrite s rd
        (BitVec.ofNat 64 (F ((s.reg ra).setWidth 32) ((s.reg rb).setWidth 32))))) ∧
  (∃ F : BitVec 64 → BitVec 64 → Nat, (∀ a b, binary64.IsQuotient (binary64.datum a.toNat) (binary64.datum b.toNat) (F a b)) ∧
    ∀ (s : State) (rd ra rb : RegNum),
      encode (.fdiv64 rd ra rb) = [0x65#8, rd, ra, rb] ∧
      Completes (.fdiv64 rd ra rb) s (s.pc + 4#64) (afterWrite s rd
        (BitVec.ofNat 64 (F ((s.reg ra).setWidth 64) ((s.reg rb).setWidth 64)))))

/-- `FMA32` and `FMA64` (46_float.md R308, R309): the exact product plus the addend, rounded once. It rests on the spec's own decisions D30, D31 and D40 (92_eei_decisions.md, assumption log 12). -/
def Obligations.FusedMultiplyAddRoundsOnce : Prop :=
  (∃ F : BitVec 32 → BitVec 32 → BitVec 32 → Nat,
    (∀ a b c, binary32.IsFused (binary32.datum a.toNat) (binary32.datum b.toNat) (binary32.datum c.toNat) (F a b c)) ∧
    ∀ (s : State) (rd ra rb rc : RegNum),
      encode (.fma32 rd ra rb rc) = [0x66#8, rd, ra, rb, rc] ∧
      Completes (.fma32 rd ra rb rc) s (s.pc + 5#64) (afterWrite s rd
        (BitVec.ofNat 64 (F ((s.reg ra).setWidth 32) ((s.reg rb).setWidth 32) ((s.reg rc).setWidth 32))))) ∧
  (∃ F : BitVec 64 → BitVec 64 → BitVec 64 → Nat,
    (∀ a b c, binary64.IsFused (binary64.datum a.toNat) (binary64.datum b.toNat) (binary64.datum c.toNat) (F a b c)) ∧
    ∀ (s : State) (rd ra rb rc : RegNum),
      encode (.fma64 rd ra rb rc) = [0x67#8, rd, ra, rb, rc] ∧
      Completes (.fma64 rd ra rb rc) s (s.pc + 5#64) (afterWrite s rd
        (BitVec.ofNat 64 (F ((s.reg ra).setWidth 64) ((s.reg rb).setWidth 64) ((s.reg rc).setWidth 64)))))

/-- `FCMPLT32`, `FCMPLT64`, `FCMPGT32`, `FCMPGT64` (46_float.md R310 to R313): -1, 0 or 1 as 64 bits by the order of the values, the zeros equal; a NaN operand gives -1 in the first two, 1 in the others. It rests on the spec's own decision D33 (92_eei_decisions.md, assumption log 12). -/
def Obligations.FloatComparisonsGiveOrderings : Prop :=
  ∀ (s : State) (rd ra rb : RegNum),
    encode (.fcmplt32 rd ra rb) = [0x6A#8, rd, ra, rb] ∧
    (∀ a b, a = binary32.datum ((s.reg ra).setWidth 32).toNat → b = binary32.datum ((s.reg rb).setWidth 32).toNat →
      (a = .nan ∨ b = .nan → Completes (.fcmplt32 rd ra rb) s (s.pc + 4#64) (afterWrite s rd (BitVec.ofInt 64 (-1)))) ∧
      (a.below b → Completes (.fcmplt32 rd ra rb) s (s.pc + 4#64) (afterWrite s rd (BitVec.ofInt 64 (-1)))) ∧
      (a.same b → Completes (.fcmplt32 rd ra rb) s (s.pc + 4#64) (afterWrite s rd (BitVec.ofInt 64 0))) ∧
      (b.below a → Completes (.fcmplt32 rd ra rb) s (s.pc + 4#64) (afterWrite s rd (BitVec.ofInt 64 1)))) ∧
    encode (.fcmplt64 rd ra rb) = [0x6B#8, rd, ra, rb] ∧
    (∀ a b, a = binary64.datum ((s.reg ra).setWidth 64).toNat → b = binary64.datum ((s.reg rb).setWidth 64).toNat →
      (a = .nan ∨ b = .nan → Completes (.fcmplt64 rd ra rb) s (s.pc + 4#64) (afterWrite s rd (BitVec.ofInt 64 (-1)))) ∧
      (a.below b → Completes (.fcmplt64 rd ra rb) s (s.pc + 4#64) (afterWrite s rd (BitVec.ofInt 64 (-1)))) ∧
      (a.same b → Completes (.fcmplt64 rd ra rb) s (s.pc + 4#64) (afterWrite s rd (BitVec.ofInt 64 0))) ∧
      (b.below a → Completes (.fcmplt64 rd ra rb) s (s.pc + 4#64) (afterWrite s rd (BitVec.ofInt 64 1)))) ∧
    encode (.fcmpgt32 rd ra rb) = [0x6C#8, rd, ra, rb] ∧
    (∀ a b, a = binary32.datum ((s.reg ra).setWidth 32).toNat → b = binary32.datum ((s.reg rb).setWidth 32).toNat →
      (a = .nan ∨ b = .nan → Completes (.fcmpgt32 rd ra rb) s (s.pc + 4#64) (afterWrite s rd (BitVec.ofInt 64 (1)))) ∧
      (a.below b → Completes (.fcmpgt32 rd ra rb) s (s.pc + 4#64) (afterWrite s rd (BitVec.ofInt 64 (-1)))) ∧
      (a.same b → Completes (.fcmpgt32 rd ra rb) s (s.pc + 4#64) (afterWrite s rd (BitVec.ofInt 64 0))) ∧
      (b.below a → Completes (.fcmpgt32 rd ra rb) s (s.pc + 4#64) (afterWrite s rd (BitVec.ofInt 64 1)))) ∧
    encode (.fcmpgt64 rd ra rb) = [0x6D#8, rd, ra, rb] ∧
    (∀ a b, a = binary64.datum ((s.reg ra).setWidth 64).toNat → b = binary64.datum ((s.reg rb).setWidth 64).toNat →
      (a = .nan ∨ b = .nan → Completes (.fcmpgt64 rd ra rb) s (s.pc + 4#64) (afterWrite s rd (BitVec.ofInt 64 (1)))) ∧
      (a.below b → Completes (.fcmpgt64 rd ra rb) s (s.pc + 4#64) (afterWrite s rd (BitVec.ofInt 64 (-1)))) ∧
      (a.same b → Completes (.fcmpgt64 rd ra rb) s (s.pc + 4#64) (afterWrite s rd (BitVec.ofInt 64 0))) ∧
      (b.below a → Completes (.fcmpgt64 rd ra rb) s (s.pc + 4#64) (afterWrite s rd (BitVec.ofInt 64 1))))

/-- `ITF32` and `ITF64` (46_float.md R314, R315): the signed 64-bit integer rounded to nearest-even, 0 giving +0. It rests on the spec's own decision D35 (92_eei_decisions.md, assumption log 12). -/
def Obligations.IntegersToFloats : Prop :=
  ∀ (s : State) (rd ra : RegNum),
    encode (.itf32 rd ra) = [0x6E#8, rd, ra] ∧
    (∃ bits, binary32.IsRounding .nearestEven (signedReading 64 (s.reg ra).toNat < 0)
        ((signedReading 64 (s.reg ra).toNat).natAbs * binary32.unitsPerOne) 1 bits ∧
      Completes (.itf32 rd ra) s (s.pc + 3#64) (afterWrite s rd (BitVec.ofNat 64 bits))) ∧
    encode (.itf64 rd ra) = [0x6F#8, rd, ra] ∧
    (∃ bits, binary64.IsRounding .nearestEven (signedReading 64 (s.reg ra).toNat < 0)
        ((signedReading 64 (s.reg ra).toNat).natAbs * binary64.unitsPerOne) 1 bits ∧
      Completes (.itf64 rd ra) s (s.pc + 3#64) (afterWrite s rd (BitVec.ofNat 64 bits)))

/-- `FTI32` and `FTI64` in each rounding mode (46_float.md R316, R317): the value rounded to a whole number in that mode, where it fits 64 signed bits; else, and for a NaN or an infinity, what `FTI_INVALID` says, a value of the instruction, the operand's bits and the rounding-mode byte, or the exception. The model's own choice (assumption log 9): the spec does not say whether that byte is one of the operand bits that the value may depend on. It rests on the spec's own decision D32 (92_eei_decisions.md, assumption log 12). -/
def Obligations.FloatsToIntegers : Prop :=
  ∀ (s : State) (rd ra : RegNum) (mode : RoundMode),
    encode (.fti32 rd ra mode.byte) = [0x70#8, rd, ra, mode.byte] ∧
    (match binary32.datum ((s.reg ra).setWidth 32).toNat with
      | .fin p m => ∃ k : Int, mode.IsWhole (signed p m) binary32.unitsPerOne k ∧
          if -2 ^ 63 ≤ k ∧ k < 2 ^ 63 then
            Completes (.fti32 rd ra mode.byte) s (s.pc + 4#64) (afterWrite s rd (BitVec.ofInt 64 k))
          else ConvertsInvalid (.fti32 rd ra mode.byte) s .fti32 rd (((s.reg ra).setWidth 32 : BitVec 32).setWidth 64) mode.byte
      | _ => ConvertsInvalid (.fti32 rd ra mode.byte) s .fti32 rd (((s.reg ra).setWidth 32 : BitVec 32).setWidth 64) mode.byte) ∧
    encode (.fti64 rd ra mode.byte) = [0x71#8, rd, ra, mode.byte] ∧
    (match binary64.datum ((s.reg ra).setWidth 64).toNat with
      | .fin p m => ∃ k : Int, mode.IsWhole (signed p m) binary64.unitsPerOne k ∧
          if -2 ^ 63 ≤ k ∧ k < 2 ^ 63 then
            Completes (.fti64 rd ra mode.byte) s (s.pc + 4#64) (afterWrite s rd (BitVec.ofInt 64 k))
          else ConvertsInvalid (.fti64 rd ra mode.byte) s .fti64 rd (((s.reg ra).setWidth 64 : BitVec 64).setWidth 64) mode.byte
      | _ => ConvertsInvalid (.fti64 rd ra mode.byte) s .fti64 rd (((s.reg ra).setWidth 64 : BitVec 64).setWidth 64) mode.byte)

/-- `FC32T64` is exact and `FC64T32` rounds in the mode its byte names (46_float.md R318, R319); infinities and zeros keep their sign and a NaN gives some NaN, a function of the operand's bits and, for `FC64T32`, of the mode. The model's own choice (assumption log 8): the spec does not say whether the mode's byte is one of the operand bits that the NaN may depend on. It rests on the spec's own decisions D30 and D31 (92_eei_decisions.md, assumption log 12). -/
def Obligations.FloatsToFloats : Prop :=
  (∃ F : BitVec 32 → Nat,
    (∀ a, match binary32.datum a.toNat with
      | .nan => binary64.IsNaN (F a)
      | .inf p => F a = binary64.pack p binary64.infinity
      | .fin p m => F a < 2 ^ 64 ∧ binary64.datum (F a) = .fin p (m * 2 ^ 925)) ∧
    ∀ (s : State) (rd ra : RegNum),
      encode (.fc32t64 rd ra) = [0x72#8, rd, ra] ∧
      Completes (.fc32t64 rd ra) s (s.pc + 3#64) (afterWrite s rd (BitVec.ofNat 64 (F ((s.reg ra).setWidth 32))))) ∧
  (∃ F : RoundMode → BitVec 64 → Nat,
    (∀ mode a, match binary64.datum a.toNat with
      | .nan => binary32.IsNaN (F mode a)
      | .inf p => F mode a = binary32.pack p binary32.infinity
      | .fin p m => binary32.IsRounding mode p m (2 ^ 925) (F mode a)) ∧
    ∀ (s : State) (rd ra : RegNum) (mode : RoundMode),
      encode (.fc64t32 rd ra mode.byte) = [0x73#8, rd, ra, mode.byte] ∧
      Completes (.fc64t32 rd ra mode.byte) s (s.pc + 4#64)
        (afterWrite s rd (BitVec.ofNat 64 (F mode ((s.reg ra).setWidth 64)))))

/-- A rounding-mode byte of 4 or more raises `InvalidOperand`, whatever the value to convert; nothing but the status changes (46_float.md R293). -/
def Obligations.BadRoundingByteRaises : Prop :=
  ∀ (s : State) (rd ra : RegNum) (rm : Byte), 4 ≤ rm.toNat →
    exec (.fti32 rd ra rm) s = .next { s with status := .faulted (.invalidOperand .roundingMode) } ∧
    exec (.fti64 rd ra rm) s = .next { s with status := .faulted (.invalidOperand .roundingMode) } ∧
    exec (.fc64t32 rd ra rm) s = .next { s with status := .faulted (.invalidOperand .roundingMode) }
end

