-- ==== Sys2Proof/Laws/Decode.lean ====
section
/-! SUPPORT. Little-endian numbers written and read back. -/

namespace Sys2Proof

@[simp] theorem leBytes_length (n v : Nat) : (leBytes n v).length = n := by
  induction n generalizing v with
  | zero => rfl
  | succ n ih => simp [leBytes, ih]

/-- Reading back what was written gives the number's low bytes and the rest (30_encoding.md R72). -/
theorem takeLe_leBytes (n v : Nat) (rest : List Byte) : takeLe n (leBytes n v ++ rest) = some (v % 256 ^ n, rest) := by
  induction n generalizing v with
  | zero => simp [leBytes, takeLe, Nat.mod_one]
  | succ n ih =>
    simp only [leBytes, List.cons_append, takeLe, ih]
    have h1 : (BitVec.ofNat 8 v).toNat = v % 256 := rfl
    have h2 : v % 256 ^ (n + 1) = v % 256 + 256 * (v / 256 % 256 ^ n) := by
      rw [Nat.pow_succ, Nat.mul_comm, Nat.mod_mul]
    rw [h1, h2]

/-- What was read, written again, gives back the bytes. -/
theorem leBytes_of_takeLe {n v : Nat} {bs rest : List Byte} (h : takeLe n bs = some (v, rest)) :
    leBytes n v ++ rest = bs ∧ v < 256 ^ n := by
  induction n generalizing bs v with
  | zero => simp only [takeLe, Option.some.injEq, Prod.mk.injEq] at h; obtain ⟨rfl, rfl⟩ := h; simp [leBytes]
  | succ n ih =>
    cases bs with
    | nil => simp [takeLe] at h
    | cons b bs =>
      simp only [takeLe] at h
      split at h
      · cases h
      · rename_i w r hw
        simp only [Option.some.injEq, Prod.mk.injEq] at h
        obtain ⟨rfl, rfl⟩ := h
        obtain ⟨h1, h2⟩ := ih hw
        have hb : b.toNat < 256 := b.isLt
        have hdiv : (b.toNat + 256 * w) / 256 = w := by omega
        have hbyte : BitVec.ofNat 8 (b.toNat + 256 * w) = b := by
          apply BitVec.eq_of_toNat_eq; rw [BitVec.toNat_ofNat]; omega
        refine ⟨?_, ?_⟩
        · rw [leBytes, hdiv, hbyte, List.cons_append, h1]
        · rw [Nat.pow_succ]; omega

/-- A read fails exactly when there are too few bytes. -/
theorem takeLe_eq_none {n : Nat} {bs : List Byte} : takeLe n bs = none ↔ bs.length < n := by
  induction n generalizing bs with
  | zero => simp [takeLe]
  | succ n ih =>
    cases bs with
    | nil => simp [takeLe]
    | cons b bs =>
      rw [takeLe, List.length_cons, Nat.add_lt_add_iff_right, ← ih]
      cases takeLe n bs <;> simp

/-- A read takes `n` bytes. -/
theorem takeLe_length {n v : Nat} {bs rest : List Byte} (h : takeLe n bs = some (v, rest)) :
    rest.length + n = bs.length := by
  have := congrArg List.length (leBytes_of_takeLe h).1
  simp at this; omega

/-- An operand that was written is read back, and what follows is left (30_encoding.md R72). -/
theorem withLe_leBytes {α : Type} (n w : Nat) (v : BitVec w) (hw : w = 8 * n) (rest : List Byte)
    (k : BitVec w → List Byte → Option α) : withLe n w (leBytes n v.toNat ++ rest) k = k v rest := by
  subst hw
  unfold withLe
  rw [takeLe_leBytes]
  change k _ rest = _
  congr 1
  apply BitVec.eq_of_toNat_eq
  have hp : (256 : Nat) ^ n = 2 ^ (8 * n) := by rw [Nat.pow_mul]
  rw [hp, BitVec.toNat_ofNat, Nat.mod_mod, Nat.mod_eq_of_lt v.isLt]

end Sys2Proof
end

