-- ==== Sys2Proof/Laws/Memory.lean ====
section
/-! SUPPORT. Reads after writes, the canonical form of the memory, and what an access check answers. -/

namespace Sys2Proof.Machine

open Sys2Proof

/-! ## One byte -/

/-- A byte reads what was last written to it, and a write leaves every other byte alone. -/
theorem read_write (m : List Host.Cell) (a b : Nat) (v : Byte) :
    Memory.read (Memory.write m a v) b = if b = a then v else Memory.read m b := by
  induction m with
  | nil =>
    unfold Memory.write
    split
    · rename_i h; simp [Memory.read, h]
    · simp [Memory.read]
  | cons c m ih =>
    obtain ⟨k, x⟩ := c
    unfold Memory.write
    by_cases hk : a = k
    · subst hk
      by_cases hv : v = Memory.unlisted
      · by_cases hb : b = a <;> simp_all [Memory.read]
      · by_cases hb : b = a <;> simp [hv, hb, Memory.read]
    · by_cases hlt : a < k ∧ v ≠ Memory.unlisted
      · by_cases hb : b = a <;> simp [hk, hlt, hb, Memory.read]
      · simp only [hk, if_false, hlt, Memory.read, ih]
        by_cases hb : b = k <;> by_cases hba : b = a <;> simp_all

/-- A well-formed memory lists nothing at or below the bound. -/
theorem wfFrom_mono {lo lo' : Nat} (h : lo' ≤ lo) : ∀ {m : List Host.Cell}, Memory.wfFrom lo m = true → Memory.wfFrom lo' m = true
  | [], _ => rfl
  | (k, b) :: m, hw => by
    simp only [Memory.wfFrom, Bool.and_eq_true, decide_eq_true_eq] at hw ⊢
    exact ⟨⟨⟨by omega, hw.1.1.2⟩, hw.1.2⟩, hw.2⟩

/-- Writing a byte above the bound keeps the canonical form. -/
theorem write_wfFrom {a : Nat} (v : Byte) (ha : a < 2 ^ 64) :
    ∀ {lo : Nat} {m : List Host.Cell}, lo < a → Memory.wfFrom lo m = true → Memory.wfFrom lo (Memory.write m a v) = true
  | lo, [], hlo, _ => by
    unfold Memory.write
    split
    · rfl
    · rename_i h; simp [Memory.wfFrom, hlo, show a < 18446744073709551616 from ha, h]
  | lo, (k, b) :: m, hlo, hw => by
    simp only [Memory.wfFrom, Bool.and_eq_true, decide_eq_true_eq] at hw
    obtain ⟨⟨⟨hk, hk2⟩, hb⟩, hm⟩ := hw
    unfold Memory.write
    by_cases hak : a = k
    · subst hak
      by_cases hv : v = Memory.unlisted
      · simp only [if_true, hv]
        have hskip : Memory.write m a Memory.unlisted = m := write_below hm
        rw [hskip]; exact wfFrom_mono (by omega) hm
      · simp [hv, Memory.wfFrom, hlo, show a < 18446744073709551616 from ha, hm]
    · by_cases hlt : a < k ∧ v ≠ Memory.unlisted
      · simp [hak, hlt, Memory.wfFrom, hlo, show a < 18446744073709551616 from ha,
          show k < 18446744073709551616 from hk2, hb, hm]
      · simp only [hak, if_false, hlt, Memory.wfFrom, Bool.and_eq_true, decide_eq_true_eq]
        refine ⟨⟨⟨hk, hk2⟩, hb⟩, ?_⟩
        by_cases hka : k < a
        · exact write_wfFrom v ha hka hm
        · have hv : v = Memory.unlisted := by
            by_contra hne; exact hlt ⟨by omega, hne⟩
          subst hv
          rw [write_below (wfFrom_mono (by omega) hm : Memory.wfFrom a m = true)]
          exact hm
where
  /-- Writing what an unlisted byte reads as, below every listed byte, changes nothing. -/
  write_below {a : Nat} : ∀ {m : List Host.Cell}, Memory.wfFrom a m = true → Memory.write m a Memory.unlisted = m
    | [], _ => by simp [Memory.write]
    | (k, b) :: m, hw => by
      simp only [Memory.wfFrom, Bool.and_eq_true, decide_eq_true_eq] at hw
      obtain ⟨⟨⟨hk, _⟩, _⟩, hm⟩ := hw
      unfold Memory.write
      have hne : ¬ a = k := by omega
      simp [hne, write_below (wfFrom_mono (by omega) hm : Memory.wfFrom a m = true)]

/-- Writing a byte at an address other than 0 keeps the canonical form. -/
theorem write_wf {m : List Host.Cell} {a : Word} (v : Byte) (ha : a ≠ 0#64) (h : Memory.wf m = true) :
    Memory.wf (Memory.write m a.toNat v) = true :=
  write_wfFrom v a.isLt (Nat.pos_of_ne_zero fun e => ha (BitVec.eq_of_toNat_eq e)) h

/-! ## Runs of bytes -/

@[simp] theorem readBytes_length (m : List Host.Cell) (a : Word) (n : Nat) : (Memory.readBytes m a n).length = n := by
  induction n generalizing a with
  | zero => rfl
  | succ n ih => simp [Memory.readBytes, ih]

/-- Address `a + k + 1` counted from `a` and from `a + 1`. -/
theorem offset_succ (a : Word) (k : Nat) : a + BitVec.ofNat 64 (k + 1) = a + 1#64 + BitVec.ofNat 64 k := by
  rw [BitVec.add_assoc]; congr 1; rw [Nat.add_comm, BitVec.ofNat_add]

/-- Byte `k` of a run read from memory is the byte at `(a + k) mod 2^64` (20_memory.md R47). -/
theorem readBytes_getElem (m : List Host.Cell) (a : Word) (n k : Nat) (h : k < (Memory.readBytes m a n).length) :
    (Memory.readBytes m a n)[k] = Memory.read m (a + BitVec.ofNat 64 k).toNat := by
  induction n generalizing a k with
  | zero => simp [Memory.readBytes] at h
  | succ n ih =>
    cases k with
    | zero => simp [Memory.readBytes]
    | succ k =>
      simp only [Memory.readBytes, List.getElem_cons_succ]
      rw [ih, ← offset_succ]

/-- Distinct offsets below 2^64 are distinct addresses. -/
theorem offset_inj {a : Word} {j k : Nat} (hj : j < 2 ^ 64) (hk : k < 2 ^ 64)
    (h : a + BitVec.ofNat 64 j = a + BitVec.ofNat 64 k) : j = k := by
  have h2 : BitVec.ofNat 64 j = BitVec.ofNat 64 k := by
    have := congrArg (fun x => x - a) h; simpa [BitVec.add_comm a, BitVec.add_sub_cancel] using this
  have h3 := congrArg BitVec.toNat h2
  rwa [BitVec.toNat_ofNat, BitVec.toNat_ofNat, Nat.mod_eq_of_lt hj, Nat.mod_eq_of_lt hk] at h3

/-- A byte outside a run of writes is left alone. -/
theorem read_writeSome_outside (bs : List (Option Byte)) (m : List Host.Cell) (a b : Word)
    (h : ∀ k < bs.length, b ≠ a + BitVec.ofNat 64 k) :
    Memory.read (Memory.writeSome m a bs) b.toNat = Memory.read m b.toNat := by
  induction bs generalizing m a with
  | nil => rfl
  | cons o bs ih =>
    have htail : ∀ k < bs.length, b ≠ a + 1#64 + BitVec.ofNat 64 k := fun k hk => by
      rw [← offset_succ]; exact h (k + 1) (by simpa using hk)
    have hhead : b ≠ a := by simpa using h 0 (by simp)
    cases o with
    | none => simpa [Memory.writeSome] using ih m (a + 1#64) htail
    | some v =>
      have hne : b.toNat ≠ a.toNat := fun e => hhead (BitVec.eq_of_toNat_eq e)
      simp [Memory.writeSome, ih _ (a + 1#64) htail, read_write, hne]

/-- A byte inside a run of writes, shorter than the address space, is what the run gives for it, if it gives one. -/
theorem read_writeSome_inside (bs : List (Option Byte)) (m : List Host.Cell) (a : Word) (k : Nat) (hk : k < bs.length)
    (hn : bs.length ≤ 2 ^ 64) :
    Memory.read (Memory.writeSome m a bs) (a + BitVec.ofNat 64 k).toNat =
      (bs[k]).getD (Memory.read m (a + BitVec.ofNat 64 k).toNat) := by
  induction bs generalizing m a k with
  | nil => simp at hk
  | cons o bs ih =>
    have hlen : bs.length + 1 ≤ 2 ^ 64 := by simpa using hn
    cases k with
    | zero =>
      have hout : ∀ j < bs.length, a ≠ a + 1#64 + BitVec.ofNat 64 j := fun j hj e => by
        rw [← offset_succ] at e
        have e' : a + BitVec.ofNat 64 0 = a + BitVec.ofNat 64 (j + 1) := by simpa using e
        have := offset_inj (by omega) (by omega) e'
        omega
      cases o with
      | none => simpa [Memory.writeSome] using read_writeSome_outside bs m (a + 1#64) a hout
      | some v =>
        simpa [Memory.writeSome, read_write] using
          read_writeSome_outside bs (Memory.write m a.toNat v) (a + 1#64) a hout
    | succ k =>
      have hk' : k < bs.length := by simpa using hk
      cases o with
      | none =>
        rw [Memory.writeSome, List.getElem_cons_succ, offset_succ a k]
        exact ih m (a + 1#64) k hk' (by omega)
      | some v =>
        rw [Memory.writeSome, List.getElem_cons_succ, offset_succ a k]
        rw [ih _ (a + 1#64) k hk' (by omega)]
        cases bs[k] with
        | some w => rfl
        | none =>
          have hne : (a + 1#64 + BitVec.ofNat 64 k).toNat ≠ a.toNat := fun e => by
            have e1 : a + BitVec.ofNat 64 (k + 1) = a + BitVec.ofNat 64 0 := by
              rw [offset_succ]; simpa using BitVec.eq_of_toNat_eq e
            have := offset_inj (by omega) (by omega) e1
            omega
          rw [Option.getD_none, Option.getD_none, read_write, if_neg hne]

/-- A run of writes that gives no byte for address 0 keeps the canonical form. -/
theorem writeSome_wf (bs : List (Option Byte)) (m : List Host.Cell) (a : Word) (hm : Memory.wf m = true)
    (h : ∀ (k : Nat) (hk : k < bs.length), bs[k] ≠ none → a + BitVec.ofNat 64 k ≠ 0#64) :
    Memory.wf (Memory.writeSome m a bs) = true := by
  induction bs generalizing m a with
  | nil => exact hm
  | cons o bs ih =>
    have htail : ∀ (k : Nat) (hk : k < bs.length), bs[k] ≠ none → a + 1#64 + BitVec.ofNat 64 k ≠ 0#64 := fun k hk hne => by
      rw [← offset_succ]; exact h (k + 1) (by simpa using hk) (by simpa using hne)
    cases o with
    | none => exact ih m (a + 1#64) hm htail
    | some v => exact ih _ (a + 1#64) (write_wf v (by simpa using h 0 (by simp) (by simp)) hm) htail

/-! ## Access checks -/

/-- Address 0 is never valid (20_memory.md R42). -/
theorem ne_zero_of_allows {s : State} {kind : AccessKind} {a : Word} (h : s.allows kind a = true) : a ≠ 0#64 := by
  simp only [State.allows, Bool.and_eq_true, bne_iff_ne] at h; exact h.1

/-- The addresses listed as failing are those of the access that are not permitted. -/
theorem mem_failing {s : State} {kind : AccessKind} {a x : Word} {n : Nat} :
    x ∈ s.failing kind a n ↔ s.allows kind x = false ∧ ∃ k < n, x = a + BitVec.ofNat 64 k := by
  induction n generalizing a with
  | zero => simp [State.failing]
  | succ n ih =>
    have hsplit : (∃ k < n + 1, x = a + BitVec.ofNat 64 k) ↔ x = a ∨ ∃ k < n, x = a + 1#64 + BitVec.ofNat 64 k := by
      constructor
      · rintro ⟨k, hk, rfl⟩
        cases k with
        | zero => exact .inl (by simp)
        | succ k => exact .inr ⟨k, by omega, offset_succ a k⟩
      · rintro (rfl | ⟨k, hk, rfl⟩)
        · exact ⟨0, by omega, by simp⟩
        · exact ⟨k + 1, by omega, (offset_succ a k).symm⟩
    rw [hsplit]
    unfold State.failing
    by_cases hx : s.allows kind a = true
    · simp only [hx, if_true, ih]
      constructor
      · rintro ⟨h1, h2⟩; exact ⟨h1, .inr h2⟩
      · rintro ⟨h1, rfl | h2⟩
        · rw [hx] at h1; cases h1
        · exact ⟨h1, h2⟩
    · simp only [hx, if_false, List.mem_cons, ih, Bool.false_eq_true]
      constructor
      · rintro (rfl | ⟨h1, h2⟩)
        · exact ⟨by simpa using hx, .inl rfl⟩
        · exact ⟨h1, .inr h2⟩
      · rintro ⟨h1, rfl | h2⟩
        · exact .inl rfl
        · exact .inr ⟨h1, h2⟩

/-- An access check passes exactly when every byte is permitted (20_memory.md R46). -/
theorem faultAddress_eq_none {s : State} {kind : AccessKind} {a : Word} {n : Nat} :
    s.faultAddress kind a n = none ↔ ∀ k < n, s.allows kind (a + BitVec.ofNat 64 k) = true := by
  have hempty : s.faultAddress kind a n = none ↔ s.failing kind a n = [] := by
    unfold State.faultAddress; split <;> simp_all
  rw [hempty, List.eq_nil_iff_forall_not_mem]
  constructor
  · intro h k hk
    by_contra hc
    exact h _ (mem_failing.2 ⟨by simpa using hc, k, hk, rfl⟩)
  · intro h x hx
    obtain ⟨h1, k, hk, rfl⟩ := mem_failing.1 hx
    rw [h k hk] at h1; cases h1

/-- A failed check reports one of the bytes that are not permitted (60_exceptions.md R378). -/
theorem faultAddress_eq_some {s : State} {kind : AccessKind} {a x : Word} {n : Nat} (h : s.faultAddress kind a n = some x) :
    s.allows kind x = false ∧ ∃ k < n, x = a + BitVec.ofNat 64 k := by
  apply mem_failing.1
  unfold State.faultAddress at h
  split at h
  · cases h
  · rename_i y hy; cases h; simp [hy]
  · rename_i y z rest hy
    cases h
    have hlt : Config.faultIndex s.draws % (rest.length + 2) < (y :: z :: rest).length :=
      Nat.mod_lt (Config.faultIndex s.draws) (by omega : rest.length + 2 > 0)
    rw [hy, List.getD_eq_getElem _ _ hlt]
    exact List.getElem_mem hlt

/-- A check with a byte that is not permitted fails. -/
theorem exists_faultAddress {s : State} {kind : AccessKind} {a : Word} {n : Nat}
    (h : ∃ k < n, s.allows kind (a + BitVec.ofNat 64 k) = false) : ∃ x, s.faultAddress kind a n = some x := by
  cases hf : s.faultAddress kind a n with
  | some x => exact ⟨x, rfl⟩
  | none =>
    obtain ⟨k, hk, hb⟩ := h
    rw [faultAddress_eq_none.1 hf k hk] at hb; cases hb

end Sys2Proof.Machine
end

