-- ==== Sys2Proof/Laws/State.lean ====
section
/-! SUPPORT. What each update of the state does to each field, and what the registers read after it. -/

namespace Sys2Proof.Machine

open Sys2Proof

/-! ## Updates of the program counter, the status and the counter of choices -/

section Fields

variable (s : State) (len : Nat) (a : Word) (e : Exn) (k : AccessKind) (t : Trap)

@[simp] theorem advance_pc : (s.advance len).pc = s.pc + BitVec.ofNat 64 len := rfl
@[simp] theorem advance_regs : (s.advance len).regs = s.regs := rfl
@[simp] theorem advance_mem : (s.advance len).mem = s.mem := rfl
@[simp] theorem advance_memMap : (s.advance len).memMap = s.memMap := rfl
@[simp] theorem advance_status : (s.advance len).status = s.status := rfl
@[simp] theorem advance_host : (s.advance len).host = s.host := rfl
@[simp] theorem advance_draws : (s.advance len).draws = s.draws := rfl
@[simp] theorem advance_reg (r : RegNum) : (s.advance len).reg r = s.reg r := rfl
@[simp] theorem advance_byteAt (b : Word) : (s.advance len).byteAt b = s.byteAt b := rfl

@[simp] theorem jump_pc : (s.jump a).pc = a := rfl
@[simp] theorem jump_regs : (s.jump a).regs = s.regs := rfl
@[simp] theorem jump_mem : (s.jump a).mem = s.mem := rfl
@[simp] theorem jump_memMap : (s.jump a).memMap = s.memMap := rfl
@[simp] theorem jump_status : (s.jump a).status = s.status := rfl
@[simp] theorem jump_host : (s.jump a).host = s.host := rfl
@[simp] theorem jump_draws : (s.jump a).draws = s.draws := rfl
@[simp] theorem jump_reg (r : RegNum) : (s.jump a).reg r = s.reg r := rfl
@[simp] theorem jump_byteAt (b : Word) : (s.jump a).byteAt b = s.byteAt b := rfl

@[simp] theorem raise_pc : (s.raise e).pc = s.pc := rfl
@[simp] theorem raise_regs : (s.raise e).regs = s.regs := rfl
@[simp] theorem raise_mem : (s.raise e).mem = s.mem := rfl
@[simp] theorem raise_memMap : (s.raise e).memMap = s.memMap := rfl
@[simp] theorem raise_status : (s.raise e).status = .faulted e := rfl
@[simp] theorem raise_host : (s.raise e).host = s.host := rfl
@[simp] theorem raise_draws : (s.raise e).draws = s.draws := rfl
@[simp] theorem raise_reg (r : RegNum) : (s.raise e).reg r = s.reg r := rfl
@[simp] theorem raise_byteAt (b : Word) : (s.raise e).byteAt b = s.byteAt b := rfl

@[simp] theorem raiseAccess_pc : (s.raiseAccess k a).pc = s.pc := rfl
@[simp] theorem raiseAccess_regs : (s.raiseAccess k a).regs = s.regs := rfl
@[simp] theorem raiseAccess_mem : (s.raiseAccess k a).mem = s.mem := rfl
@[simp] theorem raiseAccess_memMap : (s.raiseAccess k a).memMap = s.memMap := rfl
@[simp] theorem raiseAccess_status : (s.raiseAccess k a).status = .faulted (.memoryAccessFault k a) := rfl
@[simp] theorem raiseAccess_host : (s.raiseAccess k a).host = s.host := rfl
@[simp] theorem raiseAccess_draws : (s.raiseAccess k a).draws = s.draws + 1 := rfl
@[simp] theorem raiseAccess_reg (r : RegNum) : (s.raiseAccess k a).reg r = s.reg r := rfl
@[simp] theorem raiseAccess_byteAt (b : Word) : (s.raiseAccess k a).byteAt b = s.byteAt b := rfl

@[simp] theorem trap_pc : (s.trap t).pc = s.pc + 1#64 := rfl
@[simp] theorem trap_regs : (s.trap t).regs = s.regs := rfl
@[simp] theorem trap_mem : (s.trap t).mem = s.mem := rfl
@[simp] theorem trap_memMap : (s.trap t).memMap = s.memMap := rfl
@[simp] theorem trap_status : (s.trap t).status = .trapped t := rfl
@[simp] theorem trap_host : (s.trap t).host = s.host := rfl
@[simp] theorem trap_draws : (s.trap t).draws = s.draws := rfl
@[simp] theorem trap_reg (r : RegNum) : (s.trap t).reg r = s.reg r := rfl
@[simp] theorem trap_byteAt (b : Word) : (s.trap t).byteAt b = s.byteAt b := rfl

@[simp] theorem halt_pc : s.halt.pc = s.pc + 1#64 := rfl
@[simp] theorem halt_regs : s.halt.regs = s.regs := rfl
@[simp] theorem halt_mem : s.halt.mem = s.mem := rfl
@[simp] theorem halt_memMap : s.halt.memMap = s.memMap := rfl
@[simp] theorem halt_status : s.halt.status = .halted := rfl
@[simp] theorem halt_host : s.halt.host = s.host := rfl
@[simp] theorem halt_draws : s.halt.draws = s.draws := rfl
@[simp] theorem halt_reg (r : RegNum) : s.halt.reg r = s.reg r := rfl
@[simp] theorem halt_byteAt (b : Word) : s.halt.byteAt b = s.byteAt b := rfl

end Fields

/-! ## Writing a register -/

section Registers

variable (s : State) (r : RegNum) (v : Word)

@[simp] theorem setReg_pc : (s.setReg r v).pc = s.pc := by unfold State.setReg; split <;> rfl
@[simp] theorem setReg_mem : (s.setReg r v).mem = s.mem := by unfold State.setReg; split <;> rfl
@[simp] theorem setReg_memMap : (s.setReg r v).memMap = s.memMap := by unfold State.setReg; split <;> rfl
@[simp] theorem setReg_status : (s.setReg r v).status = s.status := by unfold State.setReg; split <;> rfl
@[simp] theorem setReg_host : (s.setReg r v).host = s.host := by unfold State.setReg; split <;> rfl
@[simp] theorem setReg_draws : (s.setReg r v).draws = s.draws := by unfold State.setReg; split <;> rfl
@[simp] theorem setReg_byteAt (b : Word) : (s.setReg r v).byteAt b = s.byteAt b := by simp [State.byteAt]

/-- Register 0 reads 0 (10_state.md R22). -/
@[simp] theorem reg_zero : s.reg 0#8 = 0#64 := by simp [State.reg]

/-- A register reads what was last written to it; register 0 discards the write (R22). -/
theorem reg_setReg (r' : RegNum) : (s.setReg r v).reg r' = if r' = r ∧ r' ≠ 0#8 then v else s.reg r' := by
  by_cases h0 : r' = 0#8
  · subst h0; simp
  · by_cases hr : r = 0#8
    · subst hr; simp [State.setReg, h0]
    · by_cases h : r' = r
      · subst h; simp [State.setReg, State.reg, h0]
      · have hn : r.toNat ≠ r'.toNat := fun e => h (BitVec.eq_of_toNat_eq e.symm)
        simp [State.setReg, State.reg, h0, hr, h, Vector.getElem_set_ne, hn]

/-- Two states whose registers all read the same have the same register bytes. -/
theorem regByte_congr {s t : State} (h : ∀ r, t.reg r = s.reg r) (j : Nat) : t.regByte j = s.regByte j := by
  simp [State.regByte, h]

/-- The element behind register 0 keeps its value. -/
theorem setReg_element_zero : (s.setReg r v).regs[0] = s.regs[0] := by
  unfold State.setReg
  split
  · rfl
  · rename_i h
    have : r.toNat ≠ 0 := fun e => h (BitVec.eq_of_toNat_eq e)
    simp [Vector.getElem_set_ne, this]

end Registers

/-! ## Writing a register at a width -/

section Narrow

variable {n : Nat} (s : State) (r : RegNum) (v : BitVec n)

@[simp] theorem setNarrow_pc : (s.setNarrow r v).pc = s.pc := setReg_pc ..
@[simp] theorem setNarrow_mem : (s.setNarrow r v).mem = s.mem := setReg_mem ..
@[simp] theorem setNarrow_memMap : (s.setNarrow r v).memMap = s.memMap := setReg_memMap ..
@[simp] theorem setNarrow_status : (s.setNarrow r v).status = s.status := setReg_status ..
@[simp] theorem setNarrow_host : (s.setNarrow r v).host = s.host := setReg_host ..
@[simp] theorem setNarrow_draws : (s.setNarrow r v).draws = s.draws := setReg_draws ..
@[simp] theorem setNarrow_byteAt (b : Word) : (s.setNarrow r v).byteAt b = s.byteAt b := setReg_byteAt ..

/-- The bits above the width read 0 (10_state.md R23). -/
theorem reg_setNarrow (r' : RegNum) :
    (s.setNarrow r v).reg r' = if r' = r ∧ r' ≠ 0#8 then v.setWidth 64 else s.reg r' := reg_setReg ..

theorem setNarrow_element_zero : (s.setNarrow r v).regs[0] = s.regs[0] := setReg_element_zero ..

end Narrow

end Sys2Proof.Machine
end

