-- ==== Sys2Proof/Laws/Ops.lean ====
section
/-! SUPPORT. What each shared operation of Machine/Ops.lean can do, said once: the register file as bytes, loads, stores, block copies, the host's acts. -/

namespace Sys2Proof.Machine

open Sys2Proof

/-! ## Bytes of a word (00_scope.md R12) -/

/-- Replacing byte `i` of a word changes that byte alone. -/
theorem wordByte_setWordByte (w : Word) {i j : Nat} (b : Byte) (hi : i < 8) (hj : j < 8) :
    wordByte (setWordByte w i b) j = if j = i then b else wordByte w j := by
  apply BitVec.eq_of_getLsbD_eq
  intro k hk
  interval_cases i <;> interval_cases j <;>
    simp [wordByte, setWordByte, BitVec.getLsbD_extractLsb', BitVec.getLsbD_or, BitVec.getLsbD_and] <;>
    interval_cases k <;> simp

/-- A word is its eight bytes. -/
theorem word_ext {v w : Word} (h : ∀ i < 8, wordByte v i = wordByte w i) : v = w := by
  apply BitVec.eq_of_getLsbD_eq
  intro k hk
  have h8 := congrArg (fun x : Byte => x.getLsbD (k % 8)) (h (k / 8) (by omega))
  have hk8 : k % 8 < 8 := by omega
  have hsum : 8 * (k / 8) + k % 8 = k := by omega
  simpa [wordByte, BitVec.getLsbD_extractLsb', hk8, hsum] using h8

/-! ## The register file as bytes -/

/-- Two register numbers below 256 are equal when their numerals are. -/
theorem ofNat8_inj {a b : Nat} (ha : a < 256) (hb : b < 256) : BitVec.ofNat 8 a = BitVec.ofNat 8 b ↔ a = b := by
  constructor
  · intro h
    have := congrArg BitVec.toNat h
    rwa [BitVec.toNat_ofNat, BitVec.toNat_ofNat, Nat.mod_eq_of_lt ha, Nat.mod_eq_of_lt hb] at this
  · rintro rfl; rfl

/-- Writing byte `j` of the register file changes that byte alone, and not in register 0. -/
theorem regByte_setRegByte (s : State) {j k : Nat} (b : Byte) (hj : j < 2048) (hk : k < 2048) :
    (s.setRegByte j b).regByte k = if k = j ∧ 8 ≤ k then b else s.regByte k := by
  unfold State.regByte State.setRegByte
  rw [reg_setReg]
  have hzero : BitVec.ofNat 8 (k / 8) = 0#8 ↔ k / 8 = 0 := ofNat8_inj (by omega) (by omega)
  by_cases hr : k / 8 = j / 8
  · rw [hr]
    by_cases h0 : j / 8 = 0
    · have h8 : ¬ 8 ≤ k := by omega
      simp [h0, h8]
    · have hne : BitVec.ofNat 8 (j / 8) ≠ 0#8 := fun e => h0 (by rw [← hr]; exact hzero.1 (by rw [hr]; exact e))
      rw [if_pos ⟨rfl, hne⟩, wordByte_setWordByte _ _ (Nat.mod_lt _ (by omega)) (Nat.mod_lt _ (by omega))]
      have h8 : 8 ≤ k := by omega
      have hiff : (k % 8 = j % 8) ↔ k = j := by omega
      simp [hiff, h8]
  · have hne : BitVec.ofNat 8 (k / 8) ≠ BitVec.ofNat 8 (j / 8) := fun e => hr ((ofNat8_inj (by omega) (by omega)).1 e)
    have hkj : k ≠ j := fun e => hr (by rw [e])
    simp [hne, hkj]

section RegisterBytes

variable (s : State) (j : Nat)

@[simp] theorem setRegByte_pc (b : Byte) : (s.setRegByte j b).pc = s.pc := setReg_pc ..
@[simp] theorem setRegByte_mem (b : Byte) : (s.setRegByte j b).mem = s.mem := setReg_mem ..
@[simp] theorem setRegByte_memMap (b : Byte) : (s.setRegByte j b).memMap = s.memMap := setReg_memMap ..
@[simp] theorem setRegByte_status (b : Byte) : (s.setRegByte j b).status = s.status := setReg_status ..
@[simp] theorem setRegByte_host (b : Byte) : (s.setRegByte j b).host = s.host := setReg_host ..
@[simp] theorem setRegByte_draws (b : Byte) : (s.setRegByte j b).draws = s.draws := setReg_draws ..

@[simp] theorem setRegBytes_pc (bs : List Byte) : (s.setRegBytes j bs).pc = s.pc := by
  induction bs generalizing s j with
  | nil => rfl
  | cons b bs ih => simp [State.setRegBytes, ih]

@[simp] theorem setRegBytes_mem (bs : List Byte) : (s.setRegBytes j bs).mem = s.mem := by
  induction bs generalizing s j with
  | nil => rfl
  | cons b bs ih => simp [State.setRegBytes, ih]

@[simp] theorem setRegBytes_memMap (bs : List Byte) : (s.setRegBytes j bs).memMap = s.memMap := by
  induction bs generalizing s j with
  | nil => rfl
  | cons b bs ih => simp [State.setRegBytes, ih]

@[simp] theorem setRegBytes_status (bs : List Byte) : (s.setRegBytes j bs).status = s.status := by
  induction bs generalizing s j with
  | nil => rfl
  | cons b bs ih => simp [State.setRegBytes, ih]

@[simp] theorem setRegBytes_host (bs : List Byte) : (s.setRegBytes j bs).host = s.host := by
  induction bs generalizing s j with
  | nil => rfl
  | cons b bs ih => simp [State.setRegBytes, ih]

@[simp] theorem setRegBytes_draws (bs : List Byte) : (s.setRegBytes j bs).draws = s.draws := by
  induction bs generalizing s j with
  | nil => rfl
  | cons b bs ih => simp [State.setRegBytes, ih]

@[simp] theorem setRegBytes_byteAt (bs : List Byte) (a : Word) : (s.setRegBytes j bs).byteAt a = s.byteAt a := by
  simp [State.byteAt]

theorem setRegBytes_element_zero (bs : List Byte) : (s.setRegBytes j bs).regs[0] = s.regs[0] := by
  induction bs generalizing s j with
  | nil => rfl
  | cons b bs ih => rw [State.setRegBytes, ih]; exact setReg_element_zero ..

/-- A run of bytes written into the register file: each byte of the run outside register 0, and no other. -/
theorem regByte_setRegBytes (bs : List Byte) {k : Nat} (hj : j + bs.length ≤ 2048) (hk : k < 2048) :
    (s.setRegBytes j bs).regByte k =
      if h : j ≤ k ∧ k < j + bs.length ∧ 8 ≤ k then bs[k - j]'(by omega) else s.regByte k := by
  induction bs generalizing s j with
  | nil => rw [dif_neg (by simp; omega)]; rfl
  | cons b bs ih =>
    have hlen : (b :: bs).length = bs.length + 1 := rfl
    rw [State.setRegBytes, ih _ _ (by omega), regByte_setRegByte _ _ (by omega) hk]
    by_cases h1 : j + 1 ≤ k ∧ k < j + 1 + bs.length ∧ 8 ≤ k
    · rw [dif_pos h1, dif_pos (by omega)]
      have : k - j = k - (j + 1) + 1 := by omega
      simp [this]
    · rw [dif_neg h1]
      by_cases h2 : k = j ∧ 8 ≤ k
      · obtain ⟨rfl, h8⟩ := h2
        rw [if_pos ⟨rfl, h8⟩, dif_pos (by omega)]
        simp
      · rw [if_neg h2, dif_neg (by omega)]

/-- A register none of whose bytes lies in the run keeps its value. -/
theorem reg_setRegBytes_outside (bs : List Byte) (r : RegNum) (hj : j + bs.length ≤ 2048)
    (h : 8 * r.toNat + 8 ≤ j ∨ j + bs.length ≤ 8 * r.toNat) : (s.setRegBytes j bs).reg r = s.reg r := by
  apply word_ext
  intro i hi
  have hr := r.isLt
  have hb := regByte_setRegBytes s j bs (k := 8 * r.toNat + i) hj (by omega)
  rw [dif_neg (by omega)] at hb
  have hdiv : (8 * r.toNat + i) / 8 = r.toNat := by omega
  have hmod : (8 * r.toNat + i) % 8 = i := by omega
  simpa [State.regByte, hdiv, hmod] using hb

@[simp] theorem regBytes_length (n : Nat) : (s.regBytes j n).length = n := by
  induction n generalizing j with
  | zero => rfl
  | succ n ih => simp [State.regBytes, ih]

theorem regBytes_getElem (n k : Nat) (h : k < (s.regBytes j n).length) : (s.regBytes j n)[k] = s.regByte (j + k) := by
  induction n generalizing j k with
  | zero => simp at h
  | succ n ih =>
    cases k with
    | zero => simp [State.regBytes]
    | succ k => simp only [State.regBytes, List.getElem_cons_succ]; rw [ih]; congr 1; omega

end RegisterBytes

/-! ## Runs of registers -/

section RegisterRuns

variable (s : State) (r : Nat)

@[simp] theorem setRegRun_pc (vs : List Word) : (s.setRegRun r vs).pc = s.pc := by
  induction vs generalizing s r with
  | nil => rfl
  | cons v vs ih => simp [State.setRegRun, ih]

@[simp] theorem setRegRun_mem (vs : List Word) : (s.setRegRun r vs).mem = s.mem := by
  induction vs generalizing s r with
  | nil => rfl
  | cons v vs ih => simp [State.setRegRun, ih]

@[simp] theorem setRegRun_memMap (vs : List Word) : (s.setRegRun r vs).memMap = s.memMap := by
  induction vs generalizing s r with
  | nil => rfl
  | cons v vs ih => simp [State.setRegRun, ih]

@[simp] theorem setRegRun_status (vs : List Word) : (s.setRegRun r vs).status = s.status := by
  induction vs generalizing s r with
  | nil => rfl
  | cons v vs ih => simp [State.setRegRun, ih]

@[simp] theorem setRegRun_host (vs : List Word) : (s.setRegRun r vs).host = s.host := by
  induction vs generalizing s r with
  | nil => rfl
  | cons v vs ih => simp [State.setRegRun, ih]

@[simp] theorem setRegRun_draws (vs : List Word) : (s.setRegRun r vs).draws = s.draws := by
  induction vs generalizing s r with
  | nil => rfl
  | cons v vs ih => simp [State.setRegRun, ih]

@[simp] theorem setRegRun_byteAt (vs : List Word) (a : Word) : (s.setRegRun r vs).byteAt a = s.byteAt a := by
  simp [State.byteAt]

theorem setRegRun_element_zero (vs : List Word) : (s.setRegRun r vs).regs[0] = s.regs[0] := by
  induction vs generalizing s r with
  | nil => rfl
  | cons v vs ih => rw [State.setRegRun, ih]; exact setReg_element_zero ..

@[simp] theorem regRun_length (n : Nat) : (s.regRun r n).length = n := by
  induction n generalizing r with
  | zero => rfl
  | succ n ih => simp [State.regRun, ih]

theorem regRun_getElem (n k : Nat) (h : k < (s.regRun r n).length) :
    (s.regRun r n)[k] = s.reg (BitVec.ofNat 8 (r + k)) := by
  induction n generalizing r k with
  | zero => simp at h
  | succ n ih =>
    cases k with
    | zero => simp [State.regRun]
    | succ k =>
      simp only [State.regRun, List.getElem_cons_succ]; rw [ih]
      have : r + 1 + k = r + (k + 1) := by omega
      rw [this]

/-- A run of registers written: each register of the run but register 0, and no other. -/
theorem reg_setRegRun (vs : List Word) (r' : RegNum) (hr : r + vs.length ≤ 256) :
    (s.setRegRun r vs).reg r' =
      if h : r ≤ r'.toNat ∧ r'.toNat < r + vs.length ∧ r' ≠ 0#8 then vs[r'.toNat - r]'(by omega) else s.reg r' := by
  induction vs generalizing s r with
  | nil => rw [dif_neg (by simp; omega)]; rfl
  | cons v vs ih =>
    have hlen : (v :: vs).length = vs.length + 1 := rfl
    have hiff : r' = BitVec.ofNat 8 r ↔ r'.toNat = r := by
      constructor
      · rintro rfl; exact Nat.mod_eq_of_lt (by omega)
      · intro h; rw [← h, BitVec.ofNat_toNat, BitVec.setWidth_eq]
    rw [State.setRegRun, ih _ _ (by omega), reg_setReg]
    by_cases h1 : r + 1 ≤ r'.toNat ∧ r'.toNat < r + 1 + vs.length ∧ r' ≠ 0#8
    · rw [dif_pos h1, dif_pos ⟨by omega, by omega, h1.2.2⟩]
      have : r'.toNat - r = r'.toNat - (r + 1) + 1 := by omega
      simp [this]
    · rw [dif_neg h1]
      by_cases h2 : r' = BitVec.ofNat 8 r ∧ r' ≠ 0#8
      · have heq := hiff.1 h2.1
        rw [if_pos h2, dif_pos ⟨by omega, by omega, h2.2⟩]
        simp [heq]
      · rw [if_neg h2, dif_neg]
        rintro ⟨h3, h4, h5⟩
        by_cases heq : r'.toNat = r
        · exact h2 ⟨hiff.2 heq, h5⟩
        · exact h1 ⟨by omega, by omega, h5⟩

end RegisterRuns

/-! ## Loads and stores -/

/-- A load either completes, or its run of registers is too long, or a byte is not readable. -/
theorem load_cases (s : State) (r : RegNum) (addr : Word) (size : BitVec 16) (len : Nat) :
    (2048 < 8 * r.toNat + size.toNat ∧ s.load r addr size len = .next (s.raise (.invalidOperand .registerRange))) ∨
    (8 * r.toNat + size.toNat ≤ 2048 ∧ ∃ a, s.allows .read a = false ∧ (∃ k < size.toNat, a = addr + BitVec.ofNat 64 k) ∧
      s.load r addr size len = .next (s.raiseAccess .read a)) ∨
    (8 * r.toNat + size.toNat ≤ 2048 ∧ (∀ k < size.toNat, s.allows .read (addr + BitVec.ofNat 64 k) = true) ∧
      s.load r addr size len =
        .next ((s.setRegBytes (8 * r.toNat) (Memory.readBytes s.mem addr size.toNat)).advance len)) := by
  unfold State.load pastLastRegister
  by_cases h : 2048 < 8 * r.toNat + size.toNat
  · exact .inl ⟨h, by simp [h]⟩
  · refine .inr ?_
    cases hf : s.faultAddress .read addr size.toNat with
    | some a =>
      obtain ⟨h1, h2⟩ := faultAddress_eq_some hf
      exact .inl ⟨by omega, a, h1, h2, by simp [h]⟩
    | none => exact .inr ⟨by omega, faultAddress_eq_none.1 hf, by simp [h]⟩

/-- Storing bytes either completes or a byte of the range is not writable. -/
theorem storeBytes_cases (s : State) (addr : Word) (bytes : List Byte) (len : Nat) :
    (∃ a, s.allows .write a = false ∧ (∃ k < bytes.length, a = addr + BitVec.ofNat 64 k) ∧
      s.storeBytes addr bytes len = .next (s.faultStoring .write a addr (bytes.map some))) ∨
    ((∀ k < bytes.length, s.allows .write (addr + BitVec.ofNat 64 k) = true) ∧
      s.storeBytes addr bytes len =
        .next (({ s with mem := Memory.writeBytes s.mem addr bytes } : State).advance len)) := by
  unfold State.storeBytes
  cases hf : s.faultAddress .write addr bytes.length with
  | some a =>
    obtain ⟨h1, h2⟩ := faultAddress_eq_some hf
    exact .inl ⟨a, h1, h2, rfl⟩
  | none => exact .inr ⟨faultAddress_eq_none.1 hf, rfl⟩

/-- A store has too long a run of registers, or stores the bytes of the run. -/
theorem store_cases (s : State) (r : RegNum) (addr : Word) (size : BitVec 16) (len : Nat) :
    (2048 < 8 * r.toNat + size.toNat ∧ s.store r addr size len = .next (s.raise (.invalidOperand .registerRange))) ∨
    (8 * r.toNat + size.toNat ≤ 2048 ∧
      s.store r addr size len = s.storeBytes addr (s.regBytes (8 * r.toNat) size.toNat) len) := by
  unfold State.store pastLastRegister
  by_cases h : 2048 < 8 * r.toNat + size.toNat
  · exact .inl ⟨h, by simp [h]⟩
  · exact .inr ⟨by omega, by simp [h]⟩

/-- A block copy finds a source byte that is not readable, or stores what it has read. -/
theorem copyBlock_cases (s : State) (src dst : Word) (n len : Nat) :
    (∃ a, s.allows .read a = false ∧ (∃ k < n, a = src + BitVec.ofNat 64 k) ∧
      s.copyBlock src dst n len = .next (s.faultStoring .read a dst (s.readableBytes src n))) ∨
    ((∀ k < n, s.allows .read (src + BitVec.ofNat 64 k) = true) ∧
      s.copyBlock src dst n len = s.storeBytes dst (Memory.readBytes s.mem src n) len) := by
  unfold State.copyBlock
  cases hf : s.faultAddress .read src n with
  | some a =>
    obtain ⟨h1, h2⟩ := faultAddress_eq_some hf
    exact .inl ⟨a, h1, h2, rfl⟩
  | none => exact .inr ⟨faultAddress_eq_none.1 hf, rfl⟩

/-- A copy of registers has too long a run, or copies it. -/
theorem copyRegs_cases (s : State) (rs rt : RegNum) (n len : Nat) :
    ((256 < rs.toNat + n ∨ 256 < rt.toNat + n) ∧
      s.copyRegs rs rt n len = .next (s.raise (.invalidOperand .registerRange))) ∨
    (rs.toNat + n ≤ 256 ∧ rt.toNat + n ≤ 256 ∧
      s.copyRegs rs rt n len = .next ((s.setRegRun rt.toNat (s.regRun rs.toNat n)).advance len)) := by
  unfold State.copyRegs
  by_cases h : 256 < rs.toNat + n ∨ 256 < rt.toNat + n
  · exact .inl ⟨h, by simp [h]⟩
  · exact .inr ⟨by omega, by omega, by simp [h]⟩

/-! ## What a faulting store leaves (60_exceptions.md R368) -/

@[simp] theorem partialStore_length (s : State) (a : Word) (k : Nat) (bs : List (Option Byte)) :
    (s.partialStore a k bs).length = bs.length := by
  induction bs generalizing a k with
  | nil => rfl
  | cons b bs ih => simp [State.partialStore, ih]

/-- A byte of a faulting store is left, or it is writable and gets the byte it was to get. -/
theorem partialStore_getElem (s : State) (a : Word) (k i : Nat) (bs : List (Option Byte))
    (h : i < (s.partialStore a k bs).length) :
    (s.partialStore a k bs)[i] = none ∨
      s.allows .write (a + BitVec.ofNat 64 i) = true ∧ (s.partialStore a k bs)[i] = bs[i]'(by simpa using h) := by
  induction bs generalizing a k i with
  | nil => simp [State.partialStore] at h
  | cons b bs ih =>
    cases i with
    | zero =>
      simp only [State.partialStore, List.getElem_cons_zero]
      by_cases hc : (s.allows .write a && Config.partialWrite s.draws k) = true
      · rw [if_pos hc]
        rw [Bool.and_eq_true] at hc
        exact .inr ⟨by simpa using hc.1, rfl⟩
      · exact .inl (if_neg hc)
    | succ i =>
      simp only [State.partialStore, List.getElem_cons_succ]
      have := ih (a + 1#64) (k + 1) i (by simpa [State.partialStore] using h)
      rwa [← offset_succ] at this

@[simp] theorem faultStoring_pc (s : State) (k : AccessKind) (a d : Word) (bs : List (Option Byte)) :
    (s.faultStoring k a d bs).pc = s.pc := rfl
@[simp] theorem faultStoring_regs (s : State) (k : AccessKind) (a d : Word) (bs : List (Option Byte)) :
    (s.faultStoring k a d bs).regs = s.regs := rfl
@[simp] theorem faultStoring_reg (s : State) (k : AccessKind) (a d : Word) (bs : List (Option Byte)) (r : RegNum) :
    (s.faultStoring k a d bs).reg r = s.reg r := rfl
@[simp] theorem faultStoring_memMap (s : State) (k : AccessKind) (a d : Word) (bs : List (Option Byte)) :
    (s.faultStoring k a d bs).memMap = s.memMap := rfl
@[simp] theorem faultStoring_status (s : State) (k : AccessKind) (a d : Word) (bs : List (Option Byte)) :
    (s.faultStoring k a d bs).status = .faulted (.memoryAccessFault k a) := rfl
@[simp] theorem faultStoring_host (s : State) (k : AccessKind) (a d : Word) (bs : List (Option Byte)) :
    (s.faultStoring k a d bs).host = s.host := rfl
@[simp] theorem faultStoring_draws (s : State) (k : AccessKind) (a d : Word) (bs : List (Option Byte)) :
    (s.faultStoring k a d bs).draws = s.draws + 1 := rfl
theorem faultStoring_mem (s : State) (k : AccessKind) (a d : Word) (bs : List (Option Byte)) :
    (s.faultStoring k a d bs).mem = Memory.writeSome s.mem d (s.partialStore d 0 bs) := rfl

@[simp] theorem readableBytes_length (s : State) (a : Word) (n : Nat) : (s.readableBytes a n).length = n := by
  induction n generalizing a with
  | zero => rfl
  | succ n ih => simp [State.readableBytes, ih]

/-- A source byte of a block copy is there when it is readable. -/
theorem readableBytes_getElem (s : State) (a : Word) (n k : Nat) (h : k < (s.readableBytes a n).length) :
    (s.readableBytes a n)[k] =
      if s.allows .read (a + BitVec.ofNat 64 k) then some (s.byteAt (a + BitVec.ofNat 64 k)) else none := by
  induction n generalizing a k with
  | zero => simp at h
  | succ n ih =>
    cases k with
    | zero => simp [State.readableBytes, State.byteAt]
    | succ k => simp only [State.readableBytes, List.getElem_cons_succ]; rw [ih, ← offset_succ]

/-- What a faulting store leaves keeps the canonical form. -/
theorem faultStoring_wf (s : State) (k : AccessKind) (a d : Word) (bs : List (Option Byte)) (h : Memory.wf s.mem = true) :
    Memory.wf (s.faultStoring k a d bs).mem = true := by
  refine writeSome_wf _ _ _ h fun i hi hne => ?_
  rcases partialStore_getElem s d 0 i bs hi with h1 | ⟨h1, _⟩
  · exact absurd h1 hne
  · exact ne_zero_of_allows h1

/-- What a completed store leaves keeps the canonical form. -/
theorem writeBytes_wf {s : State} {addr : Word} {bytes : List Byte} (h : Memory.wf s.mem = true)
    (hall : ∀ k < bytes.length, s.allows .write (addr + BitVec.ofNat 64 k) = true) :
    Memory.wf (Memory.writeBytes s.mem addr bytes) = true := by
  refine writeSome_wf _ _ _ h fun i hi _ => ne_zero_of_allows (hall i (by simpa using hi))

/-! ## The host's acts (60_exceptions.md R369) -/

/-- An act of the host keeps the canonical form of memory. -/
theorem hostAct_wf (s : State) (act : HostAct) (h : Memory.wf s.mem = true) : Memory.wf (s.hostAct act).mem = true := by
  cases act with
  | setReg r v => simpa [State.hostAct] using h
  | setPc a => exact h
  | setByte a b =>
    unfold State.hostAct
    by_cases ha : a = 0#64
    · simpa [ha] using h
    · simpa [ha] using write_wf b ha h
  | setMemMap m => exact h
  | resume => exact h

/-- An act of the host keeps the element behind register 0. -/
theorem hostAct_element_zero (s : State) (act : HostAct) : (s.hostAct act).regs[0] = s.regs[0] := by
  cases act with
  | setReg r v => exact setReg_element_zero ..
  | setPc a => rfl
  | setByte a b => unfold State.hostAct; by_cases ha : a = 0#64 <;> simp [ha]
  | setMemMap m => rfl
  | resume => rfl

end Sys2Proof.Machine
end

