-- ==== Sys2Proof/Laws/Safety.lean ====
section
/-! SUPPORT. How the shapes of Safety.lean come out of the shared operations, and the arithmetic of low bits and signed readings. -/

namespace Sys2Proof.Machine

open Sys2Proof

/-! ## Frames -/

/-- A state differs from itself in nothing. -/
theorem SameRest.refl (s : State) : SameRest s s := ⟨fun _ => rfl, rfl, rfl, rfl, rfl⟩

/-- Writing a register leaves memory and all but the registers. -/
theorem sameRest_setReg (s : State) (r : RegNum) (v : Word) : SameRest s (s.setReg r v) := by
  constructor <;> simp

theorem SameRest.advance {s t : State} (h : SameRest s t) (len : Nat) : SameRest s (t.advance len) :=
  ⟨fun a => by simpa using h.bytes a, h.memMap, h.status, h.host, h.draws⟩

theorem SameRest.jump {s t : State} (h : SameRest s t) (a : Word) : SameRest s (t.jump a) :=
  ⟨fun a => by simpa using h.bytes a, h.memMap, h.status, h.host, h.draws⟩

theorem SameRest.setReg {s t : State} (h : SameRest s t) (r : RegNum) (v : Word) : SameRest s (t.setReg r v) :=
  ⟨fun a => by simpa using h.bytes a, by simpa using h.memMap, by simpa using h.status, by simpa using h.host,
    by simpa using h.draws⟩

/-- An instruction that writes one register and goes on `len` bytes. -/
theorem completes_setReg {i : Instr} {s : State} {rd : RegNum} {v : Word} {len : Nat}
    (h : exec i s = .next ((s.setReg rd v).advance len)) :
    Completes i s (s.pc + BitVec.ofNat 64 len) (afterWrite s rd v) :=
  ⟨_, h, by simp, fun r => by simp [reg_setReg, afterWrite], (sameRest_setReg s rd v).advance len⟩

/-- An instruction that writes two registers in turn and goes on `len` bytes. -/
theorem completes_setReg_setReg {i : Instr} {s : State} {rq rr : RegNum} {q v : Word} {len : Nat}
    (h : exec i s = .next (((s.setReg rq q).setReg rr v).advance len)) :
    Completes i s (s.pc + BitVec.ofNat 64 len) (afterWriteTwo s rq q rr v) :=
  ⟨_, h, by simp, fun r => by simp [reg_setReg, afterWrite, afterWriteTwo],
    ((sameRest_setReg s rq q).setReg rr v).advance len⟩

/-- An instruction that only moves the program counter. -/
theorem completes_jump {i : Instr} {s : State} {a : Word} (h : exec i s = .next (s.jump a)) : Completes i s a s.reg :=
  ⟨_, h, rfl, fun _ => rfl, (SameRest.refl s).jump a⟩

/-! ## Low bits and signed readings -/

/-- The low bits of a register as a number. -/
theorem narrow_toNat (s : State) (n : Nat) (r : RegNum) : (s.narrow n r).toNat = low n (s.reg r) := by
  simp [State.narrow, low]

/-- The signed reading of a bit vector. -/
theorem toInt_eq_signedReading {n : Nat} (hn : 0 < n) (v : BitVec n) : v.toInt = signedReading n v.toNat := by
  obtain ⟨m, rfl⟩ : ∃ m, n = m + 1 := ⟨n - 1, by omega⟩
  have hp : 2 ^ (m + 1) = 2 * 2 ^ m := by rw [Nat.pow_succ]; omega
  rw [BitVec.toInt_eq_toNat_cond]
  unfold signedReading
  simp only [Nat.add_sub_cancel]
  by_cases h : 2 ^ m ≤ v.toNat
  · rw [if_neg (by omega), if_pos h]; push_cast; rfl
  · rw [if_pos (by omega), if_neg h]

/-- A number zero-extended from the width at which it was formed. -/
theorem setWidth_ofNat {n : Nat} (hn : n ≤ 64) (v : Nat) : (BitVec.ofNat n v).setWidth 64 = BitVec.ofNat 64 (v % 2 ^ n) := by
  apply BitVec.eq_of_toNat_eq
  have hle : 2 ^ n ≤ 2 ^ 64 := Nat.pow_le_pow_right (by omega) hn
  have hlt : v % 2 ^ n < 2 ^ n := Nat.mod_lt _ (by positivity)
  rw [BitVec.toNat_setWidth, BitVec.toNat_ofNat, BitVec.toNat_ofNat]

/-- A signed number zero-extended from the width at which it was formed. -/
theorem setWidth_ofInt {n : Nat} (hn : n ≤ 64) (v : Int) : (BitVec.ofInt n v).setWidth 64 = BitVec.ofInt 64 (v % 2 ^ n) := by
  have hpos : (0 : Int) < 2 ^ n := by positivity
  have h0 := Int.emod_nonneg v hpos.ne'
  apply BitVec.eq_of_toNat_eq
  have hle : (2 : Int) ^ n ≤ 2 ^ 64 := pow_le_pow_right₀ (by norm_num) hn
  have hlt := Int.emod_lt_of_pos v hpos
  rw [BitVec.toNat_setWidth, BitVec.toNat_ofInt, BitVec.toNat_ofInt]
  push_cast
  rw [Int.emod_eq_of_lt h0 (by omega), Nat.mod_eq_of_lt]
  have : (v % 2 ^ n).toNat < (2 ^ 64 : Int).toNat := by
    rw [Int.toNat_lt_toNat (by norm_num)]; omega
  simpa using this

/-! ## Little-endian bytes -/

/-- The bytes the encoder writes are the ones the spec's byte order names (30_encoding.md R72). -/
theorem leBytes_eq_bytesLE {w : Nat} (n : Nat) (v : BitVec w) : leBytes n v.toNat = bytesLE n v := by
  have main : ∀ n u, leBytes n u = (List.range n).map fun k => BitVec.ofNat 8 (u >>> (8 * k)) := by
    intro n
    induction n with
    | zero => intro u; rfl
    | succ n ih =>
      intro u
      rw [leBytes, ih, List.range_succ_eq_map, List.map_cons, List.map_map]
      refine congrArg₂ _ (by simp) (List.map_congr_left fun k _ => ?_)
      simp only [Function.comp, Nat.shiftRight_eq_div_pow]
      have h : 2 ^ (8 * (k + 1)) = 256 * 2 ^ (8 * k) := by rw [Nat.mul_add, Nat.pow_add, Nat.mul_comm]
      rw [h, Nat.div_div_eq_div_mul]
  rw [main]; rfl

end Sys2Proof.Machine
end

