-- ==== Sys2Proof/Laws/Exec.lean ====
section
/-! SUPPORT. What executing an instruction can do, said once: every instruction has a next state, of one of thirteen shapes. -/

namespace Sys2Proof.Machine

open Sys2Proof

/-- What `exec i` makes of state `s`, by what it changes. The shapes that go on to the following instruction carry the
instruction's length, and those that write carry what they may write. -/
inductive ExecShape (i : Instr) (s : State) : State → Prop
  /-- Writes one register and goes on. -/
  | write (rd : RegNum) (v : Word) (len : Nat) (hw : mayWrite i rd = true) (hl : (encode i).length = len)
      (hj : isJump i = false) (hd : destination i s = none) : ExecShape i s ((s.setReg rd v).advance len)
  /-- Writes two registers in turn and goes on. -/
  | writeTwo (rd re : RegNum) (v w : Word) (len : Nat) (hw : mayWrite i rd = true) (hw' : mayWrite i re = true)
      (hl : (encode i).length = len) (hj : isJump i = false) (hd : destination i s = none) :
      ExecShape i s (((s.setReg rd v).setReg re w).advance len)
  /-- A load: writes a run of register bytes and goes on. -/
  | load (r : RegNum) (bs : List Byte) (len : Nat) (hr : 8 * r.toNat + bs.length ≤ 2048)
      (hw : ∀ q : RegNum, mayWrite i q = false →
        8 * q.toNat + 8 ≤ 8 * r.toNat ∨ 8 * r.toNat + bs.length ≤ 8 * q.toNat)
      (hl : (encode i).length = len) (hj : isJump i = false) (hd : destination i s = none) :
      ExecShape i s ((s.setRegBytes (8 * r.toNat) bs).advance len)
  /-- A copy of registers: writes a run of registers and goes on. -/
  | copy (r : RegNum) (vs : List Word) (len : Nat) (hr : r.toNat + vs.length ≤ 256)
      (hw : ∀ q : RegNum, mayWrite i q = false → q.toNat < r.toNat ∨ r.toNat + vs.length ≤ q.toNat)
      (hl : (encode i).length = len) (hj : isJump i = false) (hd : destination i s = none) :
      ExecShape i s ((s.setRegRun r.toNat vs).advance len)
  /-- A store or a block copy: writes bytes, all of them writable, and goes on. -/
  | store (a : Word) (bs : List Byte) (len : Nat) (hb : ∀ k < bs.length, s.allows .write (a + BitVec.ofNat 64 k) = true)
      (hl : (encode i).length = len) (hj : isJump i = false) (hd : destination i s = some (a, bs.length)) :
      ExecShape i s (({ s with mem := Memory.writeBytes s.mem a bs } : State).advance len)
  /-- Goes on and does nothing else. -/
  | goOn (len : Nat) (hl : (encode i).length = len) (hd : destination i s = none) : ExecShape i s (s.advance len)
  /-- A jump that is taken. -/
  | jump (a : Word) (hj : isJump i = true) (hd : destination i s = none) : ExecShape i s (s.jump a)
  /-- A linking jump. -/
  | link (rd : RegNum) (v a : Word) (hw : mayWrite i rd = true) (hj : isJump i = true) (hd : destination i s = none) :
      ExecShape i s ((s.setReg rd v).jump a)
  /-- A trap. -/
  | trap (t : Trap) (hl : (encode i).length = 1) (hj : isJump i = false) (hd : destination i s = none) :
      ExecShape i s (s.trap t)
  /-- The end of execution. -/
  | halt (hl : (encode i).length = 1) (hj : isJump i = false) (hd : destination i s = none) : ExecShape i s s.halt
  /-- An exception that is no memory access fault. -/
  | raise (e : Exn) (he : ∀ kind a, e ≠ .memoryAccessFault kind a) : ExecShape i s (s.raise e)
  /-- A memory access fault of a load. -/
  | raiseAccess (kind : AccessKind) (a : Word) : ExecShape i s (s.raiseAccess kind a)
  /-- A memory access fault of a store or a block copy. -/
  | faultStoring (kind : AccessKind) (a dst : Word) (bs : List (Option Byte)) (hd : destination i s = some (dst, bs.length)) :
      ExecShape i s (s.faultStoring kind a dst bs)

section Shapes

variable {i : Instr} {s : State} {len : Nat}

theorem load_shape {r : RegNum} {addr : Word} {size : BitVec 16}
    (hw : ∀ q, mayWrite i q = (8 * r.toNat < 8 * q.toNat + 8 && 8 * q.toNat < 8 * r.toNat + size.toNat : Bool))
    (hl : (encode i).length = len) (hj : isJump i = false) (hd : destination i s = none) :
    ∃ t, s.load r addr size len = .next t ∧ ExecShape i s t := by
  rcases load_cases s r addr size len with ⟨_, h⟩ | ⟨_, a, _, _, h⟩ | ⟨hr, _, h⟩
  · exact ⟨_, h, .raise _ (by simp)⟩
  · exact ⟨_, h, .raiseAccess _ _⟩
  · refine ⟨_, h, .load _ _ _ (by simpa using hr) (fun q hq => ?_) hl hj hd⟩
    rw [hw] at hq; simp at hq; simp; omega

theorem storeBytes_shape {addr : Word} {bytes : List Byte} (hl : (encode i).length = len) (hj : isJump i = false)
    (hd : destination i s = some (addr, bytes.length)) : ∃ t, s.storeBytes addr bytes len = .next t ∧ ExecShape i s t := by
  rcases storeBytes_cases s addr bytes len with ⟨a, _, _, h⟩ | ⟨hb, h⟩
  · exact ⟨_, h, .faultStoring _ _ _ _ (by simpa using hd)⟩
  · exact ⟨_, h, .store _ _ _ hb hl hj hd⟩

theorem store_shape {r : RegNum} {addr : Word} {size : BitVec 16} (hl : (encode i).length = len) (hj : isJump i = false)
    (hd : destination i s = some (addr, size.toNat)) : ∃ t, s.store r addr size len = .next t ∧ ExecShape i s t := by
  rcases store_cases s r addr size len with ⟨_, h⟩ | ⟨_, h⟩
  · exact ⟨_, h, .raise _ (by simp)⟩
  · rw [h]; exact storeBytes_shape hl hj (by simpa using hd)

theorem copyBlock_shape {src dst : Word} {n : Nat} (hl : (encode i).length = len) (hj : isJump i = false)
    (hd : destination i s = some (dst, n)) : ∃ t, s.copyBlock src dst n len = .next t ∧ ExecShape i s t := by
  rcases copyBlock_cases s src dst n len with ⟨_, _, _, h⟩ | ⟨_, h⟩
  · exact ⟨_, h, .faultStoring _ _ _ _ (by simpa using hd)⟩
  · rw [h]; exact storeBytes_shape hl hj (by simpa using hd)

end Shapes

/-- Every instruction has a next state, of one of the shapes. -/
theorem exec_shape (i : Instr) (s : State) : ∃ t, exec i s = .next t ∧ ExecShape i s t := by
  cases i
  all_goals first
    | (refine ⟨_, rfl, .write _ _ _ ?_ rfl rfl rfl⟩; simp [mayWrite]; done)
    | (refine ⟨_, rfl, .writeTwo _ _ _ _ _ ?_ ?_ rfl rfl rfl⟩ <;> simp [mayWrite]; done)
    | exact ⟨_, rfl, .goOn _ rfl rfl⟩
    | exact ⟨_, rfl, .trap _ rfl rfl rfl⟩
    | exact ⟨_, rfl, .halt rfl rfl rfl⟩
    | exact ⟨_, rfl, .raise _ (by simp)⟩
    | (refine ⟨_, rfl, .link _ _ _ ?_ rfl rfl⟩; simp [mayWrite]; done)
    | exact ⟨_, rfl, .jump _ rfl rfl⟩
    | exact load_shape (fun q => rfl) rfl rfl rfl
    | exact store_shape rfl rfl rfl
    | exact copyBlock_shape rfl rfl rfl
    | (simp only [exec, execJeq, execJne, execJltu, execJgtu, execJlts, execJgts, State.branch]
       split
       · exact ⟨_, rfl, .jump _ rfl rfl⟩
       · exact ⟨_, rfl, .goOn _ rfl rfl⟩)
    | (simp only [exec, execDiru8, execDiru16, execDiru32, execDiru64, execDirs8, execDirs16, execDirs32, execDirs64,
         State.divideUnsigned, State.divideSigned, State.writeDivision]
       split <;> (refine ⟨_, rfl, .writeTwo _ _ _ _ _ ?_ ?_ rfl rfl rfl⟩ <;> simp [mayWrite]; done))
    | (simp only [exec, execFc64t32]
       split
       · exact ⟨_, rfl, .raise _ (by simp)⟩
       · (refine ⟨_, rfl, .write _ _ _ ?_ rfl rfl rfl⟩; simp [mayWrite]; done))
    | (simp only [exec, execFti32, execFti64, State.floatToInt]
       split
       · exact ⟨_, rfl, .raise _ (by simp)⟩
       · split
         · (refine ⟨_, rfl, .write _ _ _ ?_ rfl rfl rfl⟩; simp [mayWrite]; done)
         · split
           · exact ⟨_, rfl, .raise _ (by simp)⟩
           · (refine ⟨_, rfl, .write _ _ _ ?_ rfl rfl rfl⟩; simp [mayWrite]; done))
    | (rename_i rs rt count
       rcases copyRegs_cases s rs rt count.toNat 4 with ⟨_, h⟩ | ⟨_, hr, h⟩
       · exact ⟨_, h, .raise _ (by simp)⟩
       · refine ⟨_, h, .copy _ _ _ (by simpa using hr) (fun q hq => ?_) rfl rfl rfl⟩
         simp [mayWrite] at hq; simp; omega)

/-- The shape of a next state. -/
theorem shape_of_exec {i : Instr} {s t : State} (h : exec i s = .next t) : ExecShape i s t := by
  obtain ⟨t', h1, h2⟩ := exec_shape i s
  rw [h1] at h; cases h; exact h2

end Sys2Proof.Machine
end

