-- ==== Sys2Proof/Laws/PerInstr.lean ====
section
/-! SUPPORT. Facts about each instruction as a term, one lemma for each constructor. -/

namespace Sys2Proof.Laws.EncodedLength

open Sys2Proof

/-- The encoding starts with an assigned opcode, has the length of that opcode's format, and is no longer than the longest
instruction (30_encoding.md R73 to R75). -/
def Statement (i : Instr) : Prop :=
  (∃ op operands row, encode i = op :: operands ∧ opcodeRow op = some row ∧ row.length = (encode i).length) ∧
    (encode i).length ≤ maxLength

theorem un : Statement (.un) :=
  ⟨⟨_, _, _, rfl, rfl, rfl⟩, of_decide_eq_true rfl⟩

theorem tx : Statement (.tx) :=
  ⟨⟨_, _, _, rfl, rfl, rfl⟩, of_decide_eq_true rfl⟩

theorem nop : Statement (.nop) :=
  ⟨⟨_, _, _, rfl, rfl, rfl⟩, of_decide_eq_true rfl⟩

theorem add8 (rd ra rb : RegNum) : Statement (.add8 rd ra rb) :=
  ⟨⟨_, _, _, rfl, rfl, rfl⟩, of_decide_eq_true rfl⟩

theorem add16 (rd ra rb : RegNum) : Statement (.add16 rd ra rb) :=
  ⟨⟨_, _, _, rfl, rfl, rfl⟩, of_decide_eq_true rfl⟩

theorem add32 (rd ra rb : RegNum) : Statement (.add32 rd ra rb) :=
  ⟨⟨_, _, _, rfl, rfl, rfl⟩, of_decide_eq_true rfl⟩

theorem add64 (rd ra rb : RegNum) : Statement (.add64 rd ra rb) :=
  ⟨⟨_, _, _, rfl, rfl, rfl⟩, of_decide_eq_true rfl⟩

theorem sub8 (rd ra rb : RegNum) : Statement (.sub8 rd ra rb) :=
  ⟨⟨_, _, _, rfl, rfl, rfl⟩, of_decide_eq_true rfl⟩

theorem sub16 (rd ra rb : RegNum) : Statement (.sub16 rd ra rb) :=
  ⟨⟨_, _, _, rfl, rfl, rfl⟩, of_decide_eq_true rfl⟩

theorem sub32 (rd ra rb : RegNum) : Statement (.sub32 rd ra rb) :=
  ⟨⟨_, _, _, rfl, rfl, rfl⟩, of_decide_eq_true rfl⟩

theorem sub64 (rd ra rb : RegNum) : Statement (.sub64 rd ra rb) :=
  ⟨⟨_, _, _, rfl, rfl, rfl⟩, of_decide_eq_true rfl⟩

theorem mul8 (rd ra rb : RegNum) : Statement (.mul8 rd ra rb) :=
  ⟨⟨_, _, _, rfl, rfl, rfl⟩, of_decide_eq_true rfl⟩

theorem mul16 (rd ra rb : RegNum) : Statement (.mul16 rd ra rb) :=
  ⟨⟨_, _, _, rfl, rfl, rfl⟩, of_decide_eq_true rfl⟩

theorem mul32 (rd ra rb : RegNum) : Statement (.mul32 rd ra rb) :=
  ⟨⟨_, _, _, rfl, rfl, rfl⟩, of_decide_eq_true rfl⟩

theorem mul64 (rd ra rb : RegNum) : Statement (.mul64 rd ra rb) :=
  ⟨⟨_, _, _, rfl, rfl, rfl⟩, of_decide_eq_true rfl⟩

theorem and (rd ra rb : RegNum) : Statement (.and rd ra rb) :=
  ⟨⟨_, _, _, rfl, rfl, rfl⟩, of_decide_eq_true rfl⟩

theorem or (rd ra rb : RegNum) : Statement (.or rd ra rb) :=
  ⟨⟨_, _, _, rfl, rfl, rfl⟩, of_decide_eq_true rfl⟩

theorem xor (rd ra rb : RegNum) : Statement (.xor rd ra rb) :=
  ⟨⟨_, _, _, rfl, rfl, rfl⟩, of_decide_eq_true rfl⟩

theorem slu8 (rd ra rb : RegNum) : Statement (.slu8 rd ra rb) :=
  ⟨⟨_, _, _, rfl, rfl, rfl⟩, of_decide_eq_true rfl⟩

theorem slu16 (rd ra rb : RegNum) : Statement (.slu16 rd ra rb) :=
  ⟨⟨_, _, _, rfl, rfl, rfl⟩, of_decide_eq_true rfl⟩

theorem slu32 (rd ra rb : RegNum) : Statement (.slu32 rd ra rb) :=
  ⟨⟨_, _, _, rfl, rfl, rfl⟩, of_decide_eq_true rfl⟩

theorem slu64 (rd ra rb : RegNum) : Statement (.slu64 rd ra rb) :=
  ⟨⟨_, _, _, rfl, rfl, rfl⟩, of_decide_eq_true rfl⟩

theorem sru8 (rd ra rb : RegNum) : Statement (.sru8 rd ra rb) :=
  ⟨⟨_, _, _, rfl, rfl, rfl⟩, of_decide_eq_true rfl⟩

theorem sru16 (rd ra rb : RegNum) : Statement (.sru16 rd ra rb) :=
  ⟨⟨_, _, _, rfl, rfl, rfl⟩, of_decide_eq_true rfl⟩

theorem sru32 (rd ra rb : RegNum) : Statement (.sru32 rd ra rb) :=
  ⟨⟨_, _, _, rfl, rfl, rfl⟩, of_decide_eq_true rfl⟩

theorem sru64 (rd ra rb : RegNum) : Statement (.sru64 rd ra rb) :=
  ⟨⟨_, _, _, rfl, rfl, rfl⟩, of_decide_eq_true rfl⟩

theorem srs8 (rd ra rb : RegNum) : Statement (.srs8 rd ra rb) :=
  ⟨⟨_, _, _, rfl, rfl, rfl⟩, of_decide_eq_true rfl⟩

theorem srs16 (rd ra rb : RegNum) : Statement (.srs16 rd ra rb) :=
  ⟨⟨_, _, _, rfl, rfl, rfl⟩, of_decide_eq_true rfl⟩

theorem srs32 (rd ra rb : RegNum) : Statement (.srs32 rd ra rb) :=
  ⟨⟨_, _, _, rfl, rfl, rfl⟩, of_decide_eq_true rfl⟩

theorem srs64 (rd ra rb : RegNum) : Statement (.srs64 rd ra rb) :=
  ⟨⟨_, _, _, rfl, rfl, rfl⟩, of_decide_eq_true rfl⟩

theorem cmpu (rd ra rb : RegNum) : Statement (.cmpu rd ra rb) :=
  ⟨⟨_, _, _, rfl, rfl, rfl⟩, of_decide_eq_true rfl⟩

theorem cmps (rd ra rb : RegNum) : Statement (.cmps rd ra rb) :=
  ⟨⟨_, _, _, rfl, rfl, rfl⟩, of_decide_eq_true rfl⟩

theorem diru8 (rq rr ra rb : RegNum) : Statement (.diru8 rq rr ra rb) :=
  ⟨⟨_, _, _, rfl, rfl, rfl⟩, of_decide_eq_true rfl⟩

theorem diru16 (rq rr ra rb : RegNum) : Statement (.diru16 rq rr ra rb) :=
  ⟨⟨_, _, _, rfl, rfl, rfl⟩, of_decide_eq_true rfl⟩

theorem diru32 (rq rr ra rb : RegNum) : Statement (.diru32 rq rr ra rb) :=
  ⟨⟨_, _, _, rfl, rfl, rfl⟩, of_decide_eq_true rfl⟩

theorem diru64 (rq rr ra rb : RegNum) : Statement (.diru64 rq rr ra rb) :=
  ⟨⟨_, _, _, rfl, rfl, rfl⟩, of_decide_eq_true rfl⟩

theorem dirs8 (rq rr ra rb : RegNum) : Statement (.dirs8 rq rr ra rb) :=
  ⟨⟨_, _, _, rfl, rfl, rfl⟩, of_decide_eq_true rfl⟩

theorem dirs16 (rq rr ra rb : RegNum) : Statement (.dirs16 rq rr ra rb) :=
  ⟨⟨_, _, _, rfl, rfl, rfl⟩, of_decide_eq_true rfl⟩

theorem dirs32 (rq rr ra rb : RegNum) : Statement (.dirs32 rq rr ra rb) :=
  ⟨⟨_, _, _, rfl, rfl, rfl⟩, of_decide_eq_true rfl⟩

theorem dirs64 (rq rr ra rb : RegNum) : Statement (.dirs64 rq rr ra rb) :=
  ⟨⟨_, _, _, rfl, rfl, rfl⟩, of_decide_eq_true rfl⟩

theorem neg (rd ra : RegNum) : Statement (.neg rd ra) :=
  ⟨⟨_, _, _, rfl, rfl, rfl⟩, of_decide_eq_true rfl⟩

theorem not (rd ra : RegNum) : Statement (.not rd ra) :=
  ⟨⟨_, _, _, rfl, rfl, rfl⟩, of_decide_eq_true rfl⟩

theorem sxt8 (rd ra : RegNum) : Statement (.sxt8 rd ra) :=
  ⟨⟨_, _, _, rfl, rfl, rfl⟩, of_decide_eq_true rfl⟩

theorem sxt16 (rd ra : RegNum) : Statement (.sxt16 rd ra) :=
  ⟨⟨_, _, _, rfl, rfl, rfl⟩, of_decide_eq_true rfl⟩

theorem sxt32 (rd ra : RegNum) : Statement (.sxt32 rd ra) :=
  ⟨⟨_, _, _, rfl, rfl, rfl⟩, of_decide_eq_true rfl⟩

theorem addi8 (rd ra : RegNum) (imm : Byte) : Statement (.addi8 rd ra imm) :=
  ⟨⟨_, _, _, rfl, rfl, rfl⟩, of_decide_eq_true rfl⟩

theorem addi16 (rd ra : RegNum) (imm : BitVec 16) : Statement (.addi16 rd ra imm) :=
  ⟨⟨_, _, _, rfl, rfl, rfl⟩, of_decide_eq_true rfl⟩

theorem addi32 (rd ra : RegNum) (imm : BitVec 32) : Statement (.addi32 rd ra imm) :=
  ⟨⟨_, _, _, rfl, rfl, rfl⟩, of_decide_eq_true rfl⟩

theorem addi64 (rd ra : RegNum) (imm : Word) : Statement (.addi64 rd ra imm) :=
  ⟨⟨_, _, _, rfl, rfl, rfl⟩, of_decide_eq_true rfl⟩

theorem muli8 (rd ra : RegNum) (imm : Byte) : Statement (.muli8 rd ra imm) :=
  ⟨⟨_, _, _, rfl, rfl, rfl⟩, of_decide_eq_true rfl⟩

theorem muli16 (rd ra : RegNum) (imm : BitVec 16) : Statement (.muli16 rd ra imm) :=
  ⟨⟨_, _, _, rfl, rfl, rfl⟩, of_decide_eq_true rfl⟩

theorem muli32 (rd ra : RegNum) (imm : BitVec 32) : Statement (.muli32 rd ra imm) :=
  ⟨⟨_, _, _, rfl, rfl, rfl⟩, of_decide_eq_true rfl⟩

theorem muli64 (rd ra : RegNum) (imm : Word) : Statement (.muli64 rd ra imm) :=
  ⟨⟨_, _, _, rfl, rfl, rfl⟩, of_decide_eq_true rfl⟩

theorem andi (rd ra : RegNum) (imm : Word) : Statement (.andi rd ra imm) :=
  ⟨⟨_, _, _, rfl, rfl, rfl⟩, of_decide_eq_true rfl⟩

theorem ori (rd ra : RegNum) (imm : Word) : Statement (.ori rd ra imm) :=
  ⟨⟨_, _, _, rfl, rfl, rfl⟩, of_decide_eq_true rfl⟩

theorem xori (rd ra : RegNum) (imm : Word) : Statement (.xori rd ra imm) :=
  ⟨⟨_, _, _, rfl, rfl, rfl⟩, of_decide_eq_true rfl⟩

theorem slui8 (rd ra : RegNum) (sh8 : Byte) : Statement (.slui8 rd ra sh8) :=
  ⟨⟨_, _, _, rfl, rfl, rfl⟩, of_decide_eq_true rfl⟩

theorem slui16 (rd ra : RegNum) (sh8 : Byte) : Statement (.slui16 rd ra sh8) :=
  ⟨⟨_, _, _, rfl, rfl, rfl⟩, of_decide_eq_true rfl⟩

theorem slui32 (rd ra : RegNum) (sh8 : Byte) : Statement (.slui32 rd ra sh8) :=
  ⟨⟨_, _, _, rfl, rfl, rfl⟩, of_decide_eq_true rfl⟩

theorem slui64 (rd ra : RegNum) (sh8 : Byte) : Statement (.slui64 rd ra sh8) :=
  ⟨⟨_, _, _, rfl, rfl, rfl⟩, of_decide_eq_true rfl⟩

theorem srui8 (rd ra : RegNum) (sh8 : Byte) : Statement (.srui8 rd ra sh8) :=
  ⟨⟨_, _, _, rfl, rfl, rfl⟩, of_decide_eq_true rfl⟩

theorem srui16 (rd ra : RegNum) (sh8 : Byte) : Statement (.srui16 rd ra sh8) :=
  ⟨⟨_, _, _, rfl, rfl, rfl⟩, of_decide_eq_true rfl⟩

theorem srui32 (rd ra : RegNum) (sh8 : Byte) : Statement (.srui32 rd ra sh8) :=
  ⟨⟨_, _, _, rfl, rfl, rfl⟩, of_decide_eq_true rfl⟩

theorem srui64 (rd ra : RegNum) (sh8 : Byte) : Statement (.srui64 rd ra sh8) :=
  ⟨⟨_, _, _, rfl, rfl, rfl⟩, of_decide_eq_true rfl⟩

theorem srsi8 (rd ra : RegNum) (sh8 : Byte) : Statement (.srsi8 rd ra sh8) :=
  ⟨⟨_, _, _, rfl, rfl, rfl⟩, of_decide_eq_true rfl⟩

theorem srsi16 (rd ra : RegNum) (sh8 : Byte) : Statement (.srsi16 rd ra sh8) :=
  ⟨⟨_, _, _, rfl, rfl, rfl⟩, of_decide_eq_true rfl⟩

theorem srsi32 (rd ra : RegNum) (sh8 : Byte) : Statement (.srsi32 rd ra sh8) :=
  ⟨⟨_, _, _, rfl, rfl, rfl⟩, of_decide_eq_true rfl⟩

theorem srsi64 (rd ra : RegNum) (sh8 : Byte) : Statement (.srsi64 rd ra sh8) :=
  ⟨⟨_, _, _, rfl, rfl, rfl⟩, of_decide_eq_true rfl⟩

theorem cmpui (rd ra : RegNum) (imm : Word) : Statement (.cmpui rd ra imm) :=
  ⟨⟨_, _, _, rfl, rfl, rfl⟩, of_decide_eq_true rfl⟩

theorem cmpsi (rd ra : RegNum) (imm : Word) : Statement (.cmpsi rd ra imm) :=
  ⟨⟨_, _, _, rfl, rfl, rfl⟩, of_decide_eq_true rfl⟩

theorem cp (rd ra : RegNum) : Statement (.cp rd ra) :=
  ⟨⟨_, _, _, rfl, rfl, rfl⟩, of_decide_eq_true rfl⟩

theorem swa (ra rb : RegNum) : Statement (.swa ra rb) :=
  ⟨⟨_, _, _, rfl, rfl, rfl⟩, of_decide_eq_true rfl⟩

theorem li8 (rd : RegNum) (imm : Byte) : Statement (.li8 rd imm) :=
  ⟨⟨_, _, _, rfl, rfl, rfl⟩, of_decide_eq_true rfl⟩

theorem li16 (rd : RegNum) (imm : BitVec 16) : Statement (.li16 rd imm) :=
  ⟨⟨_, _, _, rfl, rfl, rfl⟩, of_decide_eq_true rfl⟩

theorem li32 (rd : RegNum) (imm : BitVec 32) : Statement (.li32 rd imm) :=
  ⟨⟨_, _, _, rfl, rfl, rfl⟩, of_decide_eq_true rfl⟩

theorem li64 (rd : RegNum) (imm : Word) : Statement (.li64 rd imm) :=
  ⟨⟨_, _, _, rfl, rfl, rfl⟩, of_decide_eq_true rfl⟩

theorem lra (rd rb : RegNum) (off : BitVec 32) : Statement (.lra rd rb off) :=
  ⟨⟨_, _, _, rfl, rfl, rfl⟩, of_decide_eq_true rfl⟩

theorem ld (r rb : RegNum) (addr64 : Word) (size : BitVec 16) : Statement (.ld r rb addr64 size) :=
  ⟨⟨_, _, _, rfl, rfl, rfl⟩, of_decide_eq_true rfl⟩

theorem st (r rb : RegNum) (addr64 : Word) (size : BitVec 16) : Statement (.st r rb addr64 size) :=
  ⟨⟨_, _, _, rfl, rfl, rfl⟩, of_decide_eq_true rfl⟩

theorem ldr (r rb : RegNum) (off : BitVec 32) (size : BitVec 16) : Statement (.ldr r rb off size) :=
  ⟨⟨_, _, _, rfl, rfl, rfl⟩, of_decide_eq_true rfl⟩

theorem str (r rb : RegNum) (off : BitVec 32) (size : BitVec 16) : Statement (.str r rb off size) :=
  ⟨⟨_, _, _, rfl, rfl, rfl⟩, of_decide_eq_true rfl⟩

theorem bmc (rs rt : RegNum) (count : BitVec 16) : Statement (.bmc rs rt count) :=
  ⟨⟨_, _, _, rfl, rfl, rfl⟩, of_decide_eq_true rfl⟩

theorem brc (rs rt : RegNum) (count : Byte) : Statement (.brc rs rt count) :=
  ⟨⟨_, _, _, rfl, rfl, rfl⟩, of_decide_eq_true rfl⟩

theorem jmp (off : BitVec 32) : Statement (.jmp off) :=
  ⟨⟨_, _, _, rfl, rfl, rfl⟩, of_decide_eq_true rfl⟩

theorem jal (rl rb : RegNum) (off : BitVec 32) : Statement (.jal rl rb off) :=
  ⟨⟨_, _, _, rfl, rfl, rfl⟩, of_decide_eq_true rfl⟩

theorem jala (rl rb : RegNum) (addr64 : Word) : Statement (.jala rl rb addr64) :=
  ⟨⟨_, _, _, rfl, rfl, rfl⟩, of_decide_eq_true rfl⟩

theorem jeq (ra rb : RegNum) (off : BitVec 16) : Statement (.jeq ra rb off) :=
  ⟨⟨_, _, _, rfl, rfl, rfl⟩, of_decide_eq_true rfl⟩

theorem jne (ra rb : RegNum) (off : BitVec 16) : Statement (.jne ra rb off) :=
  ⟨⟨_, _, _, rfl, rfl, rfl⟩, of_decide_eq_true rfl⟩

theorem jltu (ra rb : RegNum) (off : BitVec 16) : Statement (.jltu ra rb off) :=
  ⟨⟨_, _, _, rfl, rfl, rfl⟩, of_decide_eq_true rfl⟩

theorem jgtu (ra rb : RegNum) (off : BitVec 16) : Statement (.jgtu ra rb off) :=
  ⟨⟨_, _, _, rfl, rfl, rfl⟩, of_decide_eq_true rfl⟩

theorem jlts (ra rb : RegNum) (off : BitVec 16) : Statement (.jlts ra rb off) :=
  ⟨⟨_, _, _, rfl, rfl, rfl⟩, of_decide_eq_true rfl⟩

theorem jgts (ra rb : RegNum) (off : BitVec 16) : Statement (.jgts ra rb off) :=
  ⟨⟨_, _, _, rfl, rfl, rfl⟩, of_decide_eq_true rfl⟩

theorem eca : Statement (.eca) :=
  ⟨⟨_, _, _, rfl, rfl, rfl⟩, of_decide_eq_true rfl⟩

theorem ebp : Statement (.ebp) :=
  ⟨⟨_, _, _, rfl, rfl, rfl⟩, of_decide_eq_true rfl⟩

theorem fadd32 (rd ra rb : RegNum) : Statement (.fadd32 rd ra rb) :=
  ⟨⟨_, _, _, rfl, rfl, rfl⟩, of_decide_eq_true rfl⟩

theorem fadd64 (rd ra rb : RegNum) : Statement (.fadd64 rd ra rb) :=
  ⟨⟨_, _, _, rfl, rfl, rfl⟩, of_decide_eq_true rfl⟩

theorem fsub32 (rd ra rb : RegNum) : Statement (.fsub32 rd ra rb) :=
  ⟨⟨_, _, _, rfl, rfl, rfl⟩, of_decide_eq_true rfl⟩

theorem fsub64 (rd ra rb : RegNum) : Statement (.fsub64 rd ra rb) :=
  ⟨⟨_, _, _, rfl, rfl, rfl⟩, of_decide_eq_true rfl⟩

theorem fmul32 (rd ra rb : RegNum) : Statement (.fmul32 rd ra rb) :=
  ⟨⟨_, _, _, rfl, rfl, rfl⟩, of_decide_eq_true rfl⟩

theorem fmul64 (rd ra rb : RegNum) : Statement (.fmul64 rd ra rb) :=
  ⟨⟨_, _, _, rfl, rfl, rfl⟩, of_decide_eq_true rfl⟩

theorem fdiv32 (rd ra rb : RegNum) : Statement (.fdiv32 rd ra rb) :=
  ⟨⟨_, _, _, rfl, rfl, rfl⟩, of_decide_eq_true rfl⟩

theorem fdiv64 (rd ra rb : RegNum) : Statement (.fdiv64 rd ra rb) :=
  ⟨⟨_, _, _, rfl, rfl, rfl⟩, of_decide_eq_true rfl⟩

theorem fma32 (rd ra rb rc : RegNum) : Statement (.fma32 rd ra rb rc) :=
  ⟨⟨_, _, _, rfl, rfl, rfl⟩, of_decide_eq_true rfl⟩

theorem fma64 (rd ra rb rc : RegNum) : Statement (.fma64 rd ra rb rc) :=
  ⟨⟨_, _, _, rfl, rfl, rfl⟩, of_decide_eq_true rfl⟩

theorem fcmplt32 (rd ra rb : RegNum) : Statement (.fcmplt32 rd ra rb) :=
  ⟨⟨_, _, _, rfl, rfl, rfl⟩, of_decide_eq_true rfl⟩

theorem fcmplt64 (rd ra rb : RegNum) : Statement (.fcmplt64 rd ra rb) :=
  ⟨⟨_, _, _, rfl, rfl, rfl⟩, of_decide_eq_true rfl⟩

theorem fcmpgt32 (rd ra rb : RegNum) : Statement (.fcmpgt32 rd ra rb) :=
  ⟨⟨_, _, _, rfl, rfl, rfl⟩, of_decide_eq_true rfl⟩

theorem fcmpgt64 (rd ra rb : RegNum) : Statement (.fcmpgt64 rd ra rb) :=
  ⟨⟨_, _, _, rfl, rfl, rfl⟩, of_decide_eq_true rfl⟩

theorem itf32 (rd ra : RegNum) : Statement (.itf32 rd ra) :=
  ⟨⟨_, _, _, rfl, rfl, rfl⟩, of_decide_eq_true rfl⟩

theorem itf64 (rd ra : RegNum) : Statement (.itf64 rd ra) :=
  ⟨⟨_, _, _, rfl, rfl, rfl⟩, of_decide_eq_true rfl⟩

theorem fti32 (rd ra : RegNum) (rm : Byte) : Statement (.fti32 rd ra rm) :=
  ⟨⟨_, _, _, rfl, rfl, rfl⟩, of_decide_eq_true rfl⟩

theorem fti64 (rd ra : RegNum) (rm : Byte) : Statement (.fti64 rd ra rm) :=
  ⟨⟨_, _, _, rfl, rfl, rfl⟩, of_decide_eq_true rfl⟩

theorem fc32t64 (rd ra : RegNum) : Statement (.fc32t64 rd ra) :=
  ⟨⟨_, _, _, rfl, rfl, rfl⟩, of_decide_eq_true rfl⟩

theorem fc64t32 (rd ra : RegNum) (rm : Byte) : Statement (.fc64t32 rd ra rm) :=
  ⟨⟨_, _, _, rfl, rfl, rfl⟩, of_decide_eq_true rfl⟩

theorem lra16 (rd rb : RegNum) (off : BitVec 16) : Statement (.lra16 rd rb off) :=
  ⟨⟨_, _, _, rfl, rfl, rfl⟩, of_decide_eq_true rfl⟩

theorem ldr16 (r rb : RegNum) (off size : BitVec 16) : Statement (.ldr16 r rb off size) :=
  ⟨⟨_, _, _, rfl, rfl, rfl⟩, of_decide_eq_true rfl⟩

theorem str16 (r rb : RegNum) (off size : BitVec 16) : Statement (.str16 r rb off size) :=
  ⟨⟨_, _, _, rfl, rfl, rfl⟩, of_decide_eq_true rfl⟩

theorem jmp16 (off : BitVec 16) : Statement (.jmp16 off) :=
  ⟨⟨_, _, _, rfl, rfl, rfl⟩, of_decide_eq_true rfl⟩

end Sys2Proof.Laws.EncodedLength
end

