-- ==== Sys2Proof/Machine/Assembly.lean ====
section
/-! DEFINITION. The assembler's notation (30_encoding.md R82, R87) and the idioms (R88, 48_psabi.md R355): conventions of software that no instruction uses (assumption log 15). -/

namespace Sys2Proof

/-! ## The spec's own syntax (R87, decision D36) -/

/-- An operand as it is written. -/
inductive AsmOperand where
  /-- `rN`, N in decimal. -/
  | reg (r : RegNum)
  /-- An immediate, written in decimal. -/
  | imm (n : Nat)
  /-- A relative offset: the number that is encoded, not the target. -/
  | offset (i : Int)
  deriving DecidableEq, Repr

/-- The text of an operand. -/
def AsmOperand.text : AsmOperand → String
  | .reg r => "r" ++ toString r.toNat
  | .imm n => toString n
  | .offset i => toString i

/-- The mnemonic, spelled as in R80 and R82, and the operands in encoding order. -/
def Instr.asmParts : Instr → String × List AsmOperand
  | .un => ("UN", [])
  | .tx => ("TX", [])
  | .nop => ("NOP", [])
  | .add8 rd ra rb => ("ADD8", [.reg rd, .reg ra, .reg rb])
  | .add16 rd ra rb => ("ADD16", [.reg rd, .reg ra, .reg rb])
  | .add32 rd ra rb => ("ADD32", [.reg rd, .reg ra, .reg rb])
  | .add64 rd ra rb => ("ADD64", [.reg rd, .reg ra, .reg rb])
  | .sub8 rd ra rb => ("SUB8", [.reg rd, .reg ra, .reg rb])
  | .sub16 rd ra rb => ("SUB16", [.reg rd, .reg ra, .reg rb])
  | .sub32 rd ra rb => ("SUB32", [.reg rd, .reg ra, .reg rb])
  | .sub64 rd ra rb => ("SUB64", [.reg rd, .reg ra, .reg rb])
  | .mul8 rd ra rb => ("MUL8", [.reg rd, .reg ra, .reg rb])
  | .mul16 rd ra rb => ("MUL16", [.reg rd, .reg ra, .reg rb])
  | .mul32 rd ra rb => ("MUL32", [.reg rd, .reg ra, .reg rb])
  | .mul64 rd ra rb => ("MUL64", [.reg rd, .reg ra, .reg rb])
  | .and rd ra rb => ("AND", [.reg rd, .reg ra, .reg rb])
  | .or rd ra rb => ("OR", [.reg rd, .reg ra, .reg rb])
  | .xor rd ra rb => ("XOR", [.reg rd, .reg ra, .reg rb])
  | .slu8 rd ra rb => ("SLU8", [.reg rd, .reg ra, .reg rb])
  | .slu16 rd ra rb => ("SLU16", [.reg rd, .reg ra, .reg rb])
  | .slu32 rd ra rb => ("SLU32", [.reg rd, .reg ra, .reg rb])
  | .slu64 rd ra rb => ("SLU64", [.reg rd, .reg ra, .reg rb])
  | .sru8 rd ra rb => ("SRU8", [.reg rd, .reg ra, .reg rb])
  | .sru16 rd ra rb => ("SRU16", [.reg rd, .reg ra, .reg rb])
  | .sru32 rd ra rb => ("SRU32", [.reg rd, .reg ra, .reg rb])
  | .sru64 rd ra rb => ("SRU64", [.reg rd, .reg ra, .reg rb])
  | .srs8 rd ra rb => ("SRS8", [.reg rd, .reg ra, .reg rb])
  | .srs16 rd ra rb => ("SRS16", [.reg rd, .reg ra, .reg rb])
  | .srs32 rd ra rb => ("SRS32", [.reg rd, .reg ra, .reg rb])
  | .srs64 rd ra rb => ("SRS64", [.reg rd, .reg ra, .reg rb])
  | .cmpu rd ra rb => ("CMPU", [.reg rd, .reg ra, .reg rb])
  | .cmps rd ra rb => ("CMPS", [.reg rd, .reg ra, .reg rb])
  | .diru8 rq rr ra rb => ("DIRU8", [.reg rq, .reg rr, .reg ra, .reg rb])
  | .diru16 rq rr ra rb => ("DIRU16", [.reg rq, .reg rr, .reg ra, .reg rb])
  | .diru32 rq rr ra rb => ("DIRU32", [.reg rq, .reg rr, .reg ra, .reg rb])
  | .diru64 rq rr ra rb => ("DIRU64", [.reg rq, .reg rr, .reg ra, .reg rb])
  | .dirs8 rq rr ra rb => ("DIRS8", [.reg rq, .reg rr, .reg ra, .reg rb])
  | .dirs16 rq rr ra rb => ("DIRS16", [.reg rq, .reg rr, .reg ra, .reg rb])
  | .dirs32 rq rr ra rb => ("DIRS32", [.reg rq, .reg rr, .reg ra, .reg rb])
  | .dirs64 rq rr ra rb => ("DIRS64", [.reg rq, .reg rr, .reg ra, .reg rb])
  | .neg rd ra => ("NEG", [.reg rd, .reg ra])
  | .not rd ra => ("NOT", [.reg rd, .reg ra])
  | .sxt8 rd ra => ("SXT8", [.reg rd, .reg ra])
  | .sxt16 rd ra => ("SXT16", [.reg rd, .reg ra])
  | .sxt32 rd ra => ("SXT32", [.reg rd, .reg ra])
  | .addi8 rd ra imm => ("ADDI8", [.reg rd, .reg ra, .imm imm.toNat])
  | .addi16 rd ra imm => ("ADDI16", [.reg rd, .reg ra, .imm imm.toNat])
  | .addi32 rd ra imm => ("ADDI32", [.reg rd, .reg ra, .imm imm.toNat])
  | .addi64 rd ra imm => ("ADDI64", [.reg rd, .reg ra, .imm imm.toNat])
  | .muli8 rd ra imm => ("MULI8", [.reg rd, .reg ra, .imm imm.toNat])
  | .muli16 rd ra imm => ("MULI16", [.reg rd, .reg ra, .imm imm.toNat])
  | .muli32 rd ra imm => ("MULI32", [.reg rd, .reg ra, .imm imm.toNat])
  | .muli64 rd ra imm => ("MULI64", [.reg rd, .reg ra, .imm imm.toNat])
  | .andi rd ra imm => ("ANDI", [.reg rd, .reg ra, .imm imm.toNat])
  | .ori rd ra imm => ("ORI", [.reg rd, .reg ra, .imm imm.toNat])
  | .xori rd ra imm => ("XORI", [.reg rd, .reg ra, .imm imm.toNat])
  | .slui8 rd ra sh8 => ("SLUI8", [.reg rd, .reg ra, .imm sh8.toNat])
  | .slui16 rd ra sh8 => ("SLUI16", [.reg rd, .reg ra, .imm sh8.toNat])
  | .slui32 rd ra sh8 => ("SLUI32", [.reg rd, .reg ra, .imm sh8.toNat])
  | .slui64 rd ra sh8 => ("SLUI64", [.reg rd, .reg ra, .imm sh8.toNat])
  | .srui8 rd ra sh8 => ("SRUI8", [.reg rd, .reg ra, .imm sh8.toNat])
  | .srui16 rd ra sh8 => ("SRUI16", [.reg rd, .reg ra, .imm sh8.toNat])
  | .srui32 rd ra sh8 => ("SRUI32", [.reg rd, .reg ra, .imm sh8.toNat])
  | .srui64 rd ra sh8 => ("SRUI64", [.reg rd, .reg ra, .imm sh8.toNat])
  | .srsi8 rd ra sh8 => ("SRSI8", [.reg rd, .reg ra, .imm sh8.toNat])
  | .srsi16 rd ra sh8 => ("SRSI16", [.reg rd, .reg ra, .imm sh8.toNat])
  | .srsi32 rd ra sh8 => ("SRSI32", [.reg rd, .reg ra, .imm sh8.toNat])
  | .srsi64 rd ra sh8 => ("SRSI64", [.reg rd, .reg ra, .imm sh8.toNat])
  | .cmpui rd ra imm => ("CMPUI", [.reg rd, .reg ra, .imm imm.toNat])
  | .cmpsi rd ra imm => ("CMPSI", [.reg rd, .reg ra, .imm imm.toNat])
  | .cp rd ra => ("CP", [.reg rd, .reg ra])
  | .swa ra rb => ("SWA", [.reg ra, .reg rb])
  | .li8 rd imm => ("LI8", [.reg rd, .imm imm.toNat])
  | .li16 rd imm => ("LI16", [.reg rd, .imm imm.toNat])
  | .li32 rd imm => ("LI32", [.reg rd, .imm imm.toNat])
  | .li64 rd imm => ("LI64", [.reg rd, .imm imm.toNat])
  | .lra rd rb off => ("LRA", [.reg rd, .reg rb, .offset off.toInt])
  | .ld r rb addr64 size => ("LD", [.reg r, .reg rb, .imm addr64.toNat, .imm size.toNat])
  | .st r rb addr64 size => ("ST", [.reg r, .reg rb, .imm addr64.toNat, .imm size.toNat])
  | .ldr r rb off size => ("LDR", [.reg r, .reg rb, .offset off.toInt, .imm size.toNat])
  | .str r rb off size => ("STR", [.reg r, .reg rb, .offset off.toInt, .imm size.toNat])
  | .bmc rs rt count => ("BMC", [.reg rs, .reg rt, .imm count.toNat])
  | .brc rs rt count => ("BRC", [.reg rs, .reg rt, .imm count.toNat])
  | .jmp off => ("JMP", [.offset off.toInt])
  | .jal rl rb off => ("JAL", [.reg rl, .reg rb, .offset off.toInt])
  | .jala rl rb addr64 => ("JALA", [.reg rl, .reg rb, .imm addr64.toNat])
  | .jeq ra rb off => ("JEQ", [.reg ra, .reg rb, .offset off.toInt])
  | .jne ra rb off => ("JNE", [.reg ra, .reg rb, .offset off.toInt])
  | .jltu ra rb off => ("JLTU", [.reg ra, .reg rb, .offset off.toInt])
  | .jgtu ra rb off => ("JGTU", [.reg ra, .reg rb, .offset off.toInt])
  | .jlts ra rb off => ("JLTS", [.reg ra, .reg rb, .offset off.toInt])
  | .jgts ra rb off => ("JGTS", [.reg ra, .reg rb, .offset off.toInt])
  | .eca => ("ECA", [])
  | .ebp => ("EBP", [])
  | .fadd32 rd ra rb => ("FADD32", [.reg rd, .reg ra, .reg rb])
  | .fadd64 rd ra rb => ("FADD64", [.reg rd, .reg ra, .reg rb])
  | .fsub32 rd ra rb => ("FSUB32", [.reg rd, .reg ra, .reg rb])
  | .fsub64 rd ra rb => ("FSUB64", [.reg rd, .reg ra, .reg rb])
  | .fmul32 rd ra rb => ("FMUL32", [.reg rd, .reg ra, .reg rb])
  | .fmul64 rd ra rb => ("FMUL64", [.reg rd, .reg ra, .reg rb])
  | .fdiv32 rd ra rb => ("FDIV32", [.reg rd, .reg ra, .reg rb])
  | .fdiv64 rd ra rb => ("FDIV64", [.reg rd, .reg ra, .reg rb])
  | .fma32 rd ra rb rc => ("FMA32", [.reg rd, .reg ra, .reg rb, .reg rc])
  | .fma64 rd ra rb rc => ("FMA64", [.reg rd, .reg ra, .reg rb, .reg rc])
  | .fcmplt32 rd ra rb => ("FCMPLT32", [.reg rd, .reg ra, .reg rb])
  | .fcmplt64 rd ra rb => ("FCMPLT64", [.reg rd, .reg ra, .reg rb])
  | .fcmpgt32 rd ra rb => ("FCMPGT32", [.reg rd, .reg ra, .reg rb])
  | .fcmpgt64 rd ra rb => ("FCMPGT64", [.reg rd, .reg ra, .reg rb])
  | .itf32 rd ra => ("ITF32", [.reg rd, .reg ra])
  | .itf64 rd ra => ("ITF64", [.reg rd, .reg ra])
  | .fti32 rd ra rm => ("FTI32", [.reg rd, .reg ra, .imm rm.toNat])
  | .fti64 rd ra rm => ("FTI64", [.reg rd, .reg ra, .imm rm.toNat])
  | .fc32t64 rd ra => ("FC32T64", [.reg rd, .reg ra])
  | .fc64t32 rd ra rm => ("FC64T32", [.reg rd, .reg ra, .imm rm.toNat])
  | .lra16 rd rb off => ("LRA16", [.reg rd, .reg rb, .offset off.toInt])
  | .ldr16 r rb off size => ("LDR16", [.reg r, .reg rb, .offset off.toInt, .imm size.toNat])
  | .str16 r rb off size => ("STR16", [.reg r, .reg rb, .offset off.toInt, .imm size.toNat])
  | .jmp16 off => ("JMP16", [.offset off.toInt])

/-- The mnemonic of an instruction. -/
def Instr.mnemonic (i : Instr) : String :=
  i.asmParts.1

/-- One line of assembly: the mnemonic, then the operands separated by commas. -/
def Instr.asmText (i : Instr) : String :=
  match i.asmParts with
  | (m, []) => m
  | (m, os) => m ++ " " ++ String.intercalate ", " (os.map AsmOperand.text)

/-- The offset that is encoded for a label: the label's address less that of the offset field, `k` bytes into the instruction. -/
def asmLabelOffset (label instruction : Word) (k : Nat) : Int :=
  (label.toNat : Int) - (instruction.toNat + k)

/-! ## Idioms (R88, 48_psabi.md R355): each is an ordinary instruction -/

/-- Return from a call. -/
def Instr.idiomReturn : Instr := .jala 0#8 31#8 0#64

/-- Call at a relative offset. -/
def Instr.idiomCall (off : BitVec 32) : Instr := .jal 31#8 0#8 off

/-- Call through a register that holds an address. -/
def Instr.idiomCallThrough (rb : RegNum) : Instr := .jala 31#8 rb 0#64

/-- Register clear. -/
def Instr.idiomClear (rd : RegNum) : Instr := .cp rd 0#8

/-- Quotient only. -/
def Instr.idiomQuotient (rd ra rb : RegNum) : Instr := .diru64 rd 0#8 ra rb

/-- Remainder only. -/
def Instr.idiomRemainder (rd ra rb : RegNum) : Instr := .diru64 0#8 rd ra rb

/-- Arithmetic negation. -/
def Instr.idiomNegate (rd ra : RegNum) : Instr := .sub64 rd 0#8 ra

/-- Subtract an immediate. -/
def Instr.idiomSubtractImmediate (rd ra : RegNum) (imm : Word) : Instr := .addi64 rd ra (-imm)

/-- Load an address relative to the program counter. -/
def Instr.idiomLoadAddress (rd : RegNum) (off : BitVec 32) : Instr := .lra rd 0#8 off

/-- Entry of a function that calls others: makes room on the stack and saves r31 (48_psabi.md R355's example). -/
def Instr.idiomEnter : List Instr := [.addi64 254#8 254#8 (-8#64), .st 31#8 254#8 0#64 8#16]

/-- Exit of such a function, before it returns. -/
def Instr.idiomLeave : List Instr := [.ld 31#8 254#8 0#64 8#16, .addi64 254#8 254#8 8#64]

end Sys2Proof
end

