-- ==== Sys2Proof/Machine/Psabi.lean ====
section
/-! DEFINITION. The psABI (48_psabi.md): the sizes of the C types and the roles of the registers, conventions of software that no instruction uses (R350, assumption log 15). -/

namespace Sys2Proof.Psabi

open Sys2Proof

/-! ## C types (R351) -/

/-- The C types of the table. -/
inductive CType where
  | char | short | int | long | longLong | float | double | longDouble
  deriving DecidableEq, Repr

/-- The machine type of a C type. -/
inductive MachineType where
  | xi8 | xi16 | xi32 | xi64 | fl32 | fl64
  deriving DecidableEq, Repr

/-- The size of a C type in bytes. -/
def CType.size : CType → Nat
  | .char => 1
  | .short => 2
  | .int => 4
  | .long => 8
  | .longLong => 8
  | .float => 4
  | .double => 8
  | .longDouble => 8

/-- The machine type of a C type. -/
def CType.machineType : CType → MachineType
  | .char => .xi8
  | .short => .xi16
  | .int => .xi32
  | .long => .xi64
  | .longLong => .xi64
  | .float => .fl32
  | .double => .fl64
  | .longDouble => .fl64

/-- The size of a pointer in bytes. -/
def pointerSize : Nat := 8

/-! ## Registers (R352, R353) -/

/-- What a register is for. -/
inductive Role where
  | hardWiredZero | returnValue | parameter | general | returnAddress | stackPointer | threadPointer
  deriving DecidableEq, Repr

/-- The roles of a register, as the table has them; r2 has two (90_conflicts.md C7). -/
def roles (r : RegNum) : List Role :=
  let n := r.toNat
  if n = 0 then [.hardWiredZero]
  else if n = 1 then [.returnValue]
  else if n = 2 then [.returnValue, .parameter]
  else if n ≤ 11 then [.parameter]
  else if n ≤ 30 then [.general]
  else if n = 31 then [.returnAddress]
  else if n ≤ 253 then [.general]
  else if n = 254 then [.stackPointer]
  else [.threadPointer]

/-- Who saves a register across a call. -/
inductive Saver where
  | caller | callee | notApplicable
  deriving DecidableEq, Repr

/-- The saver of a register; r255 follows its table row, not the prose (90_conflicts.md C7). -/
def saver (r : RegNum) : Saver :=
  let n := r.toNat
  if n = 0 then .notApplicable
  else if n ≤ 31 then .caller
  else if n ≤ 254 then .callee
  else .notApplicable

/-! ## Passing values (R354) -/

/-- Whether a value of this size in bytes is passed by reference. -/
def byReference (size : Nat) : Bool := 16 < size

/-- Whether the spec gives a parameter of this size in bytes one register: the parameter itself, or its address. -/
def inOneRegister (size : Nat) : Bool := size ≤ 8 || byReference size

/-- The register of parameter `k`, counted from 0, of a function whose parameters have these sizes in bytes.
None where the spec says nothing: from the eleventh on, and where parameter `k` or one before it has 9 to 16 bytes, since
whether such a parameter takes two registers is open (91_not_in_source.md N15).
DESIGN CHOICE (assumption log 15): the model answers none there. -/
def parameterRegister (sizes : List Nat) (k : Nat) : Option RegNum :=
  if k < sizes.length ∧ k < 10 ∧ (sizes.take (k + 1)).all inOneRegister then some (BitVec.ofNat 8 (2 + k)) else none

/-- The registers of a return value of this size in bytes, its low half first; none when it is returned by reference. -/
def returnRegisters (size : Nat) : Option (List RegNum) :=
  if size ≤ 8 then some [1#8] else if size ≤ 16 then some [1#8, 2#8] else none

end Sys2Proof.Psabi
end

