-- ==== Sys2Proof/Tests/Slice0.lean ====
section
/-! SUPPORT. The model's own tests. A test named after a vector (`..._v9`) takes its start and its result from 95_test_vectors.md; the words of the decode tests are written out from the formats of 30_encoding.md R73; the witnesses show that what the statements assume can be met. -/

namespace Sys2Proof.Tests

open Sys2Proof Sys2Proof.Machine

-- One theorem at a time: a hundred small kernel evaluations side by side need more threads than they save time.
set_option Elab.async false

/-! ## Which operand values are accepted -/

/-- A rounding-mode byte of 4 or more is refused, 3 is not (30_encoding.md R79). -/
theorem test_wellFormed_rounding_mode :
    [Instr.fti32 3#8 1#8 4#8, .fti64 3#8 1#8 255#8, .fc64t32 3#8 1#8 4#8].map Instr.wellFormed = [false, false, false] ∧
    [Instr.fti32 3#8 1#8 3#8, .fti64 3#8 1#8 0#8, .fc64t32 3#8 1#8 3#8].map Instr.wellFormed = [true, true, true] := by
  decide

/-- A load or a store whose run passes register 255 is refused, one that ends there is not (44_memory_access.md R232). -/
theorem test_wellFormed_register_run :
    [Instr.ld 255#8 0#8 0#64 9#16, .st 255#8 0#8 0#64 9#16, .ldr 254#8 0#8 0#32 17#16, .str 0#8 0#8 0#32 2049#16,
      .ldr16 255#8 0#8 0#16 9#16, .str16 1#8 0#8 0#16 65535#16].map Instr.wellFormed =
      [false, false, false, false, false, false] ∧
    [Instr.ld 255#8 0#8 0#64 8#16, .st 0#8 0#8 0#64 2048#16, .ldr 254#8 0#8 0#32 16#16, .str 0#8 0#8 0#32 2048#16,
      .ldr16 255#8 0#8 0#16 8#16, .str16 255#8 0#8 0#16 0#16].map Instr.wellFormed =
      [true, true, true, true, true, true] := by
  decide

/-- A register copy whose source or destination passes register 255 is refused, one that ends there is not (R238). -/
theorem test_wellFormed_register_copy :
    (Instr.brc 250#8 10#8 7#8).wellFormed = false ∧ (Instr.brc 10#8 251#8 6#8).wellFormed = false ∧
    (Instr.brc 250#8 10#8 6#8).wellFormed = true ∧ (Instr.brc 10#8 250#8 6#8).wellFormed = true := by
  decide

/-! ## Decoding: one word of every instruction, written out from its format -/

/-- Program execution control (40_exec_control.md). -/
theorem test_decode_exec_control :
    decode [0x00#8] = .ok (.un, []) ∧
    decode [0x01#8] = .ok (.tx, []) ∧
    decode [0x02#8] = .ok (.nop, []) :=
  ⟨rfl, rfl, rfl⟩

/-- Register-register operations (41_int_reg_reg.md). -/
theorem test_decode_int_reg_reg :
    decode [0x03#8, 0xA1#8, 0xB2#8, 0xC3#8] = .ok (.add8 0xA1#8 0xB2#8 0xC3#8, []) ∧
    decode [0x04#8, 0xA1#8, 0xB2#8, 0xC3#8] = .ok (.add16 0xA1#8 0xB2#8 0xC3#8, []) ∧
    decode [0x05#8, 0xA1#8, 0xB2#8, 0xC3#8] = .ok (.add32 0xA1#8 0xB2#8 0xC3#8, []) ∧
    decode [0x06#8, 0xA1#8, 0xB2#8, 0xC3#8] = .ok (.add64 0xA1#8 0xB2#8 0xC3#8, []) ∧
    decode [0x07#8, 0xA1#8, 0xB2#8, 0xC3#8] = .ok (.sub8 0xA1#8 0xB2#8 0xC3#8, []) ∧
    decode [0x08#8, 0xA1#8, 0xB2#8, 0xC3#8] = .ok (.sub16 0xA1#8 0xB2#8 0xC3#8, []) ∧
    decode [0x09#8, 0xA1#8, 0xB2#8, 0xC3#8] = .ok (.sub32 0xA1#8 0xB2#8 0xC3#8, []) ∧
    decode [0x0A#8, 0xA1#8, 0xB2#8, 0xC3#8] = .ok (.sub64 0xA1#8 0xB2#8 0xC3#8, []) ∧
    decode [0x0B#8, 0xA1#8, 0xB2#8, 0xC3#8] = .ok (.mul8 0xA1#8 0xB2#8 0xC3#8, []) ∧
    decode [0x0C#8, 0xA1#8, 0xB2#8, 0xC3#8] = .ok (.mul16 0xA1#8 0xB2#8 0xC3#8, []) ∧
    decode [0x0D#8, 0xA1#8, 0xB2#8, 0xC3#8] = .ok (.mul32 0xA1#8 0xB2#8 0xC3#8, []) ∧
    decode [0x0E#8, 0xA1#8, 0xB2#8, 0xC3#8] = .ok (.mul64 0xA1#8 0xB2#8 0xC3#8, []) ∧
    decode [0x0F#8, 0xA1#8, 0xB2#8, 0xC3#8] = .ok (.and 0xA1#8 0xB2#8 0xC3#8, []) ∧
    decode [0x10#8, 0xA1#8, 0xB2#8, 0xC3#8] = .ok (.or 0xA1#8 0xB2#8 0xC3#8, []) ∧
    decode [0x11#8, 0xA1#8, 0xB2#8, 0xC3#8] = .ok (.xor 0xA1#8 0xB2#8 0xC3#8, []) ∧
    decode [0x12#8, 0xA1#8, 0xB2#8, 0xC3#8] = .ok (.slu8 0xA1#8 0xB2#8 0xC3#8, []) ∧
    decode [0x13#8, 0xA1#8, 0xB2#8, 0xC3#8] = .ok (.slu16 0xA1#8 0xB2#8 0xC3#8, []) ∧
    decode [0x14#8, 0xA1#8, 0xB2#8, 0xC3#8] = .ok (.slu32 0xA1#8 0xB2#8 0xC3#8, []) ∧
    decode [0x15#8, 0xA1#8, 0xB2#8, 0xC3#8] = .ok (.slu64 0xA1#8 0xB2#8 0xC3#8, []) ∧
    decode [0x16#8, 0xA1#8, 0xB2#8, 0xC3#8] = .ok (.sru8 0xA1#8 0xB2#8 0xC3#8, []) ∧
    decode [0x17#8, 0xA1#8, 0xB2#8, 0xC3#8] = .ok (.sru16 0xA1#8 0xB2#8 0xC3#8, []) ∧
    decode [0x18#8, 0xA1#8, 0xB2#8, 0xC3#8] = .ok (.sru32 0xA1#8 0xB2#8 0xC3#8, []) ∧
    decode [0x19#8, 0xA1#8, 0xB2#8, 0xC3#8] = .ok (.sru64 0xA1#8 0xB2#8 0xC3#8, []) ∧
    decode [0x1A#8, 0xA1#8, 0xB2#8, 0xC3#8] = .ok (.srs8 0xA1#8 0xB2#8 0xC3#8, []) ∧
    decode [0x1B#8, 0xA1#8, 0xB2#8, 0xC3#8] = .ok (.srs16 0xA1#8 0xB2#8 0xC3#8, []) ∧
    decode [0x1C#8, 0xA1#8, 0xB2#8, 0xC3#8] = .ok (.srs32 0xA1#8 0xB2#8 0xC3#8, []) ∧
    decode [0x1D#8, 0xA1#8, 0xB2#8, 0xC3#8] = .ok (.srs64 0xA1#8 0xB2#8 0xC3#8, []) ∧
    decode [0x1E#8, 0xA1#8, 0xB2#8, 0xC3#8] = .ok (.cmpu 0xA1#8 0xB2#8 0xC3#8, []) ∧
    decode [0x1F#8, 0xA1#8, 0xB2#8, 0xC3#8] = .ok (.cmps 0xA1#8 0xB2#8 0xC3#8, []) ∧
    decode [0x20#8, 0xA1#8, 0xB2#8, 0xC3#8, 0xD4#8] = .ok (.diru8 0xA1#8 0xB2#8 0xC3#8 0xD4#8, []) ∧
    decode [0x21#8, 0xA1#8, 0xB2#8, 0xC3#8, 0xD4#8] = .ok (.diru16 0xA1#8 0xB2#8 0xC3#8 0xD4#8, []) ∧
    decode [0x22#8, 0xA1#8, 0xB2#8, 0xC3#8, 0xD4#8] = .ok (.diru32 0xA1#8 0xB2#8 0xC3#8 0xD4#8, []) ∧
    decode [0x23#8, 0xA1#8, 0xB2#8, 0xC3#8, 0xD4#8] = .ok (.diru64 0xA1#8 0xB2#8 0xC3#8 0xD4#8, []) ∧
    decode [0x24#8, 0xA1#8, 0xB2#8, 0xC3#8, 0xD4#8] = .ok (.dirs8 0xA1#8 0xB2#8 0xC3#8 0xD4#8, []) ∧
    decode [0x25#8, 0xA1#8, 0xB2#8, 0xC3#8, 0xD4#8] = .ok (.dirs16 0xA1#8 0xB2#8 0xC3#8 0xD4#8, []) ∧
    decode [0x26#8, 0xA1#8, 0xB2#8, 0xC3#8, 0xD4#8] = .ok (.dirs32 0xA1#8 0xB2#8 0xC3#8 0xD4#8, []) ∧
    decode [0x27#8, 0xA1#8, 0xB2#8, 0xC3#8, 0xD4#8] = .ok (.dirs64 0xA1#8 0xB2#8 0xC3#8 0xD4#8, []) ∧
    decode [0x28#8, 0xA1#8, 0xB2#8] = .ok (.neg 0xA1#8 0xB2#8, []) ∧
    decode [0x29#8, 0xA1#8, 0xB2#8] = .ok (.not 0xA1#8 0xB2#8, []) ∧
    decode [0x2A#8, 0xA1#8, 0xB2#8] = .ok (.sxt8 0xA1#8 0xB2#8, []) ∧
    decode [0x2B#8, 0xA1#8, 0xB2#8] = .ok (.sxt16 0xA1#8 0xB2#8, []) ∧
    decode [0x2C#8, 0xA1#8, 0xB2#8] = .ok (.sxt32 0xA1#8 0xB2#8, []) :=
  ⟨rfl, rfl, rfl, rfl, rfl, rfl, rfl, rfl, rfl, rfl, rfl, rfl, rfl, rfl, rfl, rfl, rfl, rfl, rfl, rfl, rfl, rfl, rfl, rfl, rfl, rfl, rfl, rfl, rfl, rfl, rfl, rfl, rfl, rfl, rfl, rfl, rfl, rfl, rfl, rfl, rfl, rfl⟩

/-- Register-immediate operations (42_int_reg_imm.md). -/
theorem test_decode_int_reg_imm :
    decode [0x2D#8, 0xA1#8, 0xB2#8, 0x5E#8] = .ok (.addi8 0xA1#8 0xB2#8 0x5E#8, []) ∧
    decode [0x2E#8, 0xA1#8, 0xB2#8, 0x34#8, 0x12#8] = .ok (.addi16 0xA1#8 0xB2#8 0x1234#16, []) ∧
    decode [0x2F#8, 0xA1#8, 0xB2#8, 0xEF#8, 0xCD#8, 0xAB#8, 0x89#8] = .ok (.addi32 0xA1#8 0xB2#8 0x89ABCDEF#32, []) ∧
    decode [0x30#8, 0xA1#8, 0xB2#8, 0x12#8, 0x34#8, 0x56#8, 0x78#8, 0x9A#8, 0xBC#8, 0xDE#8, 0xF0#8] = .ok (.addi64 0xA1#8 0xB2#8 0xF0DEBC9A78563412#64, []) ∧
    decode [0x31#8, 0xA1#8, 0xB2#8, 0x5E#8] = .ok (.muli8 0xA1#8 0xB2#8 0x5E#8, []) ∧
    decode [0x32#8, 0xA1#8, 0xB2#8, 0x34#8, 0x12#8] = .ok (.muli16 0xA1#8 0xB2#8 0x1234#16, []) ∧
    decode [0x33#8, 0xA1#8, 0xB2#8, 0xEF#8, 0xCD#8, 0xAB#8, 0x89#8] = .ok (.muli32 0xA1#8 0xB2#8 0x89ABCDEF#32, []) ∧
    decode [0x34#8, 0xA1#8, 0xB2#8, 0x12#8, 0x34#8, 0x56#8, 0x78#8, 0x9A#8, 0xBC#8, 0xDE#8, 0xF0#8] = .ok (.muli64 0xA1#8 0xB2#8 0xF0DEBC9A78563412#64, []) ∧
    decode [0x35#8, 0xA1#8, 0xB2#8, 0x12#8, 0x34#8, 0x56#8, 0x78#8, 0x9A#8, 0xBC#8, 0xDE#8, 0xF0#8] = .ok (.andi 0xA1#8 0xB2#8 0xF0DEBC9A78563412#64, []) ∧
    decode [0x36#8, 0xA1#8, 0xB2#8, 0x12#8, 0x34#8, 0x56#8, 0x78#8, 0x9A#8, 0xBC#8, 0xDE#8, 0xF0#8] = .ok (.ori 0xA1#8 0xB2#8 0xF0DEBC9A78563412#64, []) ∧
    decode [0x37#8, 0xA1#8, 0xB2#8, 0x12#8, 0x34#8, 0x56#8, 0x78#8, 0x9A#8, 0xBC#8, 0xDE#8, 0xF0#8] = .ok (.xori 0xA1#8 0xB2#8 0xF0DEBC9A78563412#64, []) ∧
    decode [0x38#8, 0xA1#8, 0xB2#8, 0x5E#8] = .ok (.slui8 0xA1#8 0xB2#8 0x5E#8, []) ∧
    decode [0x39#8, 0xA1#8, 0xB2#8, 0x5E#8] = .ok (.slui16 0xA1#8 0xB2#8 0x5E#8, []) ∧
    decode [0x3A#8, 0xA1#8, 0xB2#8, 0x5E#8] = .ok (.slui32 0xA1#8 0xB2#8 0x5E#8, []) ∧
    decode [0x3B#8, 0xA1#8, 0xB2#8, 0x5E#8] = .ok (.slui64 0xA1#8 0xB2#8 0x5E#8, []) ∧
    decode [0x3C#8, 0xA1#8, 0xB2#8, 0x5E#8] = .ok (.srui8 0xA1#8 0xB2#8 0x5E#8, []) ∧
    decode [0x3D#8, 0xA1#8, 0xB2#8, 0x5E#8] = .ok (.srui16 0xA1#8 0xB2#8 0x5E#8, []) ∧
    decode [0x3E#8, 0xA1#8, 0xB2#8, 0x5E#8] = .ok (.srui32 0xA1#8 0xB2#8 0x5E#8, []) ∧
    decode [0x3F#8, 0xA1#8, 0xB2#8, 0x5E#8] = .ok (.srui64 0xA1#8 0xB2#8 0x5E#8, []) ∧
    decode [0x40#8, 0xA1#8, 0xB2#8, 0x5E#8] = .ok (.srsi8 0xA1#8 0xB2#8 0x5E#8, []) ∧
    decode [0x41#8, 0xA1#8, 0xB2#8, 0x5E#8] = .ok (.srsi16 0xA1#8 0xB2#8 0x5E#8, []) ∧
    decode [0x42#8, 0xA1#8, 0xB2#8, 0x5E#8] = .ok (.srsi32 0xA1#8 0xB2#8 0x5E#8, []) ∧
    decode [0x43#8, 0xA1#8, 0xB2#8, 0x5E#8] = .ok (.srsi64 0xA1#8 0xB2#8 0x5E#8, []) ∧
    decode [0x44#8, 0xA1#8, 0xB2#8, 0x12#8, 0x34#8, 0x56#8, 0x78#8, 0x9A#8, 0xBC#8, 0xDE#8, 0xF0#8] = .ok (.cmpui 0xA1#8 0xB2#8 0xF0DEBC9A78563412#64, []) ∧
    decode [0x45#8, 0xA1#8, 0xB2#8, 0x12#8, 0x34#8, 0x56#8, 0x78#8, 0x9A#8, 0xBC#8, 0xDE#8, 0xF0#8] = .ok (.cmpsi 0xA1#8 0xB2#8 0xF0DEBC9A78563412#64, []) :=
  ⟨rfl, rfl, rfl, rfl, rfl, rfl, rfl, rfl, rfl, rfl, rfl, rfl, rfl, rfl, rfl, rfl, rfl, rfl, rfl, rfl, rfl, rfl, rfl, rfl, rfl⟩

/-- Copies, load immediate, load address (43_copy_li_lra.md). -/
theorem test_decode_copy_load :
    decode [0x46#8, 0xA1#8, 0xB2#8] = .ok (.cp 0xA1#8 0xB2#8, []) ∧
    decode [0x47#8, 0xA1#8, 0xB2#8] = .ok (.swa 0xA1#8 0xB2#8, []) ∧
    decode [0x48#8, 0xA1#8, 0x5E#8] = .ok (.li8 0xA1#8 0x5E#8, []) ∧
    decode [0x49#8, 0xA1#8, 0x34#8, 0x12#8] = .ok (.li16 0xA1#8 0x1234#16, []) ∧
    decode [0x4A#8, 0xA1#8, 0xEF#8, 0xCD#8, 0xAB#8, 0x89#8] = .ok (.li32 0xA1#8 0x89ABCDEF#32, []) ∧
    decode [0x4B#8, 0xA1#8, 0x12#8, 0x34#8, 0x56#8, 0x78#8, 0x9A#8, 0xBC#8, 0xDE#8, 0xF0#8] = .ok (.li64 0xA1#8 0xF0DEBC9A78563412#64, []) ∧
    decode [0x4C#8, 0xA1#8, 0xB2#8, 0xF0#8, 0xFF#8, 0xFF#8, 0xFF#8] = .ok (.lra 0xA1#8 0xB2#8 (-16#32), []) :=
  ⟨rfl, rfl, rfl, rfl, rfl, rfl, rfl⟩

/-- Memory access (44_memory_access.md). -/
theorem test_decode_memory :
    decode [0x4D#8, 0xA1#8, 0xB2#8, 0x11#8, 0x22#8, 0x33#8, 0x44#8, 0x55#8, 0x66#8, 0x77#8, 0x88#8, 0x34#8, 0x12#8] = .ok (.ld 0xA1#8 0xB2#8 0x8877665544332211#64 0x1234#16, []) ∧
    decode [0x4E#8, 0xA1#8, 0xB2#8, 0x11#8, 0x22#8, 0x33#8, 0x44#8, 0x55#8, 0x66#8, 0x77#8, 0x88#8, 0x34#8, 0x12#8] = .ok (.st 0xA1#8 0xB2#8 0x8877665544332211#64 0x1234#16, []) ∧
    decode [0x4F#8, 0xA1#8, 0xB2#8, 0xF0#8, 0xFF#8, 0xFF#8, 0xFF#8, 0x34#8, 0x12#8] = .ok (.ldr 0xA1#8 0xB2#8 (-16#32) 0x1234#16, []) ∧
    decode [0x50#8, 0xA1#8, 0xB2#8, 0xF0#8, 0xFF#8, 0xFF#8, 0xFF#8, 0x34#8, 0x12#8] = .ok (.str 0xA1#8 0xB2#8 (-16#32) 0x1234#16, []) ∧
    decode [0x51#8, 0xA1#8, 0xB2#8, 0x34#8, 0x12#8] = .ok (.bmc 0xA1#8 0xB2#8 0x1234#16, []) ∧
    decode [0x52#8, 0xA1#8, 0xB2#8, 0x5E#8] = .ok (.brc 0xA1#8 0xB2#8 0x5E#8, []) :=
  ⟨rfl, rfl, rfl, rfl, rfl, rfl⟩

/-- Jumps and traps (45_jumps_and_traps.md). -/
theorem test_decode_jumps :
    decode [0x53#8, 0xF0#8, 0xFF#8, 0xFF#8, 0xFF#8] = .ok (.jmp (-16#32), []) ∧
    decode [0x54#8, 0xA1#8, 0xB2#8, 0xF0#8, 0xFF#8, 0xFF#8, 0xFF#8] = .ok (.jal 0xA1#8 0xB2#8 (-16#32), []) ∧
    decode [0x55#8, 0xA1#8, 0xB2#8, 0x11#8, 0x22#8, 0x33#8, 0x44#8, 0x55#8, 0x66#8, 0x77#8, 0x88#8] = .ok (.jala 0xA1#8 0xB2#8 0x8877665544332211#64, []) ∧
    decode [0x56#8, 0xA1#8, 0xB2#8, 0xFD#8, 0xFF#8] = .ok (.jeq 0xA1#8 0xB2#8 (-3#16), []) ∧
    decode [0x57#8, 0xA1#8, 0xB2#8, 0xFD#8, 0xFF#8] = .ok (.jne 0xA1#8 0xB2#8 (-3#16), []) ∧
    decode [0x58#8, 0xA1#8, 0xB2#8, 0xFD#8, 0xFF#8] = .ok (.jltu 0xA1#8 0xB2#8 (-3#16), []) ∧
    decode [0x59#8, 0xA1#8, 0xB2#8, 0xFD#8, 0xFF#8] = .ok (.jgtu 0xA1#8 0xB2#8 (-3#16), []) ∧
    decode [0x5A#8, 0xA1#8, 0xB2#8, 0xFD#8, 0xFF#8] = .ok (.jlts 0xA1#8 0xB2#8 (-3#16), []) ∧
    decode [0x5B#8, 0xA1#8, 0xB2#8, 0xFD#8, 0xFF#8] = .ok (.jgts 0xA1#8 0xB2#8 (-3#16), []) ∧
    decode [0x5C#8] = .ok (.eca, []) ∧
    decode [0x5D#8] = .ok (.ebp, []) :=
  ⟨rfl, rfl, rfl, rfl, rfl, rfl, rfl, rfl, rfl, rfl, rfl⟩

/-- Floating point (46_float.md). -/
theorem test_decode_float :
    decode [0x5E#8, 0xA1#8, 0xB2#8, 0xC3#8] = .ok (.fadd32 0xA1#8 0xB2#8 0xC3#8, []) ∧
    decode [0x5F#8, 0xA1#8, 0xB2#8, 0xC3#8] = .ok (.fadd64 0xA1#8 0xB2#8 0xC3#8, []) ∧
    decode [0x60#8, 0xA1#8, 0xB2#8, 0xC3#8] = .ok (.fsub32 0xA1#8 0xB2#8 0xC3#8, []) ∧
    decode [0x61#8, 0xA1#8, 0xB2#8, 0xC3#8] = .ok (.fsub64 0xA1#8 0xB2#8 0xC3#8, []) ∧
    decode [0x62#8, 0xA1#8, 0xB2#8, 0xC3#8] = .ok (.fmul32 0xA1#8 0xB2#8 0xC3#8, []) ∧
    decode [0x63#8, 0xA1#8, 0xB2#8, 0xC3#8] = .ok (.fmul64 0xA1#8 0xB2#8 0xC3#8, []) ∧
    decode [0x64#8, 0xA1#8, 0xB2#8, 0xC3#8] = .ok (.fdiv32 0xA1#8 0xB2#8 0xC3#8, []) ∧
    decode [0x65#8, 0xA1#8, 0xB2#8, 0xC3#8] = .ok (.fdiv64 0xA1#8 0xB2#8 0xC3#8, []) ∧
    decode [0x66#8, 0xA1#8, 0xB2#8, 0xC3#8, 0xD4#8] = .ok (.fma32 0xA1#8 0xB2#8 0xC3#8 0xD4#8, []) ∧
    decode [0x67#8, 0xA1#8, 0xB2#8, 0xC3#8, 0xD4#8] = .ok (.fma64 0xA1#8 0xB2#8 0xC3#8 0xD4#8, []) ∧
    decode [0x6A#8, 0xA1#8, 0xB2#8, 0xC3#8] = .ok (.fcmplt32 0xA1#8 0xB2#8 0xC3#8, []) ∧
    decode [0x6B#8, 0xA1#8, 0xB2#8, 0xC3#8] = .ok (.fcmplt64 0xA1#8 0xB2#8 0xC3#8, []) ∧
    decode [0x6C#8, 0xA1#8, 0xB2#8, 0xC3#8] = .ok (.fcmpgt32 0xA1#8 0xB2#8 0xC3#8, []) ∧
    decode [0x6D#8, 0xA1#8, 0xB2#8, 0xC3#8] = .ok (.fcmpgt64 0xA1#8 0xB2#8 0xC3#8, []) ∧
    decode [0x6E#8, 0xA1#8, 0xB2#8] = .ok (.itf32 0xA1#8 0xB2#8, []) ∧
    decode [0x6F#8, 0xA1#8, 0xB2#8] = .ok (.itf64 0xA1#8 0xB2#8, []) ∧
    decode [0x70#8, 0xA1#8, 0xB2#8, 0x5E#8] = .ok (.fti32 0xA1#8 0xB2#8 0x5E#8, []) ∧
    decode [0x71#8, 0xA1#8, 0xB2#8, 0x5E#8] = .ok (.fti64 0xA1#8 0xB2#8 0x5E#8, []) ∧
    decode [0x72#8, 0xA1#8, 0xB2#8] = .ok (.fc32t64 0xA1#8 0xB2#8, []) ∧
    decode [0x73#8, 0xA1#8, 0xB2#8, 0x5E#8] = .ok (.fc64t32 0xA1#8 0xB2#8 0x5E#8, []) :=
  ⟨rfl, rfl, rfl, rfl, rfl, rfl, rfl, rfl, rfl, rfl, rfl, rfl, rfl, rfl, rfl, rfl, rfl, rfl, rfl, rfl⟩

/-- 16-bit relative variants (47_rel16_variants.md). -/
theorem test_decode_rel16 :
    decode [0x74#8, 0xA1#8, 0xB2#8, 0xFD#8, 0xFF#8] = .ok (.lra16 0xA1#8 0xB2#8 (-3#16), []) ∧
    decode [0x75#8, 0xA1#8, 0xB2#8, 0xFD#8, 0xFF#8, 0x34#8, 0x12#8] = .ok (.ldr16 0xA1#8 0xB2#8 (-3#16) 0x1234#16, []) ∧
    decode [0x76#8, 0xA1#8, 0xB2#8, 0xFD#8, 0xFF#8, 0x34#8, 0x12#8] = .ok (.str16 0xA1#8 0xB2#8 (-3#16) 0x1234#16, []) ∧
    decode [0x77#8, 0xFD#8, 0xFF#8] = .ok (.jmp16 (-3#16), []) :=
  ⟨rfl, rfl, rfl, rfl⟩

/-- Bytes that are no instruction are refused by name (30_encoding.md R75, R84); what follows an instruction is left over. -/
theorem test_decode_refusals :
    decode [] = .error .empty ∧ decode [0x68#8] = .error (.unknownOpcode 0x68#8) ∧
    decode [0x78#8, 0x00#8] = .error (.unknownOpcode 0x78#8) ∧ decode [0xFF#8, 0x01#8] = .error (.unknownOpcode 0xFF#8) ∧
    decode [0x03#8, 0x01#8, 0x02#8] = .error (.truncated 0x03#8) ∧
    decode [0x02#8, 0x01#8] = .ok (.nop, [0x01#8]) :=
  ⟨rfl, rfl, rfl, rfl, rfl, rfl⟩

/-- A table word: byte 0 of the number is the opcode; bits the number does not give are 0. -/
theorem test_decodeTableWord :
    decodeTableWord 32 0x02010303 = some (.add8 3#8 1#8 2#8) ∧ decodeTableWord 8 0x4D = some (.ld 0#8 0#8 0#64 0#16) ∧
    decodeTableWord 8 0x68 = none :=
  ⟨rfl, rfl, rfl⟩

/-! ## One step of a small state -/

/-- A state at launch, but for the program counter, these registers and these bytes of memory, with this code at the
program counter. -/
def start (pc : Word) (code : List Byte) (regs : List (RegNum × Word)) (mem : List (Word × List Byte)) : State :=
  let s := regs.foldl (fun s rv => s.setReg rv.1 rv.2) State.reset
  { s with pc := pc, mem := Memory.writeBytes (mem.foldl (fun m ab => Memory.writeBytes m ab.1 ab.2) []) pc code }

/-- What the next step gives. -/
def next (s : State) : Option State :=
  match step s with
  | .next t => some t
  | _ => none

/-- The program counter and one register after the step. -/
def regAfter (pc : Word) (code : List Byte) (regs : List (RegNum × Word)) (mem : List (Word × List Byte)) (r : RegNum) :
    Option (Word × Word) :=
  (next (start pc code regs mem)).map fun t => (t.pc, t.reg r)

/-- The program counter and some registers after the step. -/
def regsAfter (pc : Word) (code : List Byte) (regs : List (RegNum × Word)) (mem : List (Word × List Byte))
    (rs : List RegNum) : Option (Word × List Word) :=
  (next (start pc code regs mem)).map fun t => (t.pc, rs.map t.reg)

/-- The program counter and some bytes of memory after the step. -/
def memAfter (pc : Word) (code : List Byte) (regs : List (RegNum × Word)) (mem : List (Word × List Byte)) (a : Word)
    (n : Nat) : Option (Word × List Byte) :=
  (next (start pc code regs mem)).map fun t => (t.pc, Memory.readBytes t.mem a n)

/-- The program counter and the status after the step. -/
def statusAfter (pc : Word) (code : List Byte) (regs : List (RegNum × Word)) (mem : List (Word × List Byte)) :
    Option (Word × RunStatus) :=
  (next (start pc code regs mem)).map fun t => (t.pc, t.status)

/-! ### Program execution control (40_exec_control.md) -/

theorem test_un_v1 : statusAfter 0x1000#64 [0x00#8] [] [] = some (0x1000#64, .faulted .unreachable) := by
  decide +kernel

theorem test_tx_v2 : statusAfter 0x1000#64 [0x01#8] [] [] = some (0x1001#64, .halted) := by
  decide +kernel

theorem test_nop_v3 : statusAfter 0x1000#64 [0x02#8] [] [] = some (0x1001#64, .running) := by
  decide +kernel

/-! ### Register-register operations (41_int_reg_reg.md) -/

theorem test_add8_v9 : regAfter 0x1000#64 [0x03#8, 0x03#8, 0x01#8, 0x02#8] [(1#8, 0xDEADBEEF000000FF#64), (2#8, 1#64)] [] 3#8 = some (0x1004#64, 0#64) := by
  decide +kernel

theorem test_add16_v11 : regAfter 0x1000#64 [0x04#8, 0x03#8, 0x01#8, 0x02#8] [(1#8, 0xFFFF#64), (2#8, 2#64)] [] 3#8 = some (0x1004#64, 1#64) := by
  decide +kernel

theorem test_add32_v12 : regAfter 0x1000#64 [0x05#8, 0x03#8, 0x01#8, 0x02#8] [(1#8, 0xDEADBEEFFFFFFFFF#64), (2#8, 0xDEADBEEF00000001#64), (3#8, 0x1111111111111111#64)] [] 3#8 = some (0x1004#64, 0#64) := by
  decide +kernel

theorem test_add64_v13 : regAfter 0x1000#64 [0x06#8, 0x03#8, 0x01#8, 0x02#8] [(1#8, 0xFFFFFFFFFFFFFFFF#64), (2#8, 2#64)] [] 3#8 = some (0x1004#64, 1#64) := by
  decide +kernel

theorem test_add64_v24 : regAfter 0x1000#64 [0x06#8, 0x00#8, 0x01#8, 0x02#8] [(1#8, 1#64), (2#8, 2#64)] [] 0#8 = some (0x1004#64, 0#64) := by
  decide +kernel

theorem test_sub8_v15 : regAfter 0x1000#64 [0x07#8, 0x03#8, 0x01#8, 0x02#8] [(1#8, 0#64), (2#8, 1#64)] [] 3#8 = some (0x1004#64, 0xFF#64) := by
  decide +kernel

/-- 0 - 1 in 16 bits, bit 16 of the source ignored. -/
theorem test_sub16 : regAfter 0x1000#64 [0x08#8, 0x03#8, 0x01#8, 0x02#8] [(1#8, 0x10000#64), (2#8, 1#64)] [] 3#8 = some (0x1004#64, 0xFFFF#64) := by
  decide +kernel

theorem test_sub32_v16 : regAfter 0x1000#64 [0x09#8, 0x03#8, 0x01#8, 0x02#8] [(1#8, 5#64), (2#8, 7#64)] [] 3#8 = some (0x1004#64, 0xFFFFFFFE#64) := by
  decide +kernel

theorem test_sub64_v17 : regAfter 0x1000#64 [0x0A#8, 0x03#8, 0x01#8, 0x02#8] [(1#8, 0#64), (2#8, 1#64)] [] 3#8 = some (0x1004#64, 0xFFFFFFFFFFFFFFFF#64) := by
  decide +kernel

theorem test_mul8_v19 : regAfter 0x1000#64 [0x0B#8, 0x03#8, 0x01#8, 0x02#8] [(1#8, 0x10#64), (2#8, 0x10#64)] [] 3#8 = some (0x1004#64, 0#64) := by
  decide +kernel

theorem test_mul16_v20 : regAfter 0x1000#64 [0x0C#8, 0x03#8, 0x01#8, 0x02#8] [(1#8, 0x100#64), (2#8, 0x101#64)] [] 3#8 = some (0x1004#64, 0x100#64) := by
  decide +kernel

theorem test_mul32_v21 : regAfter 0x1000#64 [0x0D#8, 0x03#8, 0x01#8, 0x02#8] [(1#8, 0xFFFFFFFF#64), (2#8, 0xFFFFFFFF#64)] [] 3#8 = some (0x1004#64, 1#64) := by
  decide +kernel

theorem test_mul64_v22 : regAfter 0x1000#64 [0x0E#8, 0x03#8, 0x01#8, 0x02#8] [(1#8, 0xFFFFFFFFFFFFFFFF#64), (2#8, 0xFFFFFFFFFFFFFFFF#64)] [] 3#8 = some (0x1004#64, 1#64) := by
  decide +kernel

theorem test_and_v26 : regAfter 0x1000#64 [0x0F#8, 0x03#8, 0x01#8, 0x02#8] [(1#8, 0xFF00FF00FF00FF00#64), (2#8, 0xFF00FF00FF00FF0#64)] [] 3#8 = some (0x1004#64, 0xF000F000F000F00#64) := by
  decide +kernel

theorem test_or_v27 : regAfter 0x1000#64 [0x10#8, 0x03#8, 0x01#8, 0x02#8] [(1#8, 0xFF00FF00FF00FF00#64), (2#8, 0xFF00FF00FF00FF0#64)] [] 3#8 = some (0x1004#64, 0xFFF0FFF0FFF0FFF0#64) := by
  decide +kernel

theorem test_xor_v28 : regAfter 0x1000#64 [0x11#8, 0x03#8, 0x01#8, 0x02#8] [(1#8, 0xFF00FF00FF00FF00#64), (2#8, 0xFF00FF00FF00FF0#64)] [] 3#8 = some (0x1004#64, 0xF0F0F0F0F0F0F0F0#64) := by
  decide +kernel

theorem test_slu8_v31 : regAfter 0x1000#64 [0x12#8, 0x03#8, 0x01#8, 0x02#8] [(1#8, 0x81#64), (2#8, 9#64)] [] 3#8 = some (0x1004#64, 2#64) := by
  decide +kernel

theorem test_slu16_v32 : regAfter 0x1000#64 [0x13#8, 0x03#8, 0x01#8, 0x02#8] [(1#8, 0xFF#64), (2#8, 0xC#64)] [] 3#8 = some (0x1004#64, 0xF000#64) := by
  decide +kernel

theorem test_slu32_v33 : regAfter 0x1000#64 [0x14#8, 0x03#8, 0x01#8, 0x02#8] [(1#8, 0xDEADBEEF80000001#64), (2#8, 1#64)] [] 3#8 = some (0x1004#64, 2#64) := by
  decide +kernel

theorem test_slu64_v34 : regAfter 0x1000#64 [0x15#8, 0x03#8, 0x01#8, 0x02#8] [(1#8, 0x8000000000000001#64), (2#8, 0x40#64)] [] 3#8 = some (0x1004#64, 0x8000000000000001#64) := by
  decide +kernel

theorem test_slu64_v35 : regAfter 0x1000#64 [0x15#8, 0x03#8, 0x01#8, 0x02#8] [(1#8, 1#64), (2#8, 0x3F#64)] [] 3#8 = some (0x1004#64, 0x8000000000000000#64) := by
  decide +kernel

theorem test_sru8_v36 : regAfter 0x1000#64 [0x16#8, 0x03#8, 0x01#8, 0x02#8] [(1#8, 0xDEADBEEF00000080#64), (2#8, 7#64)] [] 3#8 = some (0x1004#64, 1#64) := by
  decide +kernel

/-- amount 31 mod 16 = 15. -/
theorem test_sru16 : regAfter 0x1000#64 [0x17#8, 0x03#8, 0x01#8, 0x02#8] [(1#8, 0xDEAD8000#64), (2#8, 0x1F#64)] [] 3#8 = some (0x1004#64, 1#64) := by
  decide +kernel

theorem test_sru32_v37 : regAfter 0x1000#64 [0x18#8, 0x03#8, 0x01#8, 0x02#8] [(1#8, 0xDEADBEEF80000000#64), (2#8, 0x1F#64)] [] 3#8 = some (0x1004#64, 1#64) := by
  decide +kernel

theorem test_sru64_v38 : regAfter 0x1000#64 [0x19#8, 0x03#8, 0x01#8, 0x02#8] [(1#8, 0x8000000000000000#64), (2#8, 0xFFFFFFFFFFFFFF3F#64)] [] 3#8 = some (0x1004#64, 1#64) := by
  decide +kernel

theorem test_srs8_v39 : regAfter 0x1000#64 [0x1A#8, 0x03#8, 0x01#8, 0x02#8] [(1#8, 0x80#64), (2#8, 1#64)] [] 3#8 = some (0x1004#64, 0xC0#64) := by
  decide +kernel

theorem test_srs16_v40 : regAfter 0x1000#64 [0x1B#8, 0x03#8, 0x01#8, 0x02#8] [(1#8, 0x8000#64), (2#8, 0xF#64)] [] 3#8 = some (0x1004#64, 0xFFFF#64) := by
  decide +kernel

theorem test_srs32_v41 : regAfter 0x1000#64 [0x1C#8, 0x03#8, 0x01#8, 0x02#8] [(1#8, 0x7FFFFFFF#64), (2#8, 4#64)] [] 3#8 = some (0x1004#64, 0x7FFFFFF#64) := by
  decide +kernel

theorem test_srs64_v43 : regAfter 0x1000#64 [0x1D#8, 0x03#8, 0x01#8, 0x02#8] [(1#8, 0x4000000000000000#64), (2#8, 0x3E#64)] [] 3#8 = some (0x1004#64, 1#64) := by
  decide +kernel

theorem test_cmpu_v46 : regAfter 0x1000#64 [0x1E#8, 0x03#8, 0x01#8, 0x02#8] [(1#8, 0xFFFFFFFFFFFFFFFF#64), (2#8, 1#64)] [] 3#8 = some (0x1004#64, 1#64) := by
  decide +kernel

theorem test_cmps_v47 : regAfter 0x1000#64 [0x1F#8, 0x03#8, 0x01#8, 0x02#8] [(1#8, 0xFFFFFFFFFFFFFFFF#64), (2#8, 1#64)] [] 3#8 = some (0x1004#64, 0xFFFFFFFFFFFFFFFF#64) := by
  decide +kernel

theorem test_cmps_v48 : regAfter 0x1000#64 [0x1F#8, 0x03#8, 0x01#8, 0x02#8] [(1#8, 0x7FFFFFFFFFFFFFFF#64), (2#8, 0x8000000000000000#64)] [] 3#8 = some (0x1004#64, 1#64) := by
  decide +kernel

theorem test_diru8_v56 : regsAfter 0x1000#64 [0x20#8, 0x03#8, 0x04#8, 0x01#8, 0x02#8] [(1#8, 0xDEADBEEF000000C8#64), (2#8, 7#64)] [] [3#8, 4#8] = some (0x1005#64, [0x1C#64, 4#64]) := by
  decide +kernel

theorem test_diru8_v62 : regsAfter 0x1000#64 [0x20#8, 0x03#8, 0x04#8, 0x01#8, 0x02#8] [(1#8, 0xDEADBEEF00000034#64), (2#8, 0xDEADBEEF00000000#64)] [] [3#8, 4#8] = some (0x1005#64, [0xFFFFFFFFFFFFFFFF#64, 0x34#64]) := by
  decide +kernel

/-- 10 mod 3. -/
theorem test_diru16 : regAfter 0x1000#64 [0x21#8, 0x03#8, 0x04#8, 0x01#8, 0x02#8] [(1#8, 0x1000A#64), (2#8, 0x20003#64)] [] 4#8 = some (0x1005#64, 1#64) := by
  decide +kernel

theorem test_diru32_v58 : regsAfter 0x1000#64 [0x22#8, 0x03#8, 0x04#8, 0x01#8, 0x02#8] [(1#8, 0xDEADBEEF00000064#64), (2#8, 0xDEADBEEF00000007#64)] [] [3#8, 4#8] = some (0x1005#64, [0xE#64, 2#64]) := by
  decide +kernel

theorem test_diru64_v60 : regsAfter 0x1000#64 [0x23#8, 0x03#8, 0x04#8, 0x01#8, 0x02#8] [(1#8, 0x1234#64), (2#8, 0#64)] [] [3#8, 4#8] = some (0x1005#64, [0xFFFFFFFFFFFFFFFF#64, 0x1234#64]) := by
  decide +kernel

theorem test_diru64_v65 : regAfter 0x1000#64 [0x23#8, 0x03#8, 0x03#8, 0x01#8, 0x02#8] [(1#8, 0x11#64), (2#8, 5#64)] [] 3#8 = some (0x1005#64, 2#64) := by
  decide +kernel

theorem test_dirs8_v55 : regsAfter 0x1000#64 [0x24#8, 0x03#8, 0x04#8, 0x01#8, 0x02#8] [(1#8, 0x80#64), (2#8, 0xFF#64), (4#8, 5#64)] [] [3#8, 4#8] = some (0x1005#64, [0x80#64, 0#64]) := by
  decide +kernel

theorem test_dirs8_v57 : regsAfter 0x1000#64 [0x24#8, 0x03#8, 0x04#8, 0x01#8, 0x02#8] [(1#8, 0xC8#64), (2#8, 7#64)] [] [3#8, 4#8] = some (0x1005#64, [0xF8#64, 0#64]) := by
  decide +kernel

theorem test_dirs16_v59 : regsAfter 0x1000#64 [0x25#8, 0x03#8, 0x04#8, 0x01#8, 0x02#8] [(1#8, 0xFFF9#64), (2#8, 2#64)] [] [3#8, 4#8] = some (0x1005#64, [0xFFFD#64, 0xFFFF#64]) := by
  decide +kernel

/-- -7 / 2 = -3. -/
theorem test_dirs32 : regAfter 0x1000#64 [0x26#8, 0x03#8, 0x04#8, 0x01#8, 0x02#8] [(1#8, 0xFFFFFFF9#64), (2#8, 2#64)] [] 3#8 = some (0x1005#64, 0xFFFFFFFD#64) := by
  decide +kernel

theorem test_dirs64_v52 : regsAfter 0x1000#64 [0x27#8, 0x03#8, 0x04#8, 0x01#8, 0x02#8] [(1#8, 0xFFFFFFFFFFFFFFF9#64), (2#8, 2#64)] [] [3#8, 4#8] = some (0x1005#64, [0xFFFFFFFFFFFFFFFD#64, 0xFFFFFFFFFFFFFFFF#64]) := by
  decide +kernel

theorem test_dirs64_v54 : regsAfter 0x1000#64 [0x27#8, 0x03#8, 0x04#8, 0x01#8, 0x02#8] [(1#8, 0x8000000000000000#64), (2#8, 0xFFFFFFFFFFFFFFFF#64), (4#8, 5#64)] [] [3#8, 4#8] = some (0x1005#64, [0x8000000000000000#64, 0#64]) := by
  decide +kernel

theorem test_neg_v67 : regAfter 0x1000#64 [0x28#8, 0x03#8, 0x01#8] [(1#8, 0xFFFFFFFF#64)] [] 3#8 = some (0x1003#64, 0xFFFFFFFF00000000#64) := by
  decide +kernel

theorem test_not_v69 : regAfter 0x1000#64 [0x29#8, 0x03#8, 0x01#8] [(1#8, 0#64), (3#8, 9#64)] [] 3#8 = some (0x1003#64, 1#64) := by
  decide +kernel

theorem test_not_v70 : regAfter 0x1000#64 [0x29#8, 0x03#8, 0x01#8] [(1#8, 0x100000000#64), (3#8, 9#64)] [] 3#8 = some (0x1003#64, 0#64) := by
  decide +kernel

theorem test_sxt8_v72 : regAfter 0x1000#64 [0x2A#8, 0x03#8, 0x01#8] [(1#8, 0xDEADBEEF00000080#64)] [] 3#8 = some (0x1003#64, 0xFFFFFFFFFFFFFF80#64) := by
  decide +kernel

theorem test_sxt8_v73 : regAfter 0x1000#64 [0x2A#8, 0x03#8, 0x01#8] [(1#8, 0xDEADBEEF0000007F#64)] [] 3#8 = some (0x1003#64, 0x7F#64) := by
  decide +kernel

theorem test_sxt16_v74 : regAfter 0x1000#64 [0x2B#8, 0x03#8, 0x01#8] [(1#8, 0x18000#64)] [] 3#8 = some (0x1003#64, 0xFFFFFFFFFFFF8000#64) := by
  decide +kernel

theorem test_sxt32_v75 : regAfter 0x1000#64 [0x2C#8, 0x03#8, 0x01#8] [(1#8, 0x80000000#64)] [] 3#8 = some (0x1003#64, 0xFFFFFFFF80000000#64) := by
  decide +kernel

/-! ### Register-immediate operations (42_int_reg_imm.md) -/

theorem test_addi8_v77 : regAfter 0x1000#64 [0x2D#8, 0x03#8, 0x01#8, 0xFF#8] [(1#8, 1#64)] [] 3#8 = some (0x1004#64, 0#64) := by
  decide +kernel

theorem test_addi16_v78 : regAfter 0x1000#64 [0x2E#8, 0x03#8, 0x01#8, 0x00#8, 0x80#8] [(1#8, 0xDEADBEEF00008000#64)] [] 3#8 = some (0x1005#64, 0#64) := by
  decide +kernel

theorem test_addi32_v79 : regAfter 0x1000#64 [0x2F#8, 0x03#8, 0x01#8, 0x01#8, 0x00#8, 0x00#8, 0x00#8] [(1#8, 0xFFFFFFFF#64)] [] 3#8 = some (0x1007#64, 0#64) := by
  decide +kernel

theorem test_addi64_v81 : regAfter 0x1000#64 [0x30#8, 0xFE#8, 0xFE#8, 0xF0#8, 0xFF#8, 0xFF#8, 0xFF#8, 0xFF#8, 0xFF#8, 0xFF#8, 0xFF#8] [(254#8, 0x8000#64)] [] 254#8 = some (0x100B#64, 0x7FF0#64) := by
  decide +kernel

theorem test_muli8_v82 : regAfter 0x1000#64 [0x31#8, 0x03#8, 0x01#8, 0x03#8] [(1#8, 0x56#64)] [] 3#8 = some (0x1004#64, 2#64) := by
  decide +kernel

theorem test_muli16_v83 : regAfter 0x1000#64 [0x32#8, 0x03#8, 0x01#8, 0x00#8, 0x01#8] [(1#8, 0x1234#64)] [] 3#8 = some (0x1005#64, 0x3400#64) := by
  decide +kernel

theorem test_muli32_v84 : regAfter 0x1000#64 [0x33#8, 0x03#8, 0x01#8, 0x00#8, 0x00#8, 0x01#8, 0x00#8] [(1#8, 0x12345678#64)] [] 3#8 = some (0x1007#64, 0x56780000#64) := by
  decide +kernel

theorem test_muli64_v85 : regAfter 0x1000#64 [0x34#8, 0x03#8, 0x01#8, 0xFF#8, 0xFF#8, 0xFF#8, 0xFF#8, 0xFF#8, 0xFF#8, 0xFF#8, 0xFF#8] [(1#8, 5#64)] [] 3#8 = some (0x100B#64, 0xFFFFFFFFFFFFFFFB#64) := by
  decide +kernel

theorem test_andi_v86 : regAfter 0x1000#64 [0x35#8, 0x03#8, 0x01#8, 0xFF#8, 0x00#8, 0x00#8, 0x00#8, 0x00#8, 0x00#8, 0x00#8, 0x00#8] [(1#8, 0x123456789ABCDEF0#64)] [] 3#8 = some (0x100B#64, 0xF0#64) := by
  decide +kernel

theorem test_ori_v87 : regAfter 0x1000#64 [0x36#8, 0x03#8, 0x01#8, 0x00#8, 0x00#8, 0x00#8, 0x00#8, 0x00#8, 0x00#8, 0x00#8, 0x80#8] [(1#8, 1#64)] [] 3#8 = some (0x100B#64, 0x8000000000000001#64) := by
  decide +kernel

theorem test_xori_v88 : regAfter 0x1000#64 [0x37#8, 0x03#8, 0x01#8, 0xFF#8, 0xFF#8, 0xFF#8, 0xFF#8, 0xFF#8, 0xFF#8, 0xFF#8, 0xFF#8] [(1#8, 0xF0F0F0F0F0F0F0F#64)] [] 3#8 = some (0x100B#64, 0xF0F0F0F0F0F0F0F0#64) := by
  decide +kernel

theorem test_slui8_v89 : regAfter 0x1000#64 [0x38#8, 0x03#8, 0x01#8, 0x08#8] [(1#8, 0x81#64)] [] 3#8 = some (0x1004#64, 0x81#64) := by
  decide +kernel

theorem test_slui16_v90 : regAfter 0x1000#64 [0x39#8, 0x03#8, 0x01#8, 0x04#8] [(1#8, 0xF00F#64)] [] 3#8 = some (0x1004#64, 0xF0#64) := by
  decide +kernel

theorem test_slui32_v91 : regAfter 0x1000#64 [0x3A#8, 0x03#8, 0x01#8, 0x21#8] [(1#8, 0x40000001#64)] [] 3#8 = some (0x1004#64, 0x80000002#64) := by
  decide +kernel

theorem test_slui64_v92 : regAfter 0x1000#64 [0x3B#8, 0x03#8, 0x01#8, 0x04#8] [(1#8, 0xF00000000000000F#64)] [] 3#8 = some (0x1004#64, 0xF0#64) := by
  decide +kernel

theorem test_srui8_v93 : regAfter 0x1000#64 [0x3C#8, 0x03#8, 0x01#8, 0x04#8] [(1#8, 0xDEADBEEF000000F0#64)] [] 3#8 = some (0x1004#64, 0xF#64) := by
  decide +kernel

theorem test_srui16_v94 : regAfter 0x1000#64 [0x3D#8, 0x03#8, 0x01#8, 0x11#8] [(1#8, 0x8000#64)] [] 3#8 = some (0x1004#64, 0x4000#64) := by
  decide +kernel

/-- amount 33 mod 32 = 1, upper half ignored. -/
theorem test_srui32 : regAfter 0x1000#64 [0x3E#8, 0x03#8, 0x01#8, 0x21#8] [(1#8, 0xF00000003#64)] [] 3#8 = some (0x1004#64, 1#64) := by
  decide +kernel

theorem test_srui64_v95 : regAfter 0x1000#64 [0x3F#8, 0x03#8, 0x01#8, 0xFF#8] [(1#8, 0x8000000000000000#64)] [] 3#8 = some (0x1004#64, 1#64) := by
  decide +kernel

theorem test_srsi8_v96 : regAfter 0x1000#64 [0x40#8, 0x03#8, 0x01#8, 0x07#8] [(1#8, 0x80#64)] [] 3#8 = some (0x1004#64, 0xFF#64) := by
  decide +kernel

/-- sign bit 15. -/
theorem test_srsi16 : regAfter 0x1000#64 [0x41#8, 0x03#8, 0x01#8, 0x04#8] [(1#8, 0x8000#64)] [] 3#8 = some (0x1004#64, 0xF800#64) := by
  decide +kernel

theorem test_srsi32_v97 : regAfter 0x1000#64 [0x42#8, 0x03#8, 0x01#8, 0x1F#8] [(1#8, 0x80000000#64)] [] 3#8 = some (0x1004#64, 0xFFFFFFFF#64) := by
  decide +kernel

theorem test_srsi64_v98 : regAfter 0x1000#64 [0x43#8, 0x03#8, 0x01#8, 0x01#8] [(1#8, 0x8000000000000001#64)] [] 3#8 = some (0x1004#64, 0xC000000000000000#64) := by
  decide +kernel

theorem test_cmpui_v101 : regAfter 0x1000#64 [0x44#8, 0x03#8, 0x01#8, 0x01#8, 0x00#8, 0x00#8, 0x00#8, 0x00#8, 0x00#8, 0x00#8, 0x00#8] [(1#8, 0xFFFFFFFFFFFFFFFF#64)] [] 3#8 = some (0x100B#64, 1#64) := by
  decide +kernel

theorem test_cmpsi_v103 : regAfter 0x1000#64 [0x45#8, 0x03#8, 0x01#8, 0xFE#8, 0xFF#8, 0xFF#8, 0xFF#8, 0xFF#8, 0xFF#8, 0xFF#8, 0xFF#8] [(1#8, 0xFFFFFFFFFFFFFFFF#64)] [] 3#8 = some (0x100B#64, 1#64) := by
  decide +kernel

/-! ### Copies, load immediate, load address (43_copy_li_lra.md) -/

theorem test_cp_v105 : regAfter 0x1000#64 [0x46#8, 0x03#8, 0x01#8] [(1#8, 0x123456789ABCDEF0#64)] [] 3#8 = some (0x1003#64, 0x123456789ABCDEF0#64) := by
  decide +kernel

theorem test_cp_v107 : regAfter 0x1000#64 [0x46#8, 0x00#8, 0x01#8] [(1#8, 5#64)] [] 0#8 = some (0x1003#64, 0#64) := by
  decide +kernel

theorem test_swa_v108 : regsAfter 0x1000#64 [0x47#8, 0x01#8, 0x02#8] [(1#8, 0xAAAA#64), (2#8, 0xBBBB#64)] [] [1#8, 2#8] = some (0x1003#64, [0xBBBB#64, 0xAAAA#64]) := by
  decide +kernel

theorem test_swa_v109 : regAfter 0x1000#64 [0x47#8, 0x01#8, 0x00#8] [(1#8, 0xAAAA#64)] [] 1#8 = some (0x1003#64, 0#64) := by
  decide +kernel

theorem test_li8_v111 : regAfter 0x1000#64 [0x48#8, 0x03#8, 0xFF#8] [(3#8, 0xFFFFFFFFFFFFFFFF#64)] [] 3#8 = some (0x1003#64, 0xFF#64) := by
  decide +kernel

theorem test_li16_v112 : regAfter 0x1000#64 [0x49#8, 0x03#8, 0x01#8, 0x80#8] [(3#8, 0xFFFFFFFFFFFFFFFF#64)] [] 3#8 = some (0x1004#64, 0x8001#64) := by
  decide +kernel

theorem test_li32_v113 : regAfter 0x1000#64 [0x4A#8, 0x03#8, 0xEF#8, 0xBE#8, 0xAD#8, 0xDE#8] [(3#8, 0xFFFFFFFFFFFFFFFF#64)] [] 3#8 = some (0x1006#64, 0xDEADBEEF#64) := by
  decide +kernel

theorem test_li64_v114 : regAfter 0x1000#64 [0x4B#8, 0x03#8, 0x11#8, 0x22#8, 0x33#8, 0x44#8, 0x55#8, 0x66#8, 0x77#8, 0x88#8] [] [] 3#8 = some (0x100A#64, 0x8877665544332211#64) := by
  decide +kernel

theorem test_lra_v116 : regAfter 0x1000#64 [0x4C#8, 0x03#8, 0x01#8, 0xF0#8, 0xFF#8, 0xFF#8, 0xFF#8] [(1#8, 0x100#64)] [] 3#8 = some (0x1007#64, 0x10F3#64) := by
  decide +kernel

theorem test_lra_v118 : regAfter 0x1000#64 [0x4C#8, 0x03#8, 0x01#8, 0x00#8, 0x00#8, 0x00#8, 0x80#8] [(1#8, 0xFFFFFFFFFFFFFFFF#64)] [] 3#8 = some (0x1007#64, 0xFFFFFFFF80001002#64) := by
  decide +kernel

/-! ### Memory access (44_memory_access.md) -/

theorem test_ld_v119 : regsAfter 0x1000#64 [0x4D#8, 0x01#8, 0x02#8, 0x00#8, 0x00#8, 0x00#8, 0x00#8, 0x00#8, 0x00#8, 0x00#8, 0x00#8, 0x10#8, 0x00#8] [(2#8, 0x2000#64)] [(0x2000#64, [0x00#8, 0x01#8, 0x02#8, 0x03#8, 0x04#8, 0x05#8, 0x06#8, 0x07#8, 0x08#8, 0x09#8, 0x0A#8, 0x0B#8, 0x0C#8, 0x0D#8, 0x0E#8, 0x0F#8])] [1#8, 2#8] = some (0x100D#64, [0x706050403020100#64, 0xF0E0D0C0B0A0908#64]) := by
  decide +kernel

theorem test_ld_v122 : regsAfter 0x1000#64 [0x4D#8, 0x03#8, 0x02#8, 0x01#8, 0x00#8, 0x00#8, 0x00#8, 0x00#8, 0x00#8, 0x00#8, 0x00#8, 0x0C#8, 0x00#8] [(2#8, 0x2000#64), (3#8, 0xFFFFFFFFFFFFFFFF#64), (4#8, 0xFFFFFFFFFFFFFFFF#64)] [(0x2000#64, [0x00#8, 0x01#8, 0x02#8, 0x03#8, 0x04#8, 0x05#8, 0x06#8, 0x07#8, 0x08#8, 0x09#8, 0x0A#8, 0x0B#8, 0x0C#8, 0x0D#8, 0x0E#8, 0x0F#8])] [3#8, 4#8] = some (0x100D#64, [0x807060504030201#64, 0xFFFFFFFF0C0B0A09#64]) := by
  decide +kernel

theorem test_st_v129 : memAfter 0x1000#64 [0x4E#8, 0x01#8, 0x03#8, 0x00#8, 0x00#8, 0x00#8, 0x00#8, 0x00#8, 0x00#8, 0x00#8, 0x00#8, 0x08#8, 0x00#8] [(1#8, 0x1122334455667788#64), (3#8, 0x3000#64)] [] 0x3000#64 8 = some (0x100D#64, [0x88#8, 0x77#8, 0x66#8, 0x55#8, 0x44#8, 0x33#8, 0x22#8, 0x11#8]) := by
  decide +kernel

theorem test_st_v133 : statusAfter 0x1000#64 [0x4E#8, 0x01#8, 0x00#8, 0x00#8, 0x00#8, 0x00#8, 0x00#8, 0x00#8, 0x00#8, 0x00#8, 0x00#8, 0x08#8, 0x00#8] [(1#8, 5#64)] [] = some (0x1000#64, .faulted (.memoryAccessFault .write 0x0#64)) := by
  decide +kernel

theorem test_ldr_v136 : regAfter 0x1000#64 [0x4F#8, 0x03#8, 0x01#8, 0xFD#8, 0xFF#8, 0xFF#8, 0xFF#8, 0x02#8, 0x00#8] [(1#8, 0x1000#64)] [(0x2000#64, [0x34#8, 0x12#8])] 3#8 = some (0x1009#64, 0x1234#64) := by
  decide +kernel

theorem test_str_v137 : memAfter 0x1000#64 [0x50#8, 0x01#8, 0x00#8, 0x00#8, 0x02#8, 0x00#8, 0x00#8, 0x04#8, 0x00#8] [(1#8, 0xCAFEBABE12345678#64)] [] 0x1203#64 4 = some (0x1009#64, [0x78#8, 0x56#8, 0x34#8, 0x12#8]) := by
  decide +kernel

theorem test_bmc_v139 : memAfter 0x1000#64 [0x51#8, 0x01#8, 0x02#8, 0x06#8, 0x00#8] [(1#8, 0x2000#64), (2#8, 0x2002#64)] [(0x2000#64, [0x01#8, 0x02#8, 0x03#8, 0x04#8, 0x05#8, 0x06#8, 0x07#8, 0x08#8])] 0x2002#64 6 = some (0x1005#64, [0x01#8, 0x02#8, 0x03#8, 0x04#8, 0x05#8, 0x06#8]) := by
  decide +kernel

theorem test_bmc_v143 : statusAfter 0x1000#64 [0x51#8, 0x00#8, 0x02#8, 0x01#8, 0x00#8] [(2#8, 0x2000#64)] [] = some (0x1000#64, .faulted (.memoryAccessFault .read 0x0#64)) := by
  decide +kernel

theorem test_brc_v145 : regsAfter 0x1000#64 [0x52#8, 0x01#8, 0x02#8, 0x03#8] [(1#8, 0xA#64), (2#8, 0xB#64), (3#8, 0xC#64), (4#8, 0xD#64)] [] [2#8, 3#8, 4#8] = some (0x1004#64, [0xA#64, 0xB#64, 0xC#64]) := by
  decide +kernel

theorem test_brc_v146 : statusAfter 0x1000#64 [0x52#8, 0xFA#8, 0x0A#8, 0x07#8] [(250#8, 1#64), (251#8, 2#64)] [] = some (0x1000#64, .faulted (.invalidOperand .registerRange)) := by
  decide +kernel

/-! ### Jumps and traps (45_jumps_and_traps.md) -/

theorem test_jmp_v151 : statusAfter 0x1000#64 [0x53#8, 0x10#8, 0x00#8, 0x00#8, 0x00#8] [] [] = some (0x1011#64, .running) := by
  decide +kernel

theorem test_jal_v154 : regAfter 0x1000#64 [0x54#8, 0x1F#8, 0x00#8, 0x00#8, 0x01#8, 0x00#8, 0x00#8] [] [] 31#8 = some (0x1103#64, 0x1007#64) := by
  decide +kernel

theorem test_jal_v156 : regAfter 0x1000#64 [0x54#8, 0x05#8, 0x05#8, 0x00#8, 0x00#8, 0x00#8, 0x00#8] [(5#8, 0x4000#64)] [] 5#8 = some (0x200A#64, 0x1007#64) := by
  decide +kernel

theorem test_jala_v157 : regAfter 0x1000#64 [0x55#8, 0x1F#8, 0x04#8, 0x20#8, 0x00#8, 0x00#8, 0x00#8, 0x00#8, 0x00#8, 0x00#8, 0x00#8] [(4#8, 0x5000#64)] [] 31#8 = some (0x5020#64, 0x100B#64) := by
  decide +kernel

theorem test_jala_v158 : regAfter 0x1103#64 [0x55#8, 0x00#8, 0x1F#8, 0x00#8, 0x00#8, 0x00#8, 0x00#8, 0x00#8, 0x00#8, 0x00#8, 0x00#8] [(31#8, 0x1007#64)] [] 0#8 = some (0x1007#64, 0#64) := by
  decide +kernel

theorem test_jeq_v159 : statusAfter 0x1000#64 [0x56#8, 0x01#8, 0x02#8, 0x20#8, 0x00#8] [(1#8, 5#64), (2#8, 5#64)] [] = some (0x1023#64, .running) := by
  decide +kernel

theorem test_jeq_v160 : statusAfter 0x1000#64 [0x56#8, 0x01#8, 0x02#8, 0x20#8, 0x00#8] [(1#8, 5#64), (2#8, 6#64)] [] = some (0x1005#64, .running) := by
  decide +kernel

theorem test_jne_v161 : statusAfter 0x1000#64 [0x57#8, 0x01#8, 0x00#8, 0xFD#8, 0xFF#8] [(1#8, 1#64)] [] = some (0x1000#64, .running) := by
  decide +kernel

theorem test_jne_v162 : statusAfter 0x1000#64 [0x57#8, 0x01#8, 0x00#8, 0xFD#8, 0xFF#8] [(1#8, 0#64)] [] = some (0x1005#64, .running) := by
  decide +kernel

theorem test_jltu_v163 : statusAfter 0x1000#64 [0x58#8, 0x01#8, 0x02#8, 0x10#8, 0x00#8] [(1#8, 1#64), (2#8, 0xFFFFFFFFFFFFFFFF#64)] [] = some (0x1013#64, .running) := by
  decide +kernel

theorem test_jgtu_v165 : statusAfter 0x1000#64 [0x59#8, 0x01#8, 0x02#8, 0x10#8, 0x00#8] [(1#8, 0xFFFFFFFFFFFFFFFF#64), (2#8, 1#64)] [] = some (0x1013#64, .running) := by
  decide +kernel

theorem test_jlts_v164 : statusAfter 0x1000#64 [0x5A#8, 0x01#8, 0x02#8, 0x10#8, 0x00#8] [(1#8, 1#64), (2#8, 0xFFFFFFFFFFFFFFFF#64)] [] = some (0x1005#64, .running) := by
  decide +kernel

theorem test_jgts_v166 : statusAfter 0x1000#64 [0x5B#8, 0x01#8, 0x02#8, 0x10#8, 0x00#8] [(1#8, 0xFFFFFFFFFFFFFFFF#64), (2#8, 1#64)] [] = some (0x1005#64, .running) := by
  decide +kernel

theorem test_eca_v169 : statusAfter 0x1000#64 [0x5C#8] [(1#8, 0x2A#64)] [] = some (0x1001#64, .trapped .environmentCall) := by
  decide +kernel

theorem test_ebp_v170 : statusAfter 0x1000#64 [0x5D#8] [] [] = some (0x1001#64, .trapped .breakpoint) := by
  decide +kernel

/-! ### Floating point (46_float.md) -/

theorem test_fadd32_v173 : regAfter 0x1000#64 [0x5E#8, 0x03#8, 0x01#8, 0x02#8] [(1#8, 0x3F800001#64), (2#8, 0x33800000#64)] [] 3#8 = some (0x1004#64, 0x3F800002#64) := by
  decide +kernel

theorem test_fadd32_v174 : regAfter 0x1000#64 [0x5E#8, 0x03#8, 0x01#8, 0x02#8] [(1#8, 0x7F7FFFFF#64), (2#8, 0x7F7FFFFF#64)] [] 3#8 = some (0x1004#64, 0x7F800000#64) := by
  decide +kernel

theorem test_fadd64_v176 : regAfter 0x1000#64 [0x5F#8, 0x03#8, 0x01#8, 0x02#8] [(1#8, 0x3FB999999999999A#64), (2#8, 0x3FC999999999999A#64)] [] 3#8 = some (0x1004#64, 0x3FD3333333333334#64) := by
  decide +kernel

theorem test_fsub32_v177 : regAfter 0x1000#64 [0x60#8, 0x03#8, 0x01#8, 0x01#8] [(1#8, 0x40400000#64), (3#8, 9#64)] [] 3#8 = some (0x1004#64, 0#64) := by
  decide +kernel

theorem test_fsub64_v178 : regAfter 0x1000#64 [0x61#8, 0x03#8, 0x01#8, 0x02#8] [(1#8, 0x3FF0000000000000#64), (2#8, 0x4000000000000000#64)] [] 3#8 = some (0x1004#64, 0xBFF0000000000000#64) := by
  decide +kernel

theorem test_fmul32_v179 : regAfter 0x1000#64 [0x62#8, 0x03#8, 0x01#8, 0x02#8] [(1#8, 0x80000000#64), (2#8, 0x40000000#64)] [] 3#8 = some (0x1004#64, 0x80000000#64) := by
  decide +kernel

theorem test_fmul32_v180 : regAfter 0x1000#64 [0x62#8, 0x03#8, 0x01#8, 0x02#8] [(1#8, 1#64), (2#8, 0x3F000000#64)] [] 3#8 = some (0x1004#64, 0#64) := by
  decide +kernel

theorem test_fmul64_v181 : regAfter 0x1000#64 [0x63#8, 0x03#8, 0x01#8, 0x02#8] [(1#8, 0x3FF8000000000000#64), (2#8, 0xC004000000000000#64)] [] 3#8 = some (0x1004#64, 0xC00E000000000000#64) := by
  decide +kernel

theorem test_fdiv32_v183 : regAfter 0x1000#64 [0x64#8, 0x03#8, 0x01#8, 0x02#8] [(1#8, 0x3F800000#64), (2#8, 0x40400000#64)] [] 3#8 = some (0x1004#64, 0x3EAAAAAB#64) := by
  decide +kernel

theorem test_fdiv32_v185 : regAfter 0x1000#64 [0x64#8, 0x03#8, 0x01#8, 0x02#8] [(1#8, 0xBF800000#64), (2#8, 0#64)] [] 3#8 = some (0x1004#64, 0xFF800000#64) := by
  decide +kernel

theorem test_fdiv64_v187 : regAfter 0x1000#64 [0x65#8, 0x03#8, 0x01#8, 0x02#8] [(1#8, 0x3FF0000000000000#64), (2#8, 0x4008000000000000#64)] [] 3#8 = some (0x1004#64, 0x3FD5555555555555#64) := by
  decide +kernel

theorem test_fma32_v188 : regAfter 0x1000#64 [0x66#8, 0x04#8, 0x01#8, 0x02#8, 0x03#8] [(1#8, 0x3F800800#64), (2#8, 0x3F800800#64), (3#8, 0xBF801000#64)] [] 4#8 = some (0x1005#64, 0x33800000#64) := by
  decide +kernel

theorem test_fma64_v189 : regAfter 0x1000#64 [0x67#8, 0x04#8, 0x01#8, 0x02#8, 0x03#8] [(1#8, 0x4000000000000000#64), (2#8, 0x4008000000000000#64), (3#8, 0x3FF0000000000000#64)] [] 4#8 = some (0x1005#64, 0x401C000000000000#64) := by
  decide +kernel

theorem test_fcmplt32_v190 : regAfter 0x1000#64 [0x6A#8, 0x03#8, 0x01#8, 0x02#8] [(1#8, 0x3F800000#64), (2#8, 0x40000000#64)] [] 3#8 = some (0x1004#64, 0xFFFFFFFFFFFFFFFF#64) := by
  decide +kernel

theorem test_fcmplt32_v194 : regAfter 0x1000#64 [0x6A#8, 0x03#8, 0x01#8, 0x02#8] [(1#8, 0x7FC00000#64), (2#8, 0x3F800000#64)] [] 3#8 = some (0x1004#64, 0xFFFFFFFFFFFFFFFF#64) := by
  decide +kernel

theorem test_fcmplt64_v195 : regAfter 0x1000#64 [0x6B#8, 0x03#8, 0x01#8, 0x02#8] [(1#8, 0x3FF0000000000000#64), (2#8, 0x7FF8000000000000#64)] [] 3#8 = some (0x1004#64, 0xFFFFFFFFFFFFFFFF#64) := by
  decide +kernel

theorem test_fcmpgt32_v193 : regAfter 0x1000#64 [0x6C#8, 0x03#8, 0x01#8, 0x02#8] [(1#8, 0xFF800000#64), (2#8, 0x7F800000#64)] [] 3#8 = some (0x1004#64, 0xFFFFFFFFFFFFFFFF#64) := by
  decide +kernel

theorem test_fcmpgt32_v196 : regAfter 0x1000#64 [0x6C#8, 0x03#8, 0x01#8, 0x02#8] [(1#8, 0x7FC00000#64), (2#8, 0x3F800000#64)] [] 3#8 = some (0x1004#64, 1#64) := by
  decide +kernel

theorem test_fcmpgt64_v192 : regAfter 0x1000#64 [0x6D#8, 0x03#8, 0x01#8, 0x02#8] [(1#8, 0x4000000000000000#64), (2#8, 0x3FF0000000000000#64)] [] 3#8 = some (0x1004#64, 1#64) := by
  decide +kernel

theorem test_fcmpgt64_v197 : regAfter 0x1000#64 [0x6D#8, 0x03#8, 0x01#8, 0x02#8] [(1#8, 0x7FF8000000000000#64), (2#8, 0x7FF8000000000000#64)] [] 3#8 = some (0x1004#64, 1#64) := by
  decide +kernel

theorem test_itf32_v198 : regAfter 0x1000#64 [0x6E#8, 0x03#8, 0x01#8] [(1#8, 0x1000001#64)] [] 3#8 = some (0x1003#64, 0x4B800000#64) := by
  decide +kernel

theorem test_itf32_v199 : regAfter 0x1000#64 [0x6E#8, 0x03#8, 0x01#8] [(1#8, 0xFFFFFFFFFFFFFFFF#64)] [] 3#8 = some (0x1003#64, 0xBF800000#64) := by
  decide +kernel

theorem test_itf64_v200 : regAfter 0x1000#64 [0x6F#8, 0x03#8, 0x01#8] [(1#8, 0x20000000000001#64)] [] 3#8 = some (0x1003#64, 0x4340000000000000#64) := by
  decide +kernel

theorem test_itf64_v201 : regAfter 0x1000#64 [0x6F#8, 0x03#8, 0x01#8] [(1#8, 0x8000000000000000#64)] [] 3#8 = some (0x1003#64, 0xC3E0000000000000#64) := by
  decide +kernel

theorem test_fti32_v205 : regAfter 0x1000#64 [0x70#8, 0x03#8, 0x01#8, 0x02#8] [(1#8, 0x40200000#64)] [] 3#8 = some (0x1004#64, 3#64) := by
  decide +kernel

theorem test_fti32_v211 : statusAfter 0x1000#64 [0x70#8, 0x03#8, 0x01#8, 0x04#8] [(1#8, 0x40200000#64), (3#8, 9#64)] [] = some (0x1000#64, .faulted (.invalidOperand .roundingMode)) := by
  decide +kernel

theorem test_fti64_v208 : regAfter 0x1000#64 [0x71#8, 0x03#8, 0x01#8, 0x03#8] [(1#8, 0xC004000000000000#64)] [] 3#8 = some (0x1004#64, 0xFFFFFFFFFFFFFFFD#64) := by
  decide +kernel

theorem test_fti64_v212 : statusAfter 0x1000#64 [0x71#8, 0x03#8, 0x01#8, 0xFF#8] [(1#8, 0x3FF0000000000000#64), (3#8, 9#64)] [] = some (0x1000#64, .faulted (.invalidOperand .roundingMode)) := by
  decide +kernel

theorem test_fc32t64_v214 : regAfter 0x1000#64 [0x72#8, 0x03#8, 0x01#8] [(1#8, 1#64)] [] 3#8 = some (0x1003#64, 0x36A0000000000000#64) := by
  decide +kernel

theorem test_fc64t32_v216 : regAfter 0x1000#64 [0x73#8, 0x03#8, 0x01#8, 0x00#8] [(1#8, 0x3FB999999999999A#64)] [] 3#8 = some (0x1004#64, 0x3DCCCCCD#64) := by
  decide +kernel

theorem test_fc64t32_v221 : regAfter 0x1000#64 [0x73#8, 0x03#8, 0x01#8, 0x01#8] [(1#8, 0x483D6329F1C35CA5#64)] [] 3#8 = some (0x1004#64, 0x7F7FFFFF#64) := by
  decide +kernel

/-! ### 16-bit relative variants (47_rel16_variants.md) -/

theorem test_lra16_v223 : regAfter 0x1000#64 [0x74#8, 0x03#8, 0x01#8, 0xF0#8, 0xFF#8] [(1#8, 0x100#64)] [] 3#8 = some (0x1005#64, 0x10F3#64) := by
  decide +kernel

theorem test_ldr16_v225 : regAfter 0x1000#64 [0x75#8, 0x03#8, 0x00#8, 0x00#8, 0x01#8, 0x08#8, 0x00#8] [] [(0x1103#64, [0xEF#8, 0xBE#8, 0xAD#8, 0xDE#8, 0x00#8, 0x00#8, 0x00#8, 0x00#8])] 3#8 = some (0x1007#64, 0xDEADBEEF#64) := by
  decide +kernel

theorem test_str16_v227 : memAfter 0x1000#64 [0x76#8, 0x01#8, 0x00#8, 0x00#8, 0x02#8, 0x04#8, 0x00#8] [(1#8, 0xCAFEBABE12345678#64)] [] 0x1203#64 4 = some (0x1007#64, [0x78#8, 0x56#8, 0x34#8, 0x12#8]) := by
  decide +kernel

theorem test_str16_v228 : statusAfter 0x1000#64 [0x76#8, 0xFF#8, 0x00#8, 0x00#8, 0x02#8, 0x09#8, 0x00#8] [(255#8, 1#64)] [] = some (0x1000#64, .faulted (.invalidOperand .registerRange)) := by
  decide +kernel

theorem test_jmp16_v230 : statusAfter 0x1000#64 [0x77#8, 0xFF#8, 0xFF#8] [] [] = some (0x1000#64, .running) := by
  decide +kernel

/-! ## Witnesses: what a statement assumes can be met, at the ends of its ranges -/

/-- The word at 0x1000 with nothing else in memory. -/
def holding (code : List Byte) : State := start 0x1000#64 code [] []

/-- `StepKeepsInvariant`: a state with the invariant that has a next state. -/
theorem witness_invariant_step :
    Memory.wf (holding [0x02#8]).mem = true ∧ (holding [0x02#8]).regs[0] = 0#64 ∧
    step (holding [0x02#8]) = .next { holding [0x02#8] with pc := 0x1001#64 } :=
  ⟨by decide +kernel, by decide +kernel, rfl⟩

/-- `EncodeOfDecode`: bytes that decode. -/
theorem witness_decodes : decode [0x48#8, 0x03#8, 0xFF#8, 0x07#8] = .ok (.li8 3#8 0xFF#8, [0x07#8]) := rfl

/-- `OpcodeAloneDecidesLength`: two instructions with one opcode, and one that is cut short by a byte. -/
theorem witness_same_opcode :
    (encode (.ld 1#8 2#8 3#64 4#16)).head? = (encode (.ld 255#8 0#8 (-1#64) 0#16)).head? ∧
    (encode (.ld 1#8 2#8 3#64 4#16)).head? = some 0x4D#8 ∧
    (List.replicate 11 (0#8 : Byte)).length + 1 < (encode (.ld 1#8 2#8 3#64 4#16)).length := by
  decide

/-- `UnassignedOpcodesAreUnknown`, `FetchFollowsItsOrder`: a running state whose fetchable opcode byte is each end of each
unassigned range. -/
theorem witness_unassigned_opcode :
    [0x68#8, 0x69#8, 0x78#8, 0xFF#8].all (fun op =>
      let s := holding [op]
      decide (s.status = .running) && s.allows .fetch s.pc &&
        decide (s.byteAt s.pc = 0x68#8 ∨ s.byteAt s.pc = 0x69#8 ∨ 0x78 ≤ (s.byteAt s.pc).toNat)) = true := by
  decide +kernel

/-- `StepRunsTheDecodedInstruction`, `FetchFollowsItsOrder`: the longest instruction, all of it fetchable, at the last place
of the address space where it fits. -/
theorem witness_fetchable :
    let i := Instr.ld 1#8 0#8 0x2000#64 16#16
    let s := start 0xFFFFFFFFFFFFFFF3#64 (encode i) [] []
    s.status = .running ∧ (∀ k < (encode i).length, s.allows .fetch (s.pc + BitVec.ofNat 64 k) = true) ∧
    Memory.readBytes s.mem s.pc (encode i).length = encode i := by
  decide +kernel

theorem witness_fetchable_decodes :
    decode (encode (.ld 1#8 0#8 0x2000#64 16#16)) = .ok (.ld 1#8 0#8 0x2000#64 16#16, []) := rfl

/-- `FetchFollowsItsOrder`: an opcode byte that may not be fetched, and an operand byte that may not. -/
theorem witness_not_fetchable :
    (start 0#64 [] [] []).allows .fetch 0#64 = false ∧
    (let s := start 0xFFFFFFFFFFFFFFFF#64 [0x48#8] [] []
     s.allows .fetch s.pc = true ∧ (encode (.li8 0#8 0#8)).head? = some (s.byteAt s.pc) ∧
       s.allows .fetch (s.pc + 1#64 + BitVec.ofNat 64 0) = false) := by
  decide +kernel

/-- `RunningStepKeepsMapAndHost`: a running state with acts of the host that has a next state. -/
theorem witness_running_with_host :
    let s := { holding [0x5C#8] with host := [.resume] }
    s.status = .running ∧ step s = .next { s with pc := 0x1001#64, status := .trapped .environmentCall } :=
  ⟨rfl, rfl⟩

/-- `OnlyStoresWriteMemory`: a store of one byte completes, next to an address that is outside it. -/
theorem witness_store_next :
    let s := start 0x1000#64 [] [(1#8, 0xAA#64)] []
    exec (.st 1#8 0#8 0x2000#64 1#16) s =
      .next { s with pc := 0x100D#64, mem := Memory.write s.mem 0x2000 0xAA#8 } ∧
    destination (.st 1#8 0#8 0x2000#64 1#16) s = some (0x2000#64, 1) ∧ (0x2001#64 : Word) ≠ 0x2000#64 :=
  ⟨rfl, rfl, by decide⟩

/-- `OnlyNamedRegistersAreWritten`: registers that a load, a copy and a division do not name, at the ends of their runs. -/
theorem witness_not_named :
    [mayWrite (.ld 4#8 0#8 0#64 9#16) 3#8, mayWrite (.ld 4#8 0#8 0#64 9#16) 6#8, mayWrite (.ld 4#8 0#8 0#64 0#16) 4#8,
      mayWrite (.brc 1#8 3#8 2#8) 2#8, mayWrite (.brc 1#8 3#8 2#8) 5#8, mayWrite (.diru8 1#8 2#8 3#8 4#8) 3#8] =
      [false, false, false, false, false, false] ∧
    [mayWrite (.ld 4#8 0#8 0#64 9#16) 4#8, mayWrite (.ld 4#8 0#8 0#64 9#16) 5#8, mayWrite (.brc 1#8 3#8 2#8) 3#8,
      mayWrite (.brc 1#8 3#8 2#8) 4#8, mayWrite (.diru8 1#8 2#8 3#8 4#8) 2#8] = [true, true, true, true, true] := by
  decide

/-- `ProgramCounterMovesByLength`, `ExceptionLeavesTheRest`: a running state and an instruction that raises, by an operand
and by an access, and one that is no jump and goes on from the last address. -/
theorem witness_raises :
    let s := start 0x1000#64 [] [] []
    s.status = .running ∧
    exec (.fti32 3#8 1#8 4#8) s = .next { s with status := .faulted (.invalidOperand .roundingMode) } ∧
    exec (.ld 1#8 0#8 0#64 1#16) s =
      .next { s with status := .faulted (.memoryAccessFault .read 0#64), draws := 1 } :=
  ⟨rfl, rfl, rfl⟩

theorem witness_goes_on :
    let s := start 0xFFFFFFFFFFFFFFFF#64 [] [] []
    s.status = .running ∧ exec .nop s = .next { s with pc := 0#64 } ∧ isJump .nop = false :=
  ⟨rfl, rfl, rfl⟩

/-- `HostActsOnAStoppedMachine`: a trapped and a faulted state with each of the acts. -/
theorem witness_host_acts :
    let acts := [HostAct.setReg 1#8 5#64, .setReg 0#8 5#64, .setPc 7#64, .setByte 9#64 1#8, .setByte 0#64 1#8,
      .setMemMap [], .resume]
    (acts.map fun act => { State.reset with host := [act], status := .trapped .breakpoint }.host) = acts.map ([·]) ∧
    (acts.map fun act => { State.reset with host := [act], status := .faulted .unreachable }.host) = acts.map ([·]) :=
  ⟨rfl, rfl⟩

/-- A resumed machine runs from its program counter (60_exceptions.md R369; program P7 of 95_test_vectors.md). -/
theorem test_resume :
    let s := start 0x1006#64 [0x5C#8] [] []
    let stopped := { s with pc := 0x1007#64, status := .trapped .environmentCall, host := [.resume] }
    step { s with host := [.resume] } = .next stopped ∧
    step stopped = .next { s with pc := 0x1007#64, status := .running } :=
  ⟨rfl, rfl⟩

/-- `StoppedMachineStays`: a halted state, and a trapped one whose host has nothing to do. -/
theorem witness_stopped :
    ({ State.reset with status := .halted } : State).status = .halted ∧
    (let s := { State.reset with status := .trapped .breakpoint }; s.status ≠ .running ∧ s.host = []) := by
  decide +kernel

/-- `SignedDivisionGivesBoth`: divisors whose low bits are and are not 0 at each width; the quotient that wraps. -/
theorem witness_divisors :
    [8, 16, 32].all (fun n => decide (low n (BitVec.ofNat 64 (2 ^ n)) = 0) && decide (low n (-1#64) ≠ 0)) = true ∧
    low 64 0#64 = 0 ∧ low 64 (-1#64) ≠ 0 ∧ signedReading 64 (2 ^ 63) = -2 ^ 63 ∧
    (signedReading 64 (2 ^ 63)).tdiv (signedReading 64 (2 ^ 64 - 1)) = 2 ^ 63 := by
  decide

/-- `LoadsFillRegisterBytes`, `StoresWriteRegisterBytes`: the whole register file, the last register, and no byte at all. -/
theorem witness_register_run :
    8 * (0#8 : RegNum).toNat + (2048#16 : BitVec 16).toNat ≤ 2048 ∧
    8 * (255#8 : RegNum).toNat + (8#16 : BitVec 16).toNat ≤ 2048 ∧
    8 * (255#8 : RegNum).toNat + (0#16 : BitVec 16).toNat ≤ 2048 := by
  decide

/-- The same statements: 2048 bytes of memory that may be read and written, at each address form. -/
theorem witness_allowed_run :
    (∀ k < 2048, State.reset.allows .read (0x2000#64 + BitVec.ofNat 64 k) = true) ∧
    (∀ k < 2048, State.reset.allows .write (0x2000#64 + BitVec.ofNat 64 k) = true) ∧
    State.reset.absoluteAddress 0#8 0x2000#64 = 0x2000#64 ∧
    State.reset.relativeAddressReg 0#8 0xFFD#32 = 0x2000#64 ∧
    State.reset.relativeAddressReg 0#8 0xFFD#16 = 0x2000#64 := by
  refine ⟨fun k hk => ?_, fun k hk => ?_, by decide +kernel, by decide +kernel, by decide +kernel⟩
  all_goals
    have h : 0x2000#64 + BitVec.ofNat 64 k ≠ 0#64 := by bv_omega
    have h2 : (8192 + k) % 2 ^ 64 = 8192 + k := by omega
    simp [State.allows, State.reset, State.launchMemMap, Region.contains, Region.permits, h]
    omega

/-- `RegisterRunPastTheLastRaises`: one byte and one register too many. -/
theorem witness_past_the_last :
    2048 < 8 * (255#8 : RegNum).toNat + (9#16 : BitVec 16).toNat ∧
    2048 < 8 * (0#8 : RegNum).toNat + (2049#16 : BitVec 16).toNat ∧
    256 < (250#8 : RegNum).toNat + (7#8 : Byte).toNat ∧ 256 < (255#8 : RegNum).toNat + (2#8 : Byte).toNat := by
  decide

/-- `LoadFaultsChangeNothing`, `StoreFaultsLeaveOldOrNewBytes`: eight bytes that wrap to address 0, at each address form. -/
theorem witness_fault :
    [AccessKind.read, .write].all (fun kind =>
      decide (¬ ∀ k : Nat, k < 8 → State.reset.allows kind (0xFFFFFFFFFFFFFFF9#64 + BitVec.ofNat 64 k) = true)) = true ∧
    State.reset.absoluteAddress 0#8 0xFFFFFFFFFFFFFFF9#64 = 0xFFFFFFFFFFFFFFF9#64 ∧
    State.reset.relativeAddressReg 0#8 (-0x100A#32) = 0xFFFFFFFFFFFFFFF9#64 ∧
    State.reset.relativeAddressReg 0#8 (-0x100A#16) = 0xFFFFFFFFFFFFFFF9#64 := by
  decide +kernel

/-- `BlockMemoryCopy`, `BlockMemoryCopyFaults`: a copy that may be made, one with a bad source, one with a bad destination. -/
theorem witness_block_copy :
    let s := start 0x1000#64 [] [(1#8, 0x2000#64), (2#8, 0x2002#64)] []
    (∀ k < 6, s.allows .read (s.reg 1#8 + BitVec.ofNat 64 k) = true) ∧
    (∀ k < 6, s.allows .write (s.reg 2#8 + BitVec.ofNat 64 k) = true) ∧
    (¬ ∀ k < 1, s.allows .read (s.reg 0#8 + BitVec.ofNat 64 k) = true) ∧
    (¬ ∀ k < 1, s.allows .write (s.reg 0#8 + BitVec.ofNat 64 k) = true) := by
  decide +kernel

/-- `BlockRegisterCopy`: runs that end at register 255. -/
theorem witness_register_copy :
    (250#8 : RegNum).toNat + (6#8 : Byte).toNat ≤ 256 ∧ (1#8 : RegNum).toNat + (255#8 : Byte).toNat ≤ 256 := by
  decide

/-- `RoundingIsIeee`: an exact fraction, a tie between 1 and the next number of the format. -/
theorem witness_rounding : 0 < 2 ∧ binary32.round .nearestEven false (2 ^ 150 + 2 ^ 126) 2 = 0x3F800000 := by
  decide +kernel

/-- `FloatComparisonsGiveOrderings`: a NaN, a smaller and an equal datum of each format. -/
theorem witness_float_order :
    binary32.datum 0x7FC00000 = .nan ∧ binary64.datum 0x7FF8000000000000 = .nan ∧
    binary32.datum 0xFF800000 = .inf true ∧ binary64.datum 0x7FEFFFFFFFFFFFFF = .fin false ((2 ^ 53 - 1) * 2 ^ 2045) ∧
    binary32.datum 0x80000000 = .fin true 0 ∧ binary64.datum 0x8000000000000000 = .fin true 0 ∧
    binary32.datum 1 = .fin false 1 ∧ signed true 0 = signed false 0 ∧ signed true 1 < signed false 0 := by
  decide +kernel

/-- `BadRoundingByteRaises`: the least and the greatest bad byte. -/
theorem witness_bad_rounding_byte : 4 ≤ (4#8 : Byte).toNat ∧ 4 ≤ (255#8 : Byte).toNat := by
  decide

/-! ## The assembler's notation (30_encoding.md R87, R88) and the psABI (48_psabi.md) -/

/-- Lines of assembly as 95_test_vectors.md writes them (V116, V158, V2). -/
theorem test_asmText :
    (Instr.lra 3#8 1#8 (-16#32)).asmText = "LRA r3, r1, -16" ∧ Instr.idiomReturn.asmText = "JALA r0, r31, 0" ∧
    Instr.tx.asmText = "TX" := by
  decide +kernel

/-- The offset encoded for a label is counted from the offset field (program P1 of 95_test_vectors.md). -/
theorem test_label_offset : asmLabelOffset 0x1014#64 0x1023#64 3 = -18 := by
  decide

/-- Roles of registers, parameter registers and return registers by size (48_psabi.md R352, R354). -/
theorem test_psabi :
    Psabi.roles 254#8 = [.stackPointer] ∧ Psabi.saver 31#8 = .caller ∧ Psabi.parameterRegister [8, 17, 4] 2 = some 4#8 ∧
    Psabi.parameterRegister [8, 16, 8] 0 = some 2#8 ∧ Psabi.parameterRegister [8, 16, 8] 2 = none ∧
    Psabi.returnRegisters 16 = some [1#8, 2#8] ∧ Psabi.returnRegisters 17 = none := by
  decide

end Sys2Proof.Tests
end

section
/-! The opcode decides the length (30_encoding.md R75): every encoding has the length of its opcode's row, and parsing a row's
operands fails exactly when bytes are missing. -/

namespace Sys2Proof

/-! ## Every encoding has the length of its opcode's row -/

open Laws.EncodedLength in
/-- `Laws.EncodedLength.Statement` holds of every instruction: its lemmas, in the order of the constructors. -/
theorem encodedLength_statement : ∀ i : Instr, Statement i :=
  Instr.rec (motive := Statement) un tx nop
    add8 add16 add32 add64 sub8 sub16 sub32 sub64 mul8 mul16 mul32 mul64 and or xor
    slu8 slu16 slu32 slu64 sru8 sru16 sru32 sru64 srs8 srs16 srs32 srs64 cmpu cmps
    diru8 diru16 diru32 diru64 dirs8 dirs16 dirs32 dirs64 neg not sxt8 sxt16 sxt32
    addi8 addi16 addi32 addi64 muli8 muli16 muli32 muli64 andi ori xori
    slui8 slui16 slui32 slui64 srui8 srui16 srui32 srui64 srsi8 srsi16 srsi32 srsi64 cmpui cmpsi
    cp swa li8 li16 li32 li64 lra ld st ldr str bmc brc
    jmp jal jala jeq jne jltu jgtu jlts jgts eca ebp
    fadd32 fadd64 fsub32 fsub64 fmul32 fmul64 fdiv32 fdiv64 fma32 fma64
    fcmplt32 fcmplt64 fcmpgt32 fcmpgt64 itf32 itf64 fti32 fti64 fc32t64 fc64t32
    lra16 ldr16 str16 jmp16

/-- An encoding starts with an assigned opcode and has the length of that opcode's row. -/
theorem exists_encode_row (i : Instr) :
    ∃ op row, (encode i).head? = some op ∧ opcodeRow op = some row ∧ row.length = (encode i).length := by
  obtain ⟨⟨op, operands, row, hencode, hrow, hlength⟩, -⟩ := encodedLength_statement i
  exact ⟨op, row, by rw [hencode, List.head?_cons], hrow, hlength⟩

/-- The length of an encoding is a function of its first byte. -/
theorem opcodeRow_length_of_head? {i : Instr} {op : Byte} (hop : (encode i).head? = some op) :
    (opcodeRow op).map Row.length = some (encode i).length := by
  obtain ⟨op', row, hop', hrow, hlength⟩ := exists_encode_row i
  obtain rfl : op' = op := Option.some.inj (hop'.symm.trans hop)
  rw [hrow, Option.map_some, hlength]

/-! ## Parsing fails exactly when bytes are missing -/

/-- A reader of bytes fails exactly on the lists of fewer than `n` bytes. -/
def FailsBelow {α : Type} (n : Nat) (read : List Byte → Option α) : Prop :=
  ∀ bs, read bs = none ↔ bs.length < n

/-- When no operand is left, nothing fails. -/
theorem FailsBelow.done {α : Type} (f : List Byte → α) : FailsBelow 0 (fun bs => some (f bs)) :=
  fun bs => by simp

/-- An operand of one byte adds 1 to what must be there. -/
theorem FailsBelow.byte {α : Type} {n : Nat} {k : Byte → List Byte → Option α} (hk : ∀ b, FailsBelow n (k b)) :
    FailsBelow (n + 1) (fun bs => withByte bs k)
  | [] => by simp [withByte]
  | b :: bs => by simpa [withByte] using hk b bs

/-- A little-endian operand of `n` bytes adds `n`. -/
theorem FailsBelow.le {α : Type} {n m w : Nat} {k : BitVec w → List Byte → Option α} (hk : ∀ v, FailsBelow m (k v)) :
    FailsBelow (n + m) (fun bs => withLe n w bs k) := by
  intro bs
  simp only [withLe]
  split
  next hnone =>
    have hshort : bs.length < n := takeLe_eq_none.mp hnone
    simp only [true_iff]
    omega
  next v rest hsome =>
    have hlength : rest.length + n = bs.length := takeLe_length hsome
    rw [hk _ rest]
    omega

/-- The operands of a row take exactly the bytes that its length leaves after the opcode (30_encoding.md R73, R74). -/
theorem Row.parse_failsBelow (row : Row) : FailsBelow (row.length - 1) row.parse := by
  unfold Row.parse
  cases row with
  | n i => exact .done _
  | rr f | rb f => exact .byte fun _ => .byte fun _ => .done _
  | rrr f | rrb f => exact .byte fun _ => .byte fun _ => .byte fun _ => .done _
  | rrrr f => exact .byte fun _ => .byte fun _ => .byte fun _ => .byte fun _ => .done _
  | rrh f | rrw f | rrd f | rro f | rrp f | rra f =>
    exact .byte fun _ => .byte fun _ => .le fun _ => .done _
  | rh f | rw f | rd f => exact .byte fun _ => .le fun _ => .done _
  | rrah f | rroh f | rrph f => exact .byte fun _ => .byte fun _ => .le fun _ => .le fun _ => .done _
  | o f | p f => exact .le fun _ => .done _

/-- The decoder refuses an assigned opcode as truncated exactly when bytes of its row are missing. -/
theorem decode_eq_truncated_iff {op : Byte} {row : Row} (hrow : opcodeRow op = some row) (operands : List Byte) :
    decode (op :: operands) = .error (.truncated op) ↔ operands.length + 1 < row.length := by
  have hparse : row.parse operands = none ↔ operands.length < row.length - 1 := Row.parse_failsBelow row operands
  rw [← Nat.lt_sub_iff_add_lt, ← hparse]
  simp only [decode, hrow]
  cases row.parse operands <;> simp

/-- Settles O6: the first byte selects the row, the row has the encoding's length, and parsing fails below it. -/
theorem opcodeAloneDecidesLength : Obligations.OpcodeAloneDecidesLength := by
  unfold Obligations.OpcodeAloneDecidesLength
  constructor
  · intro i j hheads
    obtain ⟨op, -, hop, -, -⟩ := exists_encode_row i
    have hi := opcodeRow_length_of_head? hop
    have hj := opcodeRow_length_of_head? (hheads ▸ hop)
    exact Option.some.inj (hi.symm.trans hj)
  · intro i op operands hop hshort
    obtain ⟨row, hrow, hlength⟩ := Option.map_eq_some_iff.mp (opcodeRow_length_of_head? hop)
    exact (decode_eq_truncated_iff hrow operands).mpr (hlength ▸ hshort)

end Sys2Proof
end

section
/-! Program execution control (40_exec_control.md): what `UN`, `TX` and `NOP` make of a state. -/

namespace Sys2Proof

open Machine

/-! ## The updates they are made of, as whole states -/

/-- Raising an exception changes the status alone; the program counter stays (60_exceptions.md R366). -/
theorem raise_eq (s : State) (e : Exn) : s.raise e = { s with status := .faulted e } := rfl

/-- Going on changes the program counter alone. -/
theorem advance_eq (s : State) (len : Nat) : s.advance len = { s with pc := s.pc + BitVec.ofNat 64 len } := rfl

/-- Halting changes the program counter and the status alone. -/
theorem halt_eq (s : State) : s.halt = { s with pc := s.pc + 1#64, status := .halted } := rfl

/-! ## Which update each instruction is -/

/-- `UN` (R100, decision D11). -/
theorem exec_un (s : State) : exec .un s = .next (s.raise .unreachable) := rfl

/-- `TX` (R101, decision D15). -/
theorem exec_tx (s : State) : exec .tx s = .next s.halt := rfl

/-- `NOP` (R102). -/
theorem exec_nop (s : State) : exec .nop s = .next (s.advance 1) := rfl

/-- Settles O17: the opcode bytes, then each instruction as its update of the state, written out over all fields. -/
theorem unreachableHaltAndNop : Obligations.UnreachableHaltAndNop := by
  unfold Obligations.UnreachableHaltAndNop
  refine ⟨rfl, rfl, rfl, fun s => ⟨?un, ?tx, ?nop⟩⟩
  case un => rw [exec_un, raise_eq]
  case tx => rw [exec_tx, halt_eq]
  case nop => rw [exec_nop, advance_eq]

end Sys2Proof
end

section
/-! Register-register operations (41_int_reg_reg.md): sums, differences and products at a width, the bitwise operations, and the unary ones. -/

namespace Sys2Proof

open Machine

/-! ## What their shared shapes complete with -/

section Shapes

variable {i : Instr} {s : State} {rd ra rb : RegNum} {n : Nat}

/-- A binary operation writes its result zero-extended (41_int_reg_reg.md R110, decision D2). -/
theorem completes_binaryReg {op : BitVec n → BitVec n → BitVec n} (h : exec i s = s.binaryReg op rd ra rb) :
    Completes i s (s.pc + 4#64) (afterWrite s rd ((op (s.narrow n ra) (s.narrow n rb)).setWidth 64)) :=
  completes_setReg h

theorem completes_unaryReg {op : Word → Word} (h : exec i s = s.unaryReg op rd ra) :
    Completes i s (s.pc + 3#64) (afterWrite s rd (op (s.reg ra))) :=
  completes_setReg h

theorem completes_signExtendReg (h : exec i s = s.signExtendReg n rd ra) :
    Completes i s (s.pc + 3#64) (afterWrite s rd ((s.narrow n ra).signExtend 64)) :=
  completes_setReg h

end Shapes

/-! ## Arithmetic at a width, as numbers -/

/-- The difference of two unsigned readings, which may be negative, wraps to the difference of the bit vectors. -/
theorem ofInt_toNat_sub_toNat {n : Nat} (a b : BitVec n) : BitVec.ofInt n ((a.toNat : Int) - b.toNat) = a - b := by
  rw [Int.sub_eq_add_neg, BitVec.ofInt_add, BitVec.ofInt_neg, BitVec.ofInt_natCast, BitVec.ofInt_natCast,
    BitVec.ofNat_toNat, BitVec.ofNat_toNat, BitVec.setWidth_eq, BitVec.setWidth_eq, BitVec.sub_eq_add_neg]

section Arithmetic

variable {n : Nat} (hn : n ≤ 64) (a b : BitVec n)
include hn

theorem setWidth_add_eq_ofNat : (a + b).setWidth 64 = BitVec.ofNat 64 ((a.toNat + b.toNat) % 2 ^ n) := by
  rw [← setWidth_ofNat hn, ← BitVec.add_def]

theorem setWidth_sub_eq_ofInt : (a - b).setWidth 64 = BitVec.ofInt 64 (((a.toNat : Int) - b.toNat) % 2 ^ n) := by
  rw [← setWidth_ofInt hn, ofInt_toNat_sub_toNat]

theorem setWidth_mul_eq_ofNat : (a * b).setWidth 64 = BitVec.ofNat 64 (a.toNat * b.toNat % 2 ^ n) := by
  rw [← setWidth_ofNat hn, BitVec.ofNat_mul, BitVec.ofNat_toNat, BitVec.ofNat_toNat, BitVec.setWidth_eq,
    BitVec.setWidth_eq]

end Arithmetic

/-- Sign extension is the signed reading at 64 bits (00_scope.md R10). -/
theorem signExtend_eq_ofInt_signedReading {n : Nat} (hn : 0 < n) (a : BitVec n) :
    a.signExtend 64 = BitVec.ofInt 64 (signedReading n a.toNat) := by
  rw [BitVec.signExtend, toInt_eq_signedReading hn]

/-- At 64 bits an operand is the register itself (10_state.md R23). -/
theorem narrow_64 (s : State) (r : RegNum) : s.narrow 64 r = s.reg r := BitVec.setWidth_eq _

/-! ## What each family of operations completes with, at every width -/

section Families

variable {i : Instr} {s : State} {rd ra rb : RegNum} {n : Nat}

theorem completes_add (hn : n ≤ 64) (h : exec i s = s.binaryReg (n := n) (fun a b => a + b) rd ra rb) :
    Completes i s (s.pc + 4#64)
      (afterWrite s rd (BitVec.ofNat 64 ((low n (s.reg ra) + low n (s.reg rb)) % 2 ^ n))) := by
  have hc := completes_binaryReg h
  rwa [setWidth_add_eq_ofNat hn, narrow_toNat, narrow_toNat] at hc

theorem completes_sub (hn : n ≤ 64) (h : exec i s = s.binaryReg (n := n) (fun a b => a - b) rd ra rb) :
    Completes i s (s.pc + 4#64)
      (afterWrite s rd (BitVec.ofInt 64 (((low n (s.reg ra) : Int) - low n (s.reg rb)) % 2 ^ n))) := by
  have hc := completes_binaryReg h
  rwa [setWidth_sub_eq_ofInt hn, narrow_toNat, narrow_toNat] at hc

theorem completes_mul (hn : n ≤ 64) (h : exec i s = s.binaryReg (n := n) (fun a b => a * b) rd ra rb) :
    Completes i s (s.pc + 4#64)
      (afterWrite s rd (BitVec.ofNat 64 (low n (s.reg ra) * low n (s.reg rb) % 2 ^ n))) := by
  have hc := completes_binaryReg h
  rwa [setWidth_mul_eq_ofNat hn, narrow_toNat, narrow_toNat] at hc

/-- An operation of 64 bits writes its result as it is. -/
theorem completes_binaryReg_64 {op : Word → Word → Word} (h : exec i s = s.binaryReg op rd ra rb) :
    Completes i s (s.pc + 4#64) (afterWrite s rd (op (s.reg ra) (s.reg rb))) := by
  have hc := completes_binaryReg h
  rwa [BitVec.setWidth_eq, narrow_64, narrow_64] at hc

theorem completes_sxt (hn : 0 < n) (h : exec i s = s.signExtendReg n rd ra) :
    Completes i s (s.pc + 3#64) (afterWrite s rd (BitVec.ofInt 64 (signedReading n (low n (s.reg ra))))) := by
  have hc := completes_signExtendReg h
  rwa [signExtend_eq_ofInt_signedReading hn, narrow_toNat] at hc

end Families

/-! ## The statements -/

/-- Settles O21: each `ADD` is the sum at its width, and the sum at any width up to 64 is `completes_add`. -/
theorem addsWrap : Obligations.AddsWrap := by
  unfold Obligations.AddsWrap
  intro s rd ra rb
  exact ⟨rfl, completes_add (by decide) rfl, rfl, completes_add (by decide) rfl,
    rfl, completes_add (by decide) rfl, rfl, completes_add (by decide) rfl⟩

/-- Settles O22: each `SUB` is the difference at its width, by `completes_sub`. -/
theorem subtractionsWrap : Obligations.SubtractionsWrap := by
  unfold Obligations.SubtractionsWrap
  intro s rd ra rb
  exact ⟨rfl, completes_sub (by decide) rfl, rfl, completes_sub (by decide) rfl,
    rfl, completes_sub (by decide) rfl, rfl, completes_sub (by decide) rfl⟩

/-- Settles O23: each `MUL` is the product at its width, by `completes_mul`. -/
theorem productsWrap : Obligations.ProductsWrap := by
  unfold Obligations.ProductsWrap
  intro s rd ra rb
  exact ⟨rfl, completes_mul (by decide) rfl, rfl, completes_mul (by decide) rfl,
    rfl, completes_mul (by decide) rfl, rfl, completes_mul (by decide) rfl⟩

/-- Settles O24: the 64-bit operation on the whole registers, read bit by bit. -/
theorem bitwiseOperations : Obligations.BitwiseOperations := by
  unfold Obligations.BitwiseOperations
  intro s rd ra rb
  refine ⟨rfl, rfl, rfl, ⟨s.reg ra &&& s.reg rb, ?and, ?andBits⟩, ⟨s.reg ra ||| s.reg rb, ?or, ?orBits⟩,
    ⟨s.reg ra ^^^ s.reg rb, ?xor, ?xorBits⟩⟩
  case and => exact completes_binaryReg_64 (op := fun a b => a &&& b) rfl
  case andBits => exact fun _ _ => BitVec.getLsbD_and
  case or => exact completes_binaryReg_64 (op := fun a b => a ||| b) rfl
  case orBits => exact fun _ _ => BitVec.getLsbD_or
  case xor => exact completes_binaryReg_64 (op := fun a b => a ^^^ b) rfl
  case xorBits => exact fun _ _ => BitVec.getLsbD_xor

/-- Settles O29: `NEG` and `NOT` on the whole register (decision D7), `SXT8` to `SXT32` by `completes_sxt`. -/
theorem unaryOperations : Obligations.UnaryOperations := by
  unfold Obligations.UnaryOperations
  intro s rd ra
  refine ⟨rfl, rfl, ⟨~~~s.reg ra, ?neg, ?negBits⟩, ?not, rfl, ?sxt8, rfl, ?sxt16, rfl, ?sxt32⟩
  case neg => exact completes_unaryReg (op := fun a => ~~~a) rfl
  case negBits =>
    intro k hk
    rw [BitVec.getLsbD_not, decide_eq_true hk, Bool.true_and]
  case not => exact completes_unaryReg (op := fun a => if a = 0#64 then 1#64 else 0#64) rfl
  case sxt8 => exact completes_sxt (by decide) rfl
  case sxt16 => exact completes_sxt (by decide) rfl
  case sxt32 => exact completes_sxt (by decide) rfl

end Sys2Proof
end

section
/-! Register-immediate operations (42_int_reg_imm.md): sums and products at a width, and the bitwise operations. -/

namespace Sys2Proof

open Machine

/-! ## How their encodings end -/

/-- One byte is its own little-endian order (30_encoding.md R72). -/
theorem bytesLE_one (b : Byte) : bytesLE 1 b = [b] := by
  rw [← leBytes_eq_bytesLE, leBytes, leBytes, BitVec.ofNat_toNat, BitVec.setWidth_eq]

section Encodings

variable {i : Instr} {op r q : Byte}

/-- After the opcode and two registers, an immediate of one byte. -/
theorem encode_byteImm {imm : Byte} (h : encode i = [op, r, q, imm]) : encode i = [op, r, q] ++ bytesLE 1 imm :=
  h.trans (congrArg (op :: r :: q :: ·) (bytesLE_one imm).symm)

/-- After the opcode and two registers, an immediate of more bytes, which the encoder cuts off its number. -/
theorem encode_wideImm {n w : Nat} {imm : BitVec w} (h : encode i = op :: r :: q :: leBytes n imm.toNat) :
    encode i = [op, r, q] ++ bytesLE n imm :=
  h.trans (congrArg (op :: r :: q :: ·) (leBytes_eq_bytesLE n imm))

end Encodings

/-! ## What they complete with, at every width and length -/

section Families

variable {i : Instr} {s : State} {rd ra : RegNum} {n len : Nat} {imm : BitVec n}

/-- A binary operation with an immediate of its width writes its result zero-extended (42_int_reg_imm.md R170, decision D2). -/
theorem completes_binaryImm {op : BitVec n → BitVec n → BitVec n} (h : exec i s = s.binaryImm op rd ra imm len) :
    Completes i s (s.pc + BitVec.ofNat 64 len) (afterWrite s rd ((op (s.narrow n ra) imm).setWidth 64)) :=
  completes_setReg h

theorem completes_addImm (hn : n ≤ 64) (h : exec i s = s.binaryImm (fun a b => a + b) rd ra imm len) :
    Completes i s (s.pc + BitVec.ofNat 64 len)
      (afterWrite s rd (BitVec.ofNat 64 ((low n (s.reg ra) + imm.toNat) % 2 ^ n))) := by
  have hc := completes_binaryImm h
  rwa [setWidth_add_eq_ofNat hn, narrow_toNat] at hc

theorem completes_mulImm (hn : n ≤ 64) (h : exec i s = s.binaryImm (fun a b => a * b) rd ra imm len) :
    Completes i s (s.pc + BitVec.ofNat 64 len)
      (afterWrite s rd (BitVec.ofNat 64 ((low n (s.reg ra) * imm.toNat) % 2 ^ n))) := by
  have hc := completes_binaryImm h
  rwa [setWidth_mul_eq_ofNat hn, narrow_toNat] at hc

/-- An operation of 64 bits that computes each bit from the two bits at its place writes exactly those bits. -/
theorem completes_bitwiseImm {op : Word → Word → Word} {bit : Bool → Bool → Bool} {imm : Word}
    (hbit : ∀ a b k, (op a b).getLsbD k = bit (a.getLsbD k) (b.getLsbD k))
    (h : exec i s = s.binaryImm op rd ra imm len) :
    ∃ v, Completes i s (s.pc + BitVec.ofNat 64 len) (afterWrite s rd v) ∧
      ∀ k < 64, v.getLsbD k = bit ((s.reg ra).getLsbD k) (imm.getLsbD k) := by
  have hc := completes_binaryImm h
  rw [BitVec.setWidth_eq, narrow_64] at hc
  exact ⟨_, hc, fun k _ => hbit _ _ k⟩

end Families

/-! ## The statements -/

/-- Settles O30: each `ADDI` is `completes_addImm` and each `MULI` is `completes_mulImm`, at its width and length. -/
theorem immediateSumsAndProductsWrap : Obligations.ImmediateSumsAndProductsWrap := by
  unfold Obligations.ImmediateSumsAndProductsWrap
  intro s rd ra i8 i16 i32 i64
  exact ⟨encode_byteImm rfl, completes_addImm (by decide) rfl, encode_wideImm rfl, completes_addImm (by decide) rfl,
    encode_wideImm rfl, completes_addImm (by decide) rfl, encode_wideImm rfl, completes_addImm (by decide) rfl,
    encode_byteImm rfl, completes_mulImm (by decide) rfl, encode_wideImm rfl, completes_mulImm (by decide) rfl,
    encode_wideImm rfl, completes_mulImm (by decide) rfl, encode_wideImm rfl, completes_mulImm (by decide) rfl⟩

/-- Settles O31: each is the 64-bit operation on the whole register and the whole immediate, read bit by bit. -/
theorem immediateBitwiseOperations : Obligations.ImmediateBitwiseOperations := by
  unfold Obligations.ImmediateBitwiseOperations
  intro s rd ra imm
  refine ⟨encode_wideImm rfl, encode_wideImm rfl, encode_wideImm rfl, ?and, ?or, ?xor⟩
  case and => exact completes_bitwiseImm (bit := and) (fun _ _ _ => BitVec.getLsbD_and) rfl
  case or => exact completes_bitwiseImm (bit := or) (fun _ _ _ => BitVec.getLsbD_or) rfl
  case xor => exact completes_bitwiseImm (bit := xor) (fun _ _ _ => BitVec.getLsbD_xor) rfl

end Sys2Proof
end

section
/-! Register copies and immediate loads (43_copy_li_lra.md): `CP`, `SWA` and `LI8` to `LI64`. -/

namespace Sys2Proof

open Machine

/-! ## The swap of two registers -/

/-- Writing each of two registers with what the other read before swaps them, one with itself included; a swap with register 0
clears the other, because register 0 reads 0 (R211, decision D6). -/
theorem afterWriteTwo_swap (s : State) (ra rb r : RegNum) :
    afterWriteTwo s ra (s.reg rb) rb (s.reg ra) r =
      if r = 0#8 then 0#64 else if r = ra then s.reg rb else if r = rb then s.reg ra else s.reg r := by
  unfold afterWriteTwo afterWrite
  by_cases h0 : r = 0#8
  · subst h0
    simp
  · by_cases hb : r = rb
    · subst hb
      by_cases ha : r = ra
      · subst ha
        simp [h0]
      · simp [h0, ha]
    · simp [h0, hb]

/-! ## Loading an immediate, at every width and length -/

section Immediates

variable {i : Instr} {s : State} {op : Byte} {rd : RegNum} {n len : Nat}

/-- After the opcode and one register, an immediate of more than one byte, which the encoder cuts off its number. -/
theorem encode_loadImm {w : Nat} {imm : BitVec w} (h : encode i = op :: rd :: leBytes n imm.toNat) :
    encode i = [op, rd] ++ bytesLE n imm :=
  h.trans (congrArg (op :: rd :: ·) (leBytes_eq_bytesLE n imm))

/-- The register holds the immediate's number: the bits above the immediate's width become 0 (10_state.md R23, decision D2). -/
theorem completes_loadImm {imm : BitVec n} (h : exec i s = s.loadImm rd imm len) :
    Completes i s (s.pc + BitVec.ofNat 64 len) (afterWrite s rd (BitVec.ofNat 64 imm.toNat)) := by
  rw [BitVec.ofNat_toNat]
  exact completes_setReg h

end Immediates

/-! ## The statements -/

/-- Settles O34: `CP` writes one register; `SWA` writes two in turn with values read before, which `afterWriteTwo_swap` says is
the swap. -/
theorem copyAndSwap : Obligations.CopyAndSwap := by
  unfold Obligations.CopyAndSwap
  intro s ra rb
  refine ⟨rfl, rfl, completes_setReg rfl, ?swap⟩
  case swap =>
    have hc : Completes (.swa ra rb) s (s.pc + 3#64) (afterWriteTwo s ra (s.reg rb) rb (s.reg ra)) :=
      completes_setReg_setReg rfl
    rwa [funext (afterWriteTwo_swap s ra rb)] at hc

/-- Settles O35: each `LI` is `completes_loadImm`, at its width and length. -/
theorem immediateLoads : Obligations.ImmediateLoads := by
  unfold Obligations.ImmediateLoads
  intro s rd i8 i16 i32 i64
  exact ⟨congrArg ([0x48#8, rd] ++ ·) (bytesLE_one i8).symm, completes_loadImm rfl,
    encode_loadImm rfl, completes_loadImm rfl, encode_loadImm rfl, completes_loadImm rfl,
    encode_loadImm rfl, completes_loadImm rfl⟩

end Sys2Proof
end

section
/-! Jumps and environment traps (45_jumps_and_traps.md, 47_rel16_variants.md R344): the relative jumps `JMP` and `JMP16`, the six
conditional jumps, and the traps `ECA` and `EBP`. -/

namespace Sys2Proof

open Machine

/-! ## Environment traps -/

/-- Taking a trap changes the program counter and the status alone (60_exceptions.md R365). -/
theorem trap_eq (s : State) (t : Trap) : s.trap t = { s with pc := s.pc + 1#64, status := .trapped t } := rfl

/-- `ECA` (R272). -/
theorem exec_eca (s : State) : exec .eca s = .next (s.trap .environmentCall) := rfl

/-- `EBP` (R273). -/
theorem exec_ebp (s : State) : exec .ebp s = .next (s.trap .breakpoint) := rfl

/-! ## Where a relative jump goes -/

/-- A relative address as the sum of whole numbers that the spec writes, modulo 2^64 (R260). -/
theorem relativeAddress_eq_ofInt {w : Nat} (s : State) (k : Nat) (off : BitVec w) :
    s.relativeAddress k off = BitVec.ofInt 64 ((s.pc.toNat : Int) + k + off.toInt) := by
  rw [BitVec.ofInt_add, BitVec.ofInt_add, BitVec.ofInt_natCast, BitVec.ofInt_natCast, BitVec.ofNat_toNat,
    BitVec.setWidth_eq, State.relativeAddress, BitVec.signExtend]

section Jumps

variable {i : Instr} {s : State} {ra rb : RegNum}

theorem completes_jumpRelative {w : Nat} {off : BitVec w} (h : exec i s = s.jumpRelative off) :
    Completes i s (BitVec.ofInt 64 ((s.pc.toNat : Int) + 1 + off.toInt)) s.reg := by
  have hc : Completes i s (s.relativeAddress 1 off) s.reg := completes_jump h
  rwa [relativeAddress_eq_ofInt, Nat.cast_one] at hc

/-- Going on is a jump to the following instruction. -/
theorem completes_advance {len : Nat} (h : exec i s = .next (s.advance len)) :
    Completes i s (s.pc + BitVec.ofNat 64 len) s.reg :=
  completes_jump h

/-- A conditional jump, taken or not, by whatever its condition says of the two whole registers (R265). -/
theorem completes_branch {c : Condition} {taken : Prop} [Decidable taken] {off : BitVec 16}
    (hc : c.holds (s.reg ra) (s.reg rb) = true ↔ taken) (h : exec i s = s.branch c ra rb off) :
    Completes i s (if taken then BitVec.ofInt 64 ((s.pc.toNat : Int) + 3 + off.toInt) else s.pc + 5#64) s.reg := by
  unfold State.branch at h
  split at h
  case isTrue hholds =>
    rw [if_pos (hc.mp hholds)]
    exact relativeAddress_eq_ofInt s 3 off ▸ completes_jump h
  case isFalse hfails =>
    rw [if_neg (fun ht => hfails (hc.mpr ht))]
    exact completes_advance h

end Jumps

/-! ## What each condition says of two words -/

section Conditions

variable (a b : Word)

/-- R266. -/
theorem holds_equal : Condition.equal.holds a b = true ↔ a = b := beq_iff_eq

/-- R267. -/
theorem holds_notEqual : Condition.notEqual.holds a b = true ↔ a ≠ b := bne_iff_ne

/-- R268. -/
theorem holds_lessUnsigned : Condition.lessUnsigned.holds a b = true ↔ a.toNat < b.toNat := decide_eq_true_iff

/-- R269. -/
theorem holds_greaterUnsigned : Condition.greaterUnsigned.holds a b = true ↔ a.toNat > b.toNat := decide_eq_true_iff

/-- R270. -/
theorem holds_lessSigned :
    Condition.lessSigned.holds a b = true ↔ signedReading 64 a.toNat < signedReading 64 b.toNat := by
  rw [← toInt_eq_signedReading (by decide) a, ← toInt_eq_signedReading (by decide) b]
  exact decide_eq_true_iff

/-- R271: `holds_lessSigned` with the words exchanged. -/
theorem holds_greaterSigned :
    Condition.greaterSigned.holds a b = true ↔ signedReading 64 a.toNat > signedReading 64 b.toNat :=
  holds_lessSigned b a

end Conditions

/-! ## The statements -/

/-- Settles O18: the opcode bytes, then each instruction as its trap, written out over all fields. -/
theorem trapsGoToTheHost : Obligations.TrapsGoToTheHost := by
  unfold Obligations.TrapsGoToTheHost
  refine ⟨rfl, rfl, fun s => ⟨?eca, ?ebp⟩⟩
  case eca => rw [exec_eca, trap_eq]
  case ebp => rw [exec_ebp, trap_eq]

/-- Settles O46: both are `completes_jumpRelative`, at their offsets' widths. -/
theorem relativeJumps : Obligations.RelativeJumps := by
  unfold Obligations.RelativeJumps
  constructor
  · intro s off
    exact ⟨congrArg (0x53#8 :: ·) (leBytes_eq_bytesLE 4 off), completes_jumpRelative rfl⟩
  · intro s off
    exact ⟨congrArg (0x77#8 :: ·) (leBytes_eq_bytesLE 2 off), completes_jumpRelative rfl⟩

/-- Settles O48: each is `completes_branch` with what its condition says. -/
theorem conditionalJumps : Obligations.ConditionalJumps := by
  unfold Obligations.ConditionalJumps
  intro s ra rb off
  exact ⟨encode_wideImm rfl, completes_branch (holds_equal _ _) rfl,
    encode_wideImm rfl, completes_branch (holds_notEqual _ _) rfl,
    encode_wideImm rfl, completes_branch (holds_lessUnsigned _ _) rfl,
    encode_wideImm rfl, completes_branch (holds_greaterUnsigned _ _) rfl,
    encode_wideImm rfl, completes_branch (holds_lessSigned _ _) rfl,
    encode_wideImm rfl, completes_branch (holds_greaterSigned _ _) rfl⟩

end Sys2Proof
end

section
/-! Decoding and encoding are inverse (30_encoding.md R70 to R73): the operands of a row are read back and written again, and
exactly the unassigned opcodes have no row. -/

namespace Sys2Proof

open Machine

/-! ## What a reader of one operand gives -/

/-- A byte is read exactly when there is one, and the reader goes on with it. -/
theorem withByte_eq_some {α : Type} {bs : List Byte} {k : Byte → List Byte → Option α} {r : α} :
    withByte bs k = some r ↔ ∃ b rest, bs = b :: rest ∧ k b rest = some r := by
  cases bs <;> simp [withByte]

/-- A little-endian operand of whole bytes is read exactly when its bytes are there, and the reader goes on with it. -/
theorem withLe_eq_some {α : Type} {n w : Nat} (hw : w = 8 * n) {bs : List Byte} {k : BitVec w → List Byte → Option α} {r : α} :
    withLe n w bs k = some r ↔ ∃ v rest, bs = leBytes n v.toNat ++ rest ∧ k v rest = some r := by
  constructor
  · intro h
    unfold withLe at h
    split at h
    next => cases h
    next v rest hread =>
      obtain ⟨hbytes, hlt⟩ := leBytes_of_takeLe hread
      have hfits : v < 2 ^ w := by rw [hw, Nat.pow_mul]; exact hlt
      exact ⟨BitVec.ofNat w v, rest, by rw [BitVec.toNat_ofNat, Nat.mod_eq_of_lt hfits, hbytes], h⟩
  · rintro ⟨v, rest, rfl, h⟩
    rw [withLe_leBytes n w v hw, h]

/-! ## What a row's operands are -/

/-- These are the bytes, after the opcode, of instruction `i` in the format of this row (30_encoding.md R73). -/
inductive Row.Encodes : Row → Instr → List Byte → Prop
  | n (i) : Row.Encodes (.n i) i []
  | rr (f a b) : Row.Encodes (.rr f) (f a b) [a, b]
  | rrr (f a b c) : Row.Encodes (.rrr f) (f a b c) [a, b, c]
  | rrrr (f a b c d) : Row.Encodes (.rrrr f) (f a b c d) [a, b, c, d]
  | rrb (f a b c) : Row.Encodes (.rrb f) (f a b c) [a, b, c]
  | rrh (f a b c) : Row.Encodes (.rrh f) (f a b c) (a :: b :: le2 c)
  | rrw (f a b c) : Row.Encodes (.rrw f) (f a b c) (a :: b :: le4 c)
  | rrd (f a b c) : Row.Encodes (.rrd f) (f a b c) (a :: b :: le8 c)
  | rb (f a b) : Row.Encodes (.rb f) (f a b) [a, b]
  | rh (f a b) : Row.Encodes (.rh f) (f a b) (a :: le2 b)
  | rw (f a b) : Row.Encodes (.rw f) (f a b) (a :: le4 b)
  | rd (f a b) : Row.Encodes (.rd f) (f a b) (a :: le8 b)
  | rro (f a b c) : Row.Encodes (.rro f) (f a b c) (a :: b :: le4 c)
  | rrp (f a b c) : Row.Encodes (.rrp f) (f a b c) (a :: b :: le2 c)
  | rra (f a b c) : Row.Encodes (.rra f) (f a b c) (a :: b :: le8 c)
  | rrah (f a b c d) : Row.Encodes (.rrah f) (f a b c d) (a :: b :: (le8 c ++ le2 d))
  | rroh (f a b c d) : Row.Encodes (.rroh f) (f a b c d) (a :: b :: (le4 c ++ le2 d))
  | rrph (f a b c d) : Row.Encodes (.rrph f) (f a b c d) (a :: b :: (le2 c ++ le2 d))
  | o (f a) : Row.Encodes (.o f) (f a) (le4 a)
  | p (f a) : Row.Encodes (.p f) (f a) (le2 a)

/-- A row reads back the operands that its format writes, and leaves what follows. -/
theorem Row.parse_of_encodes {row : Row} {i : Instr} {operands : List Byte} (h : row.Encodes i operands)
    (rest : List Byte) : row.parse (operands ++ rest) = some (i, rest) := by
  cases h <;> simp [Row.parse, withByte, le2, le4, le8, withLe_leBytes]

/-- What a row reads are the operands that its format writes. -/
theorem Row.encodes_of_parse {row : Row} {i : Instr} {bs rest : List Byte} (h : row.parse bs = some (i, rest)) :
    ∃ operands, row.Encodes i operands ∧ bs = operands ++ rest := by
  cases row <;>
    simp only [Row.parse, withByte_eq_some, withLe_eq_some (n := 2) (w := 16) rfl, withLe_eq_some (n := 4) (w := 32) rfl,
      withLe_eq_some (n := 8) (w := 64) rfl, Option.some.injEq, Prod.mk.injEq] at h
  case n j =>
    obtain ⟨rfl, rfl⟩ := h
    exact ⟨_, .n _, rfl⟩
  case rr f | rb f =>
    obtain ⟨a, _, rfl, b, _, rfl, rfl, rfl⟩ := h
    exact ⟨_, by constructor, rfl⟩
  case rrr f | rrb f =>
    obtain ⟨a, _, rfl, b, _, rfl, c, _, rfl, rfl, rfl⟩ := h
    exact ⟨_, by constructor, rfl⟩
  case rrrr f =>
    obtain ⟨a, _, rfl, b, _, rfl, c, _, rfl, d, _, rfl, rfl, rfl⟩ := h
    exact ⟨_, .rrrr f a b c d, rfl⟩
  case rrh f | rrw f | rrd f | rro f | rrp f | rra f =>
    obtain ⟨a, _, rfl, b, _, rfl, c, _, rfl, rfl, rfl⟩ := h
    exact ⟨_, by constructor, rfl⟩
  case rh f | rw f | rd f =>
    obtain ⟨a, _, rfl, b, _, rfl, rfl, rfl⟩ := h
    exact ⟨_, by constructor, rfl⟩
  case rrah f | rroh f | rrph f =>
    obtain ⟨a, _, rfl, b, _, rfl, c, _, rfl, d, _, rfl, rfl, rfl⟩ := h
    exact ⟨_, by constructor, by simp only [List.cons_append, List.append_assoc]; rfl⟩
  case o f | p f =>
    obtain ⟨a, _, rfl, rfl, rfl⟩ := h
    exact ⟨_, by constructor, rfl⟩

/-! ## The opcode map and the encoder agree -/

/-- Every instruction is encoded by the row of its opcode. -/
theorem exists_row_encodes (i : Instr) :
    ∃ op operands row, encode i = op :: operands ∧ opcodeRow op = some row ∧ row.Encodes i operands := by
  cases i <;> exact ⟨_, _, _, rfl, rfl, by constructor⟩

/-- A byte is the one that its number names. -/
theorem byte_eq_of_toNat {b : Byte} {n : Nat} (h : b.toNat = n) : b = BitVec.ofNat 8 n := by
  rw [← h, BitVec.ofNat_toNat, BitVec.setWidth_eq]

/-- What an opcode's row encodes, the encoder writes after that opcode. -/
theorem encode_of_encodes {op : Byte} {row : Row} {i : Instr} {operands : List Byte} (hrow : opcodeRow op = some row)
    (h : row.Encodes i operands) : encode i = op :: operands := by
  unfold opcodeRow at hrow
  split at hrow
  case h_119 => cases hrow
  all_goals
    rename_i hop
    obtain rfl := byte_eq_of_toNat hop
    cases hrow
    cases h
    rfl

/-- The decoder's answer on an assigned opcode is what its row reads. -/
theorem decode_eq_ok_iff {bs rest : List Byte} {i : Instr} :
    decode bs = .ok (i, rest) ↔
      ∃ op operands row, bs = op :: operands ∧ opcodeRow op = some row ∧ row.parse operands = some (i, rest) := by
  cases bs with
  | nil => simp [decode]
  | cons op operands =>
    cases hrow : opcodeRow op with
    | none => simp [decode, hrow]
    | some row => cases hparse : row.parse operands <;> simp [decode, hrow, hparse]

/-- Settles O4: the row of the instruction's opcode reads back the operands that it wrote. -/
theorem decodeOfEncode : Obligations.DecodeOfEncode := by
  unfold Obligations.DecodeOfEncode
  intro i rest
  obtain ⟨op, operands, row, hencode, hrow, hencodes⟩ := exists_row_encodes i
  exact decode_eq_ok_iff.mpr
    ⟨op, operands ++ rest, row, by rw [hencode, List.cons_append], hrow, Row.parse_of_encodes hencodes rest⟩

/-- Settles O5: what the row read are operands that the encoder writes after the row's opcode. -/
theorem encodeOfDecode : Obligations.EncodeOfDecode := by
  unfold Obligations.EncodeOfDecode
  intro bs rest i h
  obtain ⟨op, _, row, rfl, hrow, hparse⟩ := decode_eq_ok_iff.mp h
  obtain ⟨operands, hencodes, rfl⟩ := Row.encodes_of_parse hparse
  rw [encode_of_encodes hrow hencodes, List.cons_append]

/-- Settles O8: each list is the encoding of its instruction. -/
theorem writtenBytesDecode : Obligations.WrittenBytesDecode := by
  unfold Obligations.WrittenBytesDecode
  exact ⟨rfl, rfl, rfl, rfl, rfl, rfl, rfl, rfl, rfl, rfl, rfl, rfl, rfl, rfl, rfl, rfl, rfl⟩

/-! ## The opcodes without a row -/

/-- Exactly the unassigned opcodes have no row (30_encoding.md R84). -/
theorem opcodeRow_eq_none_iff (op : Byte) : opcodeRow op = none ↔ unassigned op := by
  have hall : ∀ b : Byte, (opcodeRow b).isNone = true ↔ b = 0x68#8 ∨ b = 0x69#8 ∨ 0x78 ≤ b.toNat := by decide
  rw [← Option.isNone_iff_eq_none]
  exact hall op

/-- The decoder refuses an opcode as unknown exactly when it has no row. -/
theorem decode_eq_unknownOpcode_iff (op : Byte) (operands : List Byte) :
    decode (op :: operands) = .error (.unknownOpcode op) ↔ unassigned op := by
  rw [← opcodeRow_eq_none_iff]
  cases hrow : opcodeRow op with
  | none => simp [decode, hrow]
  | some row => cases hparse : row.parse operands <;> simp [decode, hrow, hparse]

end Sys2Proof
end

section
/-! The fetch in its order (20_memory.md R48), and what one step can do: the next state of every status, the invariant, and what a
running machine leaves to the host. -/

namespace Sys2Proof

open Machine

/-! ## Accesses of one byte and of a run -/

/-- An access of one byte reports that byte or passes. -/
theorem faultAddress_one (s : State) (kind : AccessKind) (a : Word) :
    s.faultAddress kind a 1 = if s.allows kind a then none else some a := by
  by_cases h : s.allows kind a = true <;> simp [State.faultAddress, State.failing, h]

/-- An access passes exactly when all of it is permitted. -/
theorem faultAddress_eq_none_iff {s : State} {kind : AccessKind} {a : Word} {n : Nat} :
    s.faultAddress kind a n = none ↔ s.AllowsAll kind a n := faultAddress_eq_none

/-- An access that is not permitted reports one of its failing bytes (60_exceptions.md R378). -/
theorem exists_failing_faultAddress {s : State} {kind : AccessKind} {a : Word} {n : Nat} (h : ¬ s.AllowsAll kind a n) :
    ∃ x, s.Failing kind a n x ∧ s.faultAddress kind a n = some x := by
  obtain ⟨x, hx⟩ := Option.ne_none_iff_exists'.mp (mt faultAddress_eq_none_iff.mp h)
  exact ⟨x, faultAddress_eq_some hx, hx⟩

/-- A non-empty run is permitted exactly when its first byte and the run after it are. -/
theorem allowsAll_succ {s : State} {kind : AccessKind} {a : Word} {n : Nat} :
    s.AllowsAll kind a (n + 1) ↔ s.allows kind a = true ∧ s.AllowsAll kind (a + 1#64) n := by
  constructor
  · intro h
    exact ⟨by simpa using h 0 (by omega), fun k hk => by rw [← offset_succ]; exact h (k + 1) (by omega)⟩
  · rintro ⟨hfirst, hrest⟩ (_ | k) hk
    · simpa using hfirst
    · rw [offset_succ]
      exact hrest k (by omega)

/-! ## The fetch, check by check (20_memory.md R48) -/

section Fetch

variable {s : State}

/-- First the opcode byte must be fetchable. -/
theorem fetch_of_not_allows (h : s.allows .fetch s.pc = false) : s.fetch = .raised (s.raiseAccess .fetch s.pc) := by
  simp [State.fetch, faultAddress_one, h]

/-- Then the opcode must have a row (30_encoding.md R84). -/
theorem fetch_of_unassigned (h : s.allows .fetch s.pc = true) (hop : unassigned (s.byteAt s.pc)) :
    s.fetch = .raised (s.raise (.unknownOpcode (s.byteAt s.pc))) := by
  simp [State.fetch, faultAddress_one, h, (opcodeRow_eq_none_iff _).mpr hop]

/-- Then the operand bytes must be fetchable. -/
theorem fetch_of_operand_fault {row : Row} {a : Word} (h : s.allows .fetch s.pc = true)
    (hrow : opcodeRow (s.byteAt s.pc) = some row)
    (hfault : s.faultAddress .fetch (s.pc + 1#64) (row.length - 1) = some a) :
    s.fetch = .raised (s.raiseAccess .fetch a) := by
  simp [State.fetch, faultAddress_one, h, hrow, hfault]

/-- Then the bytes are decoded. -/
theorem fetch_of_decode {row : Row} {i : Instr} {rest : List Byte} (h : s.allows .fetch s.pc = true)
    (hrow : opcodeRow (s.byteAt s.pc) = some row) (hall : s.AllowsAll .fetch (s.pc + 1#64) (row.length - 1))
    (hdecode : decode (Memory.readBytes s.mem s.pc row.length) = .ok (i, rest)) : s.fetch = .instr i := by
  simp [State.fetch, faultAddress_one, h, hrow, faultAddress_eq_none_iff.mpr hall, hdecode]

end Fetch

/-! ## The decoder is given as many bytes as it needs (assumption log 14) -/

theorem row_length_pos (row : Row) : 0 < row.length := by
  cases row <;> exact Nat.zero_lt_succ _

/-- A run of memory of an assigned opcode's length decodes, with nothing left over. -/
theorem exists_decode_readBytes {m : List Host.Cell} {a : Word} {row : Row}
    (hrow : opcodeRow (Memory.read m a.toNat) = some row) :
    ∃ r, decode (Memory.readBytes m a row.length) = .ok r := by
  obtain ⟨n, hn⟩ : ∃ n, row.length = n + 1 := ⟨_, (Nat.succ_pred_eq_of_pos (row_length_pos row)).symm⟩
  have hparse : row.parse (Memory.readBytes m (a + 1#64) n) ≠ none := by
    rw [Ne, Row.parse_failsBelow row, readBytes_length]
    omega
  obtain ⟨r, hr⟩ := Option.ne_none_iff_exists'.mp hparse
  exact ⟨r, by simp [hn, Memory.readBytes, decode, hrow, hr]⟩

/-- What a fetch can give: an instruction, or an exception by one of its three checks. -/
theorem fetch_cases (s : State) :
    (∃ i, s.fetch = .instr i) ∨ (∃ a, s.fetch = .raised (s.raiseAccess .fetch a)) ∨
      ∃ op, s.fetch = .raised (s.raise (.unknownOpcode op)) := by
  cases hpc : s.allows .fetch s.pc with
  | false => exact .inr (.inl ⟨_, fetch_of_not_allows hpc⟩)
  | true =>
    cases hrow : opcodeRow (s.byteAt s.pc) with
    | none => exact .inr (.inr ⟨_, fetch_of_unassigned hpc ((opcodeRow_eq_none_iff _).mp hrow)⟩)
    | some row =>
      cases hfault : s.faultAddress .fetch (s.pc + 1#64) (row.length - 1) with
      | some a => exact .inr (.inl ⟨_, fetch_of_operand_fault hpc hrow hfault⟩)
      | none =>
        obtain ⟨⟨i, rest⟩, hdecode⟩ := exists_decode_readBytes hrow
        exact .inl ⟨i, fetch_of_decode hpc hrow (faultAddress_eq_none_iff.mp hfault) hdecode⟩

/-! ## One step, by the run status -/

section Step

variable {s : State}

theorem step_of_fetch_instr {i : Instr} (hrun : s.status = .running) (h : s.fetch = .instr i) : step s = exec i s := by
  simp [step, hrun, h]

theorem step_of_fetch_raised {t : State} (hrun : s.status = .running) (h : s.fetch = .raised t) : step s = .next t := by
  simp [step, hrun, h]

theorem step_of_halted (h : s.status = .halted) : step s = .next s := by
  simp [step, h]

/-- A machine stopped by a trap or an exception gives the host its turn (60_exceptions.md R369). -/
theorem step_of_stopped (h : (∃ t, s.status = .trapped t) ∨ ∃ e, s.status = .faulted e) : step s = .next s.hostTurn := by
  obtain ⟨t, ht⟩ | ⟨e, he⟩ := h
  · simp [step, ht]
  · simp [step, he]

/-- A step of a running machine is the meaning of an instruction, or the fetch raises an exception. -/
theorem step_cases_of_running (hrun : s.status = .running) :
    (∃ i, step s = exec i s) ∨ (∃ a, step s = .next (s.raiseAccess .fetch a)) ∨
      ∃ op, step s = .next (s.raise (.unknownOpcode op)) := by
  obtain ⟨i, h⟩ | ⟨a, h⟩ | ⟨op, h⟩ := fetch_cases s
  · exact .inl ⟨i, step_of_fetch_instr hrun h⟩
  · exact .inr (.inl ⟨a, step_of_fetch_raised hrun h⟩)
  · exact .inr (.inr ⟨op, step_of_fetch_raised hrun h⟩)

/-- A machine runs, has halted, or was stopped by a trap or an exception. -/
theorem status_cases (s : State) :
    s.status = .running ∨ s.status = .halted ∨ ((∃ t, s.status = .trapped t) ∨ ∃ e, s.status = .faulted e) := by
  cases s.status <;> simp

/-- The host does its next act; the acts after it stay for later (assumption log 6). -/
theorem hostTurn_cons {act : HostAct} {rest : List HostAct} (h : s.host = act :: rest) :
    s.hostTurn = ({ s with host := rest } : State).hostAct act := by
  simp [State.hostTurn, h]

/-- A host without an act does nothing (assumption log 7). -/
theorem hostTurn_nil (h : s.host = []) : s.hostTurn = s := by
  simp [State.hostTurn, h]

/-- The host writes a byte, at any address but 0 (assumption log 6). -/
theorem hostAct_setByte {a : Word} (ha : a ≠ 0#64) (b : Byte) :
    s.hostAct (.setByte a b) = { s with mem := Memory.write s.mem a.toNat b } := if_neg ha

end Step

/-! ## The invariant -/

/-- The host's turn keeps the invariant. -/
theorem inv_hostTurn {s : State} (h : s.Inv) : s.hostTurn.Inv := by
  cases hhost : s.host with
  | nil => rwa [hostTurn_nil hhost]
  | cons act rest =>
    rw [hostTurn_cons hhost]
    exact ⟨hostAct_wf _ act h.1, (hostAct_element_zero _ act).trans h.2⟩

/-- Executing an instruction keeps the invariant, by the shapes of its next state. -/
theorem inv_of_shape {i : Instr} {s t : State} (h : ExecShape i s t) (hinv : s.Inv) : t.Inv := by
  obtain ⟨hmem, hzero⟩ := hinv
  cases h with
  | write rd v => exact ⟨by simpa using hmem, (setReg_element_zero s rd v).trans hzero⟩
  | writeTwo rd re v w =>
    exact ⟨by simpa using hmem, (setReg_element_zero _ re w).trans ((setReg_element_zero s rd v).trans hzero)⟩
  | load r bs => exact ⟨by simpa using hmem, (setRegBytes_element_zero s _ bs).trans hzero⟩
  | copy r vs => exact ⟨by simpa using hmem, (setRegRun_element_zero s _ vs).trans hzero⟩
  | store a bs len hb => exact ⟨writeBytes_wf hmem hb, hzero⟩
  | goOn | jump | trap | halt | raise | raiseAccess => exact ⟨hmem, hzero⟩
  | link rd v => exact ⟨by simpa using hmem, (setReg_element_zero s rd v).trans hzero⟩
  | faultStoring kind a dst bs => exact ⟨faultStoring_wf s kind a dst bs hmem, hzero⟩

/-- Settles O3: a running step is an instruction's shape or raises in the fetch; a stopped machine has the host's turn. -/
theorem stepKeepsInvariant : Obligations.StepKeepsInvariant := by
  unfold Obligations.StepKeepsInvariant
  intro s t hinv hstep
  obtain hrun | hhalt | hstop := status_cases s
  · obtain ⟨i, h⟩ | ⟨a, h⟩ | ⟨op, h⟩ := step_cases_of_running hrun
    · exact inv_of_shape (shape_of_exec (h ▸ hstep)) hinv
    · cases h.symm.trans hstep
      exact hinv
    · cases h.symm.trans hstep
      exact hinv
  · cases (step_of_halted hhalt).symm.trans hstep
    exact hinv
  · cases (step_of_stopped hstop).symm.trans hstep
    exact inv_hostTurn hinv

/-- Settles O2: the memory at launch lists nothing, and every register holds 0. -/
theorem launchMeetsInvariant : Obligations.LaunchMeetsInvariant := by
  unfold Obligations.LaunchMeetsInvariant
  exact ⟨rfl, rfl⟩

/-- At launch every address but 0 is in the one region, which permits everything (assumption log 4). -/
theorem reset_allows_iff (kind : AccessKind) (a : Word) : State.reset.allows kind a = true ↔ a ≠ 0#64 := by
  constructor
  · exact ne_zero_of_allows
  · intro ha
    have hpos : 1 ≤ a.toNat := Nat.one_le_iff_ne_zero.mpr fun h => ha (BitVec.eq_of_toNat_eq h)
    have hlt := a.isLt
    cases kind <;>
      simp [State.allows, State.reset, State.launchMemMap, Region.contains, Region.permits, ha, hpos, hlt]

/-- Settles O1: the fields as `State.reset` has them, and the map by `reset_allows_iff`. -/
theorem launchStateIsAsNamed : Obligations.LaunchStateIsAsNamed := by
  unfold Obligations.LaunchStateIsAsNamed
  refine ⟨rfl, rfl, fun r => ?regs, rfl, fun _ => rfl, reset_allows_iff, rfl⟩
  case regs => simp [State.reg, State.reset, Config.initReg]

/-! ## The statements about fetch and step -/

/-- Settles O7: the decoder's refusal, and the second check of the fetch. -/
theorem unassignedOpcodesAreUnknown : Obligations.UnassignedOpcodesAreUnknown := by
  unfold Obligations.UnassignedOpcodesAreUnknown
  exact ⟨decode_eq_unknownOpcode_iff,
    fun s hrun hpc hop => step_of_fetch_raised hrun (fetch_of_unassigned hpc hop)⟩

/-- A running machine whose bytes at the program counter decode, all of them fetchable, executes what they decode to. -/
theorem step_eq_exec {s : State} {i : Instr} (hrun : s.status = .running)
    (hall : s.AllowsAll .fetch s.pc (encode i).length)
    (hdecode : decode (Memory.readBytes s.mem s.pc (encode i).length) = .ok (i, [])) : step s = exec i s := by
  obtain ⟨op, row, hhead, hrow, hlength⟩ := exists_encode_row i
  have hbytes : encode i = Memory.readBytes s.mem s.pc (encode i).length := by
    simpa using encodeOfDecode _ _ _ hdecode
  obtain ⟨n, hn⟩ : ∃ n, row.length = n + 1 := ⟨_, (Nat.succ_pred_eq_of_pos (row_length_pos row)).symm⟩
  rw [← hlength, hn] at hall hbytes
  obtain ⟨hpc, hoperands⟩ := allowsAll_succ.mp hall
  have hop : s.byteAt s.pc = op := by
    rw [hbytes, Memory.readBytes, List.head?_cons] at hhead
    exact Option.some.inj hhead
  refine step_of_fetch_instr hrun (fetch_of_decode hpc (hop ▸ hrow) ?_ (hlength ▸ hdecode))
  rwa [hn, Nat.add_sub_cancel]

/-- Settles O9: this is `step_eq_exec`. -/
theorem stepRunsTheDecodedInstruction : Obligations.StepRunsTheDecodedInstruction := by
  unfold Obligations.StepRunsTheDecodedInstruction
  exact fun _ _ => step_eq_exec

/-- Settles O10: the four checks of the fetch in turn. -/
theorem fetchFollowsItsOrder : Obligations.FetchFollowsItsOrder := by
  unfold Obligations.FetchFollowsItsOrder
  intro s hrun
  refine ⟨fun hpc => step_of_fetch_raised hrun (fetch_of_not_allows hpc),
    fun hpc hop => step_of_fetch_raised hrun (fetch_of_unassigned hpc hop), ?operand, ?executes⟩
  case operand =>
    intro i hpc hhead hnot
    obtain ⟨row, hrow, hlength⟩ := Option.map_eq_some_iff.mp (opcodeRow_length_of_head? hhead)
    obtain ⟨a, hfailing, hfault⟩ := exists_failing_faultAddress hnot
    exact ⟨a, hfailing, step_of_fetch_raised hrun (fetch_of_operand_fault hpc hrow (hlength ▸ hfault))⟩
  case executes =>
    intro i hall hbytes
    have hread : Memory.readBytes s.mem s.pc (encode i).length = encode i :=
      List.ext_getElem (by simp) fun k _ hk => (readBytes_getElem ..).trans (hbytes k hk)
    refine step_eq_exec hrun hall ?_
    rw [hread]
    simpa using decodeOfEncode i []

/-- Settles O11: every status has its step, and every instruction its next state. -/
theorem everyStepHasANextState : Obligations.EveryStepHasANextState := by
  unfold Obligations.EveryStepHasANextState
  intro s
  obtain hrun | hhalt | hstop := status_cases s
  · obtain ⟨i, h⟩ | ⟨a, h⟩ | ⟨op, h⟩ := step_cases_of_running hrun
    · obtain ⟨t, hexec, -⟩ := exec_shape i s
      exact ⟨t, h.trans hexec⟩
    · exact ⟨_, h⟩
    · exact ⟨_, h⟩
  · exact ⟨_, step_of_halted hhalt⟩
  · exact ⟨_, step_of_stopped hstop⟩

/-- No shape of an instruction's next state changes `MemMap` or the host's acts. -/
theorem memMap_host_of_shape {i : Instr} {s t : State} (h : ExecShape i s t) : t.memMap = s.memMap ∧ t.host = s.host := by
  cases h <;> simp

/-- Settles O12: an instruction by its shape; an exception of the fetch changes neither. -/
theorem runningStepKeepsMapAndHost : Obligations.RunningStepKeepsMapAndHost := by
  unfold Obligations.RunningStepKeepsMapAndHost
  intro s t hrun hstep
  obtain ⟨i, h⟩ | ⟨a, h⟩ | ⟨op, h⟩ := step_cases_of_running hrun
  · exact memMap_host_of_shape (shape_of_exec (h ▸ hstep))
  · cases h.symm.trans hstep
    exact ⟨rfl, rfl⟩
  · cases h.symm.trans hstep
    exact ⟨rfl, rfl⟩

/-- Settles O20: a halted machine's step, and the turn of a host without an act. -/
theorem stoppedMachineStays : Obligations.StoppedMachineStays := by
  unfold Obligations.StoppedMachineStays
  intro s h
  obtain hrun | hhalt | hstop := status_cases s
  · obtain hhalt | ⟨hnot, -⟩ := h
    · exact step_of_halted hhalt
    · exact absurd hrun hnot
  · exact step_of_halted hhalt
  · obtain hhalt | ⟨-, hhost⟩ := h
    · exact step_of_halted hhalt
    · rw [step_of_stopped hstop, hostTurn_nil hhost]

/-- Settles O19: the step is the host's turn, and the turn is its first act. -/
theorem hostActsOnAStoppedMachine : Obligations.HostActsOnAStoppedMachine := by
  unfold Obligations.HostActsOnAStoppedMachine
  intro s act rest hhost hstop
  refine ⟨_, step_of_stopped hstop, ?_⟩
  rw [hostTurn_cons hhost]
  cases act with
  | setReg q v =>
    refine ⟨by simp [State.hostAct], by simp [State.hostAct], by simp [State.hostAct], by simp [State.hostAct],
      fun r => reg_setReg _ q v r, fun a _ => setReg_byteAt _ q v a, by simp [State.hostAct]⟩
  | setPc a => exact ⟨rfl, rfl, rfl, rfl, fun _ => rfl, fun _ _ => rfl, rfl⟩
  | setByte b v =>
    by_cases hb : b = 0#64
    · subst hb
      exact ⟨rfl, rfl, rfl, rfl, fun _ => rfl, fun _ ha => (if_neg ha).symm, rfl⟩
    · rw [hostAct_setByte hb]
      refine ⟨rfl, rfl, rfl, rfl, fun _ => rfl, fun a _ => ?_, rfl⟩
      simp only [State.byteAt, read_write, BitVec.toNat_inj]
  | setMemMap m => exact ⟨rfl, rfl, rfl, rfl, fun _ => rfl, fun _ _ => rfl, rfl⟩
  | resume => exact ⟨rfl, rfl, rfl, rfl, fun _ => rfl, fun _ _ => rfl, rfl⟩

end Sys2Proof
end

section
/-! What every instruction leaves unchanged (10_state.md, 20_memory.md R41, 60_exceptions.md R366 to R368), by the shapes of its
next state. -/

namespace Sys2Proof

open Machine

section Frames

variable {i : Instr} {s t : State}

/-- A byte outside a completed run of writes is as before. -/
theorem byteAt_writeBytes_outside {a b : Word} {bs : List Byte} (h : ∀ k < bs.length, b ≠ a + BitVec.ofNat 64 k) :
    Memory.read (Memory.writeBytes s.mem a bs) b.toNat = s.byteAt b :=
  read_writeSome_outside _ _ _ _ (by simpa using h)

/-- A byte outside the range of a faulting store is as before. -/
theorem byteAt_faultStoring_outside {kind : AccessKind} {a dst b : Word} {bs : List (Option Byte)}
    (h : ∀ k < bs.length, b ≠ dst + BitVec.ofNat 64 k) : (s.faultStoring kind a dst bs).byteAt b = s.byteAt b :=
  read_writeSome_outside _ _ _ _ (by simpa using h)

/-- A shape writes no byte outside its destination. -/
theorem byteAt_of_shape (h : ExecShape i s t) {a : Word}
    (hout : ∀ dst n, destination i s = some (dst, n) → ∀ k < n, a ≠ dst + BitVec.ofNat 64 k) :
    t.byteAt a = s.byteAt a := by
  cases h with
  | write | writeTwo | load | copy | goOn | jump | link | trap | halt | raise | raiseAccess => simp
  | store dst bs len hb hl hj hd => exact byteAt_writeBytes_outside (hout dst bs.length hd)
  | faultStoring kind x dst bs hd => exact byteAt_faultStoring_outside (hout dst bs.length hd)

/-- A register that is not one an instruction may write is another than each that it may. -/
theorem ne_of_mayWrite {r rd : RegNum} (hr : mayWrite i r = false) (hrd : mayWrite i rd = true) : r ≠ rd := by
  rintro rfl
  exact absurd (hr.symm.trans hrd) (by decide)

/-- A write to another register is not seen. -/
theorem reg_setReg_of_ne {r rd : RegNum} (h : r ≠ rd) (v : Word) : (s.setReg rd v).reg r = s.reg r := by
  rw [reg_setReg, if_neg fun hc => h hc.1]

/-- A shape writes no register but those that the instruction may write. -/
theorem reg_of_shape (h : ExecShape i s t) {r : RegNum} (hr : mayWrite i r = false) : t.reg r = s.reg r := by
  cases h with
  | write rd v len hw => exact reg_setReg_of_ne (ne_of_mayWrite hr hw) v
  | writeTwo rd re v w len hw hw' =>
    exact (reg_setReg_of_ne (ne_of_mayWrite hr hw') w).trans (reg_setReg_of_ne (ne_of_mayWrite hr hw) v)
  | load q bs len hlen hw => exact reg_setRegBytes_outside s _ bs r hlen (hw r hr)
  | copy q vs len hlen hw =>
    have hout := hw r hr
    exact (reg_setRegRun s _ vs r hlen).trans (dif_neg (by omega))
  | link rd v a hw => exact reg_setReg_of_ne (ne_of_mayWrite hr hw) v
  | store | goOn | jump | trap | halt | raise | raiseAccess | faultStoring => rfl

/-- A shape of a running machine that ends in an exception leaves the program counter, and one that does not, of an instruction
that is no jump, goes on by the encoding's length. -/
theorem pc_of_shape (hrun : s.status = .running) (h : ExecShape i s t) :
    (∃ e, t.status = .faulted e) ∧ t.pc = s.pc ∨
      (∀ e, t.status ≠ .faulted e) ∧ (isJump i = false → t.pc = s.pc + BitVec.ofNat 64 (encode i).length) := by
  cases h with
  | raise e => exact .inl ⟨⟨e, rfl⟩, rfl⟩
  | raiseAccess kind a => exact .inl ⟨⟨_, rfl⟩, rfl⟩
  | faultStoring kind a dst bs => exact .inl ⟨⟨_, rfl⟩, rfl⟩
  | write _ _ _ _ hl | writeTwo _ _ _ _ _ _ _ hl | load _ _ _ _ _ hl | copy _ _ _ _ _ hl | store _ _ _ _ hl | goOn _ hl =>
    exact .inr ⟨by simp [hrun], fun _ => by simp [hl]⟩
  | trap t hl | halt hl => exact .inr ⟨by simp, fun _ => by simp [hl]⟩
  | jump a hj | link _ _ a _ hj => exact .inr ⟨by simp [hrun], fun hn => absurd (hn.symm.trans hj) (by decide)⟩

/-- A shape of a running machine that ends in an exception is one of the three that raise. -/
theorem raises_of_shape {e : Exn} (hrun : s.status = .running) (h : ExecShape i s t) (he : t.status = .faulted e) :
    t = s.raise e ∨ (∃ kind a, e = .memoryAccessFault kind a ∧ t = s.raiseAccess kind a) ∨
      ∃ kind a dst bs, e = .memoryAccessFault kind a ∧ t = s.faultStoring kind a dst bs := by
  cases h with
  | raise e' =>
    cases he
    exact .inl rfl
  | raiseAccess kind a =>
    cases he
    exact .inr (.inl ⟨_, _, rfl, rfl⟩)
  | faultStoring kind a dst bs =>
    cases he
    exact .inr (.inr ⟨_, _, _, _, rfl, rfl⟩)
  | write | writeTwo | load | copy | store | goOn | jump | link | trap | halt => simp [hrun] at he

end Frames

/-! ## The statements -/

/-- Settles O13: by `byteAt_of_shape`. -/
theorem onlyStoresWriteMemory : Obligations.OnlyStoresWriteMemory := by
  unfold Obligations.OnlyStoresWriteMemory
  exact fun i s t a hexec => byteAt_of_shape (shape_of_exec hexec)

/-- Settles O14: by `reg_of_shape`; register 0 reads 0 in every state. -/
theorem onlyNamedRegistersAreWritten : Obligations.OnlyNamedRegistersAreWritten := by
  unfold Obligations.OnlyNamedRegistersAreWritten
  exact fun i s t r hexec => ⟨reg_zero t, reg_of_shape (shape_of_exec hexec)⟩

/-- Settles O15: the two cases of `pc_of_shape` exclude each other by the status. -/
theorem programCounterMovesByLength : Obligations.ProgramCounterMovesByLength := by
  unfold Obligations.ProgramCounterMovesByLength
  intro i s t hrun hexec
  obtain ⟨⟨e, he⟩, hpc⟩ | ⟨hnot, hpc⟩ := pc_of_shape hrun (shape_of_exec hexec)
  · exact ⟨fun _ => hpc, fun hnot => absurd he (hnot e)⟩
  · refine ⟨fun ⟨e, he⟩ => absurd he (hnot e), fun _ hj => ?_⟩
    rw [hpc hj, BitVec.toNat_add, BitVec.toNat_ofNat, Nat.add_mod_mod]

/-- Settles O16: what raises changes no register; it changes memory only as a faulting store, whose bytes are the destination's. -/
theorem exceptionLeavesTheRest : Obligations.ExceptionLeavesTheRest := by
  unfold Obligations.ExceptionLeavesTheRest
  intro i s t e hrun hexec he
  have hshape := shape_of_exec hexec
  obtain ⟨hmap, hhost⟩ := memMap_host_of_shape hshape
  have hbytes := fun a => byteAt_of_shape hshape (a := a)
  obtain rfl | ⟨kind, a, rfl, rfl⟩ | ⟨kind, a, dst, bs, rfl, rfl⟩ := raises_of_shape hrun hshape he
  · exact ⟨rfl, fun _ => rfl, hmap, hhost, hbytes, fun _ _ => rfl⟩
  · exact ⟨rfl, fun _ => rfl, hmap, hhost, hbytes, fun hnot => absurd rfl (hnot kind a)⟩
  · exact ⟨rfl, fun _ => rfl, hmap, hhost, hbytes, fun hnot => absurd rfl (hnot kind a)⟩

end Sys2Proof
end

section
/-! Shifts by a register and by an immediate, merged divisions, and comparisons (41_int_reg_reg.md R111 to R113, 42_int_reg_imm.md
R171, R195). -/

namespace Sys2Proof

open Machine

/-! ## Shifts as arithmetic -/

section Shifts

variable {n : Nat} (a : BitVec n) (sh : Nat)

/-- A left shift is a product with a power of two, modulo the width. -/
theorem setWidth_shiftLeft_eq_ofNat (hn : n ≤ 64) :
    (shiftLeft a sh).setWidth 64 = BitVec.ofNat 64 (a.toNat * 2 ^ sh % 2 ^ n) := by
  have hprod : shiftLeft a sh = BitVec.ofNat n (a.toNat * 2 ^ sh) := by
    rw [← Nat.shiftLeft_eq]
    rfl
  rw [hprod, setWidth_ofNat hn]

/-- A logical right shift is a quotient by a power of two, rounded down. -/
theorem setWidth_shiftRight_eq_ofNat : (shiftRight a sh).setWidth 64 = BitVec.ofNat 64 (a.toNat / 2 ^ sh) := by
  have hquot : (shiftRight a sh).toNat = a.toNat / 2 ^ sh := by
    rw [shiftRight, BitVec.toNat_ushiftRight, Nat.shiftRight_eq_div_pow]
  rw [← BitVec.ofNat_toNat, hquot]

/-- An arithmetic right shift is the signed reading divided by a power of two, rounded down. -/
theorem setWidth_shiftRightSigned_eq_ofInt (hpos : 0 < n) (hn : n ≤ 64) :
    (shiftRightSigned a sh).setWidth 64 = BitVec.ofInt 64 (signedReading n a.toNat / 2 ^ sh % 2 ^ n) := by
  have hquot : shiftRightSigned a sh = BitVec.ofInt n (a.toInt / 2 ^ sh) := by
    rw [shiftRightSigned, BitVec.sshiftRight, Int.shiftRight_eq_div_pow, Nat.cast_pow, Nat.cast_ofNat]
  rw [hquot, setWidth_ofInt hn, toInt_eq_signedReading hpos]

end Shifts

/-! ## What shifts complete with, at every width, by a register or by an immediate -/

section ShiftFamilies

variable {i : Instr} {s : State} {rd ra : RegNum} {n amount : Nat}

theorem completes_shiftLeft (hn : n ≤ 64)
    (h : exec i s = .next ((s.setNarrow rd (shiftLeft (s.narrow n ra) (shiftAmount n amount))).advance 4)) :
    Completes i s (s.pc + 4#64)
      (afterWrite s rd (BitVec.ofNat 64 (low n (s.reg ra) * 2 ^ (amount % n) % 2 ^ n))) := by
  rw [← narrow_toNat, ← setWidth_shiftLeft_eq_ofNat _ _ hn]
  exact completes_setReg h

theorem completes_shiftRight
    (h : exec i s = .next ((s.setNarrow rd (shiftRight (s.narrow n ra) (shiftAmount n amount))).advance 4)) :
    Completes i s (s.pc + 4#64) (afterWrite s rd (BitVec.ofNat 64 (low n (s.reg ra) / 2 ^ (amount % n)))) := by
  rw [← narrow_toNat, ← setWidth_shiftRight_eq_ofNat]
  exact completes_setReg h

theorem completes_shiftRightSigned (hpos : 0 < n) (hn : n ≤ 64)
    (h : exec i s = .next ((s.setNarrow rd (shiftRightSigned (s.narrow n ra) (shiftAmount n amount))).advance 4)) :
    Completes i s (s.pc + 4#64)
      (afterWrite s rd (BitVec.ofInt 64 (signedReading n (low n (s.reg ra)) / 2 ^ (amount % n) % 2 ^ n))) := by
  rw [← narrow_toNat, ← setWidth_shiftRightSigned_eq_ofInt _ _ hpos hn]
  exact completes_setReg h

end ShiftFamilies

/-- Settles O25: each is its shift at its width, by `completes_shiftLeft` and `completes_shiftRight`. -/
theorem logicalShiftsByRegister : Obligations.LogicalShiftsByRegister := by
  unfold Obligations.LogicalShiftsByRegister
  intro s rd ra rb
  exact ⟨rfl, completes_shiftLeft (by decide) rfl, rfl, completes_shiftLeft (by decide) rfl,
    rfl, completes_shiftLeft (by decide) rfl, rfl, completes_shiftLeft (by decide) rfl,
    rfl, completes_shiftRight rfl, rfl, completes_shiftRight rfl,
    rfl, completes_shiftRight rfl, rfl, completes_shiftRight rfl⟩

/-- Settles O26: each is `completes_shiftRightSigned` at its width. -/
theorem arithmeticShiftsByRegister : Obligations.ArithmeticShiftsByRegister := by
  unfold Obligations.ArithmeticShiftsByRegister
  intro s rd ra rb
  exact ⟨rfl, completes_shiftRightSigned (by decide) (by decide) rfl,
    rfl, completes_shiftRightSigned (by decide) (by decide) rfl,
    rfl, completes_shiftRightSigned (by decide) (by decide) rfl,
    rfl, completes_shiftRightSigned (by decide) (by decide) rfl⟩

/-- Settles O32: the same three lemmas, the amount being the immediate byte. -/
theorem immediateShifts : Obligations.ImmediateShifts := by
  unfold Obligations.ImmediateShifts
  intro s rd ra sh8
  exact ⟨rfl, completes_shiftLeft (by decide) rfl, rfl, completes_shiftLeft (by decide) rfl,
    rfl, completes_shiftLeft (by decide) rfl, rfl, completes_shiftLeft (by decide) rfl,
    rfl, completes_shiftRight rfl, rfl, completes_shiftRight rfl,
    rfl, completes_shiftRight rfl, rfl, completes_shiftRight rfl,
    rfl, completes_shiftRightSigned (by decide) (by decide) rfl,
    rfl, completes_shiftRightSigned (by decide) (by decide) rfl,
    rfl, completes_shiftRightSigned (by decide) (by decide) rfl,
    rfl, completes_shiftRightSigned (by decide) (by decide) rfl⟩

/-! ## Merged divisions -/

section Divisions

variable {i : Instr} {s : State} {rq rr ra rb : RegNum} {n : Nat}

/-- An unsigned division writes the quotient, then the remainder; by zero, 64 ones and the dividend (decisions D5, D6). -/
theorem completes_divideUnsigned (h : exec i s = s.divideUnsigned n rq rr ra rb) :
    Completes i s (s.pc + 5#64)
      (if low n (s.reg rb) = 0 then afterWriteTwo s rq 0xFFFFFFFFFFFFFFFF#64 rr (BitVec.ofNat 64 (low n (s.reg ra)))
      else afterWriteTwo s rq (BitVec.ofNat 64 (low n (s.reg ra) / low n (s.reg rb)))
        rr (BitVec.ofNat 64 (low n (s.reg ra) - low n (s.reg ra) / low n (s.reg rb) * low n (s.reg rb)))) := by
  simp only [State.divideUnsigned, narrow_toNat] at h
  split at h
  next hzero =>
    rw [if_pos hzero]
    exact completes_setReg_setReg h
  next hne =>
    rw [if_neg hne]
    exact completes_setReg_setReg h

/-- The low bits are 0 exactly when the operand is. -/
theorem narrow_eq_zero_iff {r : RegNum} : s.narrow n r = 0#n ↔ low n (s.reg r) = 0 := by
  rw [← narrow_toNat, ← BitVec.toNat_inj, BitVec.toNat_ofNat, Nat.zero_mod]

/-- A signed division by zero writes 64 ones, then the dividend zero-extended (decision D5). -/
theorem completes_divideSigned_zero (h : exec i s = s.divideSigned n rq rr ra rb) (hzero : low n (s.reg rb) = 0) :
    Completes i s (s.pc + 5#64)
      (afterWriteTwo s rq 0xFFFFFFFFFFFFFFFF#64 rr (BitVec.ofNat 64 (low n (s.reg ra)))) := by
  simp only [State.divideSigned, if_pos (narrow_eq_zero_iff.mpr hzero)] at h
  rw [← narrow_toNat, BitVec.ofNat_toNat]
  exact completes_setReg_setReg h

/-- A signed division writes the quotient rounded toward zero, then the remainder, both wrapped to the width (decision D4). -/
theorem completes_divideSigned (hpos : 0 < n) (hn : n ≤ 64) (h : exec i s = s.divideSigned n rq rr ra rb)
    (hne : low n (s.reg rb) ≠ 0) (A B Q : Int) (hA : A = signedReading n (low n (s.reg ra)))
    (hB : B = signedReading n (low n (s.reg rb))) (hQ : Q = A.tdiv B) :
    Completes i s (s.pc + 5#64)
      (afterWriteTwo s rq (BitVec.ofInt 64 (Q % 2 ^ n)) rr (BitVec.ofInt 64 ((A - Q * B) % 2 ^ n))) := by
  rw [← narrow_toNat, ← toInt_eq_signedReading hpos] at hA hB
  subst hA hB hQ
  simp only [State.divideSigned, if_neg (mt narrow_eq_zero_iff.mp hne)] at h
  rw [← setWidth_ofInt hn, ← setWidth_ofInt hn]
  exact completes_setReg_setReg h

end Divisions

/-- Settles O27: each is `completes_divideUnsigned` at its width. -/
theorem unsignedDivisionGivesBoth : Obligations.UnsignedDivisionGivesBoth := by
  unfold Obligations.UnsignedDivisionGivesBoth
  intro s rq rr ra rb
  exact ⟨rfl, completes_divideUnsigned rfl, rfl, completes_divideUnsigned rfl,
    rfl, completes_divideUnsigned rfl, rfl, completes_divideUnsigned rfl⟩

/-- Settles O28: each is `completes_divideSigned_zero` or `completes_divideSigned` at its width. -/
theorem signedDivisionGivesBoth : Obligations.SignedDivisionGivesBoth := by
  unfold Obligations.SignedDivisionGivesBoth
  intro s rq rr ra rb
  exact ⟨rfl, completes_divideSigned_zero rfl, completes_divideSigned (by decide) (by decide) rfl,
    rfl, completes_divideSigned_zero rfl, completes_divideSigned (by decide) (by decide) rfl,
    rfl, completes_divideSigned_zero rfl, completes_divideSigned (by decide) (by decide) rfl,
    rfl, completes_divideSigned_zero rfl, completes_divideSigned (by decide) (by decide) rfl⟩

/-! ## Comparisons -/

/-- The two numbers of an ordering are the same (R112). -/
theorem orderNumber_eq_ordering (less equal : Prop) [Decidable less] [Decidable equal] :
    orderNumber (decide less) (decide equal) = ordering less equal := by
  simp [orderNumber, ordering]

theorem compareUnsigned_eq_ordering (a b : Word) :
    compareUnsigned a b = ordering (a.toNat < b.toNat) (a.toNat = b.toNat) := by
  rw [← orderNumber_eq_ordering, compareUnsigned, beq_eq_decide]
  simp only [BitVec.toNat_inj]

theorem compareSigned_eq_ordering (a b : Word) :
    compareSigned a b = ordering (signedReading 64 a.toNat < signedReading 64 b.toNat)
      (signedReading 64 a.toNat = signedReading 64 b.toNat) := by
  rw [← orderNumber_eq_ordering, compareSigned, beq_eq_decide]
  simp only [← toInt_eq_signedReading (n := 64) (by decide), BitVec.toInt_inj]

/-- Settles O33: each writes the number of its comparison, which is the spec's ordering. -/
theorem comparisonsGiveOrderings : Obligations.ComparisonsGiveOrderings := by
  unfold Obligations.ComparisonsGiveOrderings
  simp only [← compareUnsigned_eq_ordering, ← compareSigned_eq_ordering]
  exact ⟨fun s rd ra rb => ⟨rfl, rfl, completes_setReg rfl, completes_setReg rfl⟩,
    fun s rd ra imm => ⟨encode_wideImm rfl, encode_wideImm rfl, completes_setReg rfl, completes_setReg rfl⟩⟩

end Sys2Proof
end

section
/-! Addresses and linking jumps, loads, stores and block copies (44_memory_access.md, 45_jumps_and_traps.md R261 to R264,
47_rel16_variants.md), where they complete and where they raise. -/

namespace Sys2Proof

open Machine

/-! ## Effective addresses -/

/-- A relative address with a register added, as the sum of whole numbers that the spec writes, modulo 2^64 (R239). -/
theorem relativeAddressReg_eq_ofInt {w : Nat} (s : State) (rb : RegNum) (off : BitVec w) :
    s.relativeAddressReg rb off = BitVec.ofInt 64 ((s.pc.toNat : Int) + 3 + (s.reg rb).toNat + off.toInt) := by
  have hreg : s.reg rb = BitVec.ofInt 64 ((s.reg rb).toNat : Int) := by
    rw [BitVec.ofInt_natCast, BitVec.ofNat_toNat, BitVec.setWidth_eq]
  have hsum : (s.pc.toNat : Int) + 3 + (s.reg rb).toNat + off.toInt = s.pc.toNat + (3 : Nat) + off.toInt + (s.reg rb).toNat := by
    push_cast
    ring
  rw [State.relativeAddressReg, relativeAddress_eq_ofInt, hsum, BitVec.ofInt_add _ ((s.reg rb).toNat : Int), ← hreg]

/-- The number of a sum formed modulo 2^64. -/
theorem natCast_toNat_ofInt (v : Int) : ((BitVec.ofInt 64 v).toNat : Int) = v % 2 ^ 64 := by
  rw [BitVec.toNat_ofInt, Int.toNat_of_nonneg (Int.emod_nonneg _ (by decide))]
  rfl

/-- Settles O36: the absolute sum is the words' addition, the relative ones are `relativeAddressReg_eq_ofInt`. -/
theorem effectiveAddresses : Obligations.EffectiveAddresses := by
  unfold Obligations.EffectiveAddresses
  refine ⟨fun s rb addr64 => BitVec.toNat_add .., ?off32, ?off16⟩
  all_goals
    intro s rb off
    rw [relativeAddressReg_eq_ofInt, natCast_toNat_ofInt]

theorem completes_loadAddress {i : Instr} {s : State} {rd rb : RegNum} {w len : Nat} {off : BitVec w}
    (h : exec i s = s.loadAddress rd rb off len) :
    Completes i s (s.pc + BitVec.ofNat 64 len)
      (afterWrite s rd (BitVec.ofInt 64 ((s.pc.toNat : Int) + 3 + (s.reg rb).toNat + off.toInt))) := by
  rw [← relativeAddressReg_eq_ofInt]
  exact completes_setReg h

/-- Settles O37: both are `completes_loadAddress`, at their offsets' widths. -/
theorem relativeAddressLoads : Obligations.RelativeAddressLoads := by
  unfold Obligations.RelativeAddressLoads
  exact ⟨fun s rd rb off => ⟨encode_wideImm rfl, completes_loadAddress rfl⟩,
    fun s rd rb off => ⟨encode_wideImm rfl, completes_loadAddress rfl⟩⟩

/-! ## Linking jumps -/

/-- An instruction that writes one register and jumps. -/
theorem completes_setReg_jump {i : Instr} {s : State} {rl : RegNum} {v a : Word}
    (h : exec i s = .next ((s.setReg rl v).jump a)) : Completes i s a (afterWrite s rl v) :=
  ⟨_, h, rfl, fun r => reg_setReg s rl v r, (sameRest_setReg s rl v).jump a⟩

/-- After the link the registers read as after its write, and the program counter is as before (decision D14). -/
theorem link_reg (s : State) (rl r : RegNum) (len : Nat) :
    (s.link rl len).reg r = afterWrite s rl (s.pc + BitVec.ofNat 64 len) r := reg_setReg ..

theorem link_pc (s : State) (rl : RegNum) (len : Nat) : (s.link rl len).pc = s.pc := setReg_pc ..

/-- Settles O47: both write the link and then jump; their addresses are formed in the state after the link. -/
theorem linkingJumps : Obligations.LinkingJumps := by
  unfold Obligations.LinkingJumps
  constructor
  · intro s rl rb off
    refine ⟨encode_wideImm rfl, ?jal⟩
    have haddr := relativeAddressReg_eq_ofInt (s.link rl 7) rb off
    rw [link_reg, link_pc] at haddr
    exact haddr ▸ completes_setReg_jump rfl
  · intro s rl rb addr64
    refine ⟨encode_wideImm rfl, ?jala⟩
    have haddr : (s.link rl 11).absoluteAddress rb addr64 =
        BitVec.ofNat 64 ((afterWrite s rl (s.pc + 11#64) rb).toNat + addr64.toNat) := by
      rw [State.absoluteAddress, link_reg, BitVec.add_def]
    exact haddr ▸ completes_setReg_jump rfl

/-! ## Loads -/

section Loads

variable {i : Instr} {s : State} {r : RegNum} {addr : Word} {size : BitVec 16} {len : Nat}

/-- A load of readable bytes into a run that ends in time completes. -/
theorem load_of_allowsAll (hrun : 8 * r.toNat + size.toNat ≤ 2048) (hall : s.AllowsAll .read addr size.toNat) :
    s.load r addr size len =
      .next ((s.setRegBytes (8 * r.toNat) (Memory.readBytes s.mem addr size.toNat)).advance len) := by
  obtain ⟨hpast, -⟩ | ⟨-, a, ha, ⟨k, hk, rfl⟩, -⟩ | ⟨-, -, h⟩ := load_cases s r addr size len
  · exact absurd hpast (by omega)
  · exact absurd (ha.symm.trans (hall k hk)) (by decide)
  · exact h

/-- A load of a byte that is not readable raises, and reports such a byte. -/
theorem load_of_not_allowsAll (hrun : 8 * r.toNat + size.toNat ≤ 2048) (hnot : ¬ s.AllowsAll .read addr size.toNat) :
    ∃ a, s.Failing .read addr size.toNat a ∧ s.load r addr size len = .next (s.raiseAccess .read a) := by
  obtain ⟨hpast, -⟩ | ⟨-, a, ha, hin, h⟩ | ⟨-, hall, -⟩ := load_cases s r addr size len
  · exact absurd hpast (by omega)
  · exact ⟨a, ⟨ha, hin⟩, h⟩
  · exact absurd hall hnot

/-- A load whose run of registers would pass register 255 raises (decision D9). -/
theorem load_of_past (hpast : 2048 < 8 * r.toNat + size.toNat) :
    s.load r addr size len = .next (s.raise (.invalidOperand .registerRange)) := by
  obtain ⟨-, h⟩ | ⟨hrun, -⟩ | ⟨hrun, -⟩ := load_cases s r addr size len
  · exact h
  · exact absurd hpast (by omega)
  · exact absurd hpast (by omega)

theorem loads_of_allowsAll (hrun : 8 * r.toNat + size.toNat ≤ 2048) (hall : s.AllowsAll .read addr size.toNat)
    (h : exec i s = s.load r addr size len) : Loads i s (s.pc + BitVec.ofNat 64 len) r addr size.toNat := by
  refine ⟨_, h.trans (load_of_allowsAll hrun hall), by simp, fun j hj => ?bytes, ?rest⟩
  case bytes =>
    have hbyte := regByte_setRegBytes s (8 * r.toNat) (Memory.readBytes s.mem addr size.toNat) (by simpa using hrun) hj
    simp only [readBytes_length, readBytes_getElem] at hbyte
    refine Eq.trans hbyte ?_
    by_cases hin : 8 ≤ j ∧ 8 * r.toNat ≤ j ∧ j < 8 * r.toNat + size.toNat
    · rw [if_pos hin, dif_pos (by omega)]
      rfl
    · rw [if_neg hin, dif_neg (by omega)]
  case rest => exact SameRest.advance (by constructor <;> simp) len

theorem raisesAccess_of_load (hrun : 8 * r.toNat + size.toNat ≤ 2048) (hnot : ¬ s.AllowsAll .read addr size.toNat)
    (h : exec i s = s.load r addr size len) : ∃ a, s.Failing .read addr size.toNat a ∧ RaisesAccess i s .read a := by
  obtain ⟨a, hfailing, hload⟩ := load_of_not_allowsAll hrun hnot
  exact ⟨a, hfailing, h.trans hload⟩

end Loads

/-! ## Encodings that end in an address and a size -/

/-- After the opcode and two registers, an address or an offset, then a size, each cut off its number by the encoder. -/
theorem encode_addressSize {i : Instr} {op r q : Byte} {n w : Nat} {address : BitVec w} {size : BitVec 16}
    (h : encode i = op :: r :: q :: (leBytes n address.toNat ++ le2 size)) :
    encode i = [op, r, q] ++ bytesLE n address ++ bytesLE 2 size := by
  rw [h, ← leBytes_eq_bytesLE, ← leBytes_eq_bytesLE]
  rfl

/-- Settles O38: each is `loads_of_allowsAll` at its address and length. -/
theorem loadsFillRegisterBytes : Obligations.LoadsFillRegisterBytes := by
  unfold Obligations.LoadsFillRegisterBytes
  exact ⟨fun _ _ _ _ _ => ⟨encode_addressSize rfl, fun hrun hall => loads_of_allowsAll hrun hall rfl⟩,
    fun _ _ _ _ _ => ⟨encode_addressSize rfl, fun hrun hall => loads_of_allowsAll hrun hall rfl⟩,
    fun _ _ _ _ _ => ⟨encode_addressSize rfl, fun hrun hall => loads_of_allowsAll hrun hall rfl⟩⟩

/-- Settles O41: each is `raisesAccess_of_load` at its address. -/
theorem loadFaultsChangeNothing : Obligations.LoadFaultsChangeNothing := by
  unfold Obligations.LoadFaultsChangeNothing
  exact ⟨fun _ _ _ _ _ hrun hnot => raisesAccess_of_load hrun hnot rfl,
    fun _ _ _ _ _ hrun hnot => raisesAccess_of_load hrun hnot rfl,
    fun _ _ _ _ _ hrun hnot => raisesAccess_of_load hrun hnot rfl⟩

/-! ## Stores -/

section Stores

variable {i : Instr} {s : State} {r : RegNum} {addr : Word} {size : BitVec 16} {len n : Nat} {data : Nat → Byte}

/-- Writing bytes and going on is a completed store of those bytes. -/
theorem stores_writeBytes {bs : List Byte} (hlen : bs.length = n) (hn : n ≤ 2 ^ 64)
    (hdata : ∀ (k : Nat) (hk : k < bs.length), bs[k] = data k)
    (h : exec i s = .next (({ s with mem := Memory.writeBytes s.mem addr bs } : State).advance len)) :
    Stores i s (s.pc + BitVec.ofNat 64 len) addr n data := by
  subst hlen
  refine ⟨_, h, rfl, fun _ => rfl, fun k hk => ?inside, fun a ha => byteAt_writeBytes_outside ha, rfl, rfl, rfl, rfl⟩
  case inside =>
    have hread := read_writeSome_inside (bs.map some) s.mem addr k (by simpa using hk) (by simpa using hn)
    rw [List.getElem_map, Option.getD_some, hdata k hk] at hread
    exact hread

/-- A faulting store leaves old or new bytes in its range, new ones where they are writable (60_exceptions.md R368). -/
theorem raisesAccessStoring_faultStoring {kind : AccessKind} {a : Word} {bs : List (Option Byte)} (hlen : bs.length = n)
    (hn : n ≤ 2 ^ 64) (hdata : ∀ (k : Nat) (hk : k < bs.length) (b : Byte), bs[k] = some b → b = data k)
    (h : exec i s = .next (s.faultStoring kind a addr bs)) : RaisesAccessStoring i s kind a addr n data := by
  subst hlen
  refine ⟨Memory.writeSome s.mem addr (s.partialStore addr 0 bs), h,
    fun b hb => byteAt_faultStoring_outside (kind := kind) (a := a) hb, fun k hk => ?inside⟩
  case inside =>
    have hk' : k < (s.partialStore addr 0 bs).length := by simpa using hk
    rw [read_writeSome_inside _ _ _ k hk' (by simpa using hn)]
    obtain hnone | ⟨hallows, hsame⟩ := partialStore_getElem s addr 0 k bs hk'
    · rw [hnone]
      exact .inl rfl
    · rw [hsame]
      cases hb : bs[k] with
      | none => exact .inl rfl
      | some b => exact .inr ⟨hallows, hdata k hk b hb⟩

/-- Storing to writable bytes completes. -/
theorem storeBytes_of_allowsAll {bs : List Byte} (hall : s.AllowsAll .write addr bs.length) :
    s.storeBytes addr bs len = .next (({ s with mem := Memory.writeBytes s.mem addr bs } : State).advance len) := by
  obtain ⟨a, ha, ⟨k, hk, rfl⟩, -⟩ | ⟨-, h⟩ := storeBytes_cases s addr bs len
  · exact absurd (ha.symm.trans (hall k hk)) (by decide)
  · exact h

/-- Storing to a byte that is not writable raises, and reports such a byte. -/
theorem storeBytes_of_not_allowsAll {bs : List Byte} (hnot : ¬ s.AllowsAll .write addr bs.length) :
    ∃ a, s.Failing .write addr bs.length a ∧
      s.storeBytes addr bs len = .next (s.faultStoring .write a addr (bs.map some)) := by
  obtain ⟨a, ha, hin, h⟩ | ⟨hall, -⟩ := storeBytes_cases s addr bs len
  · exact ⟨a, ⟨ha, hin⟩, h⟩
  · exact absurd hall hnot

/-- What `storeBytes` does where all bytes are writable: a completed store. -/
theorem stores_of_storeBytes {bs : List Byte} (hlen : bs.length = n) (hn : n ≤ 2 ^ 64)
    (hdata : ∀ (k : Nat) (hk : k < bs.length), bs[k] = data k) (hall : s.AllowsAll .write addr n)
    (h : exec i s = s.storeBytes addr bs len) : Stores i s (s.pc + BitVec.ofNat 64 len) addr n data :=
  stores_writeBytes hlen hn hdata (h.trans (storeBytes_of_allowsAll (hlen ▸ hall)))

/-- What `storeBytes` does where a byte is not writable: a faulting store. -/
theorem raisesAccessStoring_of_storeBytes {bs : List Byte} (hlen : bs.length = n) (hn : n ≤ 2 ^ 64)
    (hdata : ∀ (k : Nat) (hk : k < bs.length), bs[k] = data k) (hnot : ¬ s.AllowsAll .write addr n)
    (h : exec i s = s.storeBytes addr bs len) :
    ∃ a, s.Failing .write addr n a ∧ RaisesAccessStoring i s .write a addr n data := by
  subst hlen
  obtain ⟨a, hfailing, hstore⟩ := storeBytes_of_not_allowsAll hnot
  refine ⟨a, hfailing, raisesAccessStoring_faultStoring (by simp) hn (fun k hk b hb => ?_) (h.trans hstore)⟩
  rw [List.getElem_map, Option.some.injEq] at hb
  exact hb ▸ hdata k (by simpa using hk)

/-- A size is far below the size of the address space. -/
theorem size_le (size : BitVec 16) : size.toNat ≤ 2 ^ 64 :=
  size.isLt.le.trans (by decide)

/-- A store of a run that ends in time stores the run's bytes. -/
theorem store_of_run (hrun : 8 * r.toNat + size.toNat ≤ 2048) :
    s.store r addr size len = s.storeBytes addr (s.regBytes (8 * r.toNat) size.toNat) len := by
  obtain ⟨hpast, -⟩ | ⟨-, h⟩ := store_cases s r addr size len
  · exact absurd hpast (by omega)
  · exact h

/-- A store whose run of registers would pass register 255 raises (decision D9). -/
theorem store_of_past (hpast : 2048 < 8 * r.toNat + size.toNat) :
    s.store r addr size len = .next (s.raise (.invalidOperand .registerRange)) := by
  obtain ⟨-, h⟩ | ⟨hrun, -⟩ := store_cases s r addr size len
  · exact h
  · exact absurd hpast (by omega)

theorem stores_of_store (hrun : 8 * r.toNat + size.toNat ≤ 2048) (hall : s.AllowsAll .write addr size.toNat)
    (h : exec i s = s.store r addr size len) :
    Stores i s (s.pc + BitVec.ofNat 64 len) addr size.toNat (fun k => s.regByte (8 * r.toNat + k)) :=
  stores_of_storeBytes (regBytes_length ..) (size_le size) (regBytes_getElem s _ _) hall (h.trans (store_of_run hrun))

theorem raisesAccessStoring_of_store (hrun : 8 * r.toNat + size.toNat ≤ 2048)
    (hnot : ¬ s.AllowsAll .write addr size.toNat) (h : exec i s = s.store r addr size len) :
    ∃ a, s.Failing .write addr size.toNat a ∧
      RaisesAccessStoring i s .write a addr size.toNat (fun k => s.regByte (8 * r.toNat + k)) :=
  raisesAccessStoring_of_storeBytes (regBytes_length ..) (size_le size) (regBytes_getElem s _ _) hnot
    (h.trans (store_of_run hrun))

end Stores

/-- Settles O39: each is `stores_of_store` at its address and length. -/
theorem storesWriteRegisterBytes : Obligations.StoresWriteRegisterBytes := by
  unfold Obligations.StoresWriteRegisterBytes
  exact ⟨fun _ _ _ _ _ => ⟨encode_addressSize rfl, fun hrun hall => stores_of_store hrun hall rfl⟩,
    fun _ _ _ _ _ => ⟨encode_addressSize rfl, fun hrun hall => stores_of_store hrun hall rfl⟩,
    fun _ _ _ _ _ => ⟨encode_addressSize rfl, fun hrun hall => stores_of_store hrun hall rfl⟩⟩

/-- Settles O42: each is `raisesAccessStoring_of_store` at its address. -/
theorem storeFaultsLeaveOldOrNewBytes : Obligations.StoreFaultsLeaveOldOrNewBytes := by
  unfold Obligations.StoreFaultsLeaveOldOrNewBytes
  exact ⟨fun _ _ _ _ _ hrun hnot => raisesAccessStoring_of_store hrun hnot rfl,
    fun _ _ _ _ _ hrun hnot => raisesAccessStoring_of_store hrun hnot rfl,
    fun _ _ _ _ _ hrun hnot => raisesAccessStoring_of_store hrun hnot rfl⟩

/-! ## Block copies -/

section BlockCopies

variable {s : State} {src dst : Word} {n len : Nat}

/-- A block copy with a readable source stores what the source holds. -/
theorem copyBlock_of_allowsAll (hall : s.AllowsAll .read src n) :
    s.copyBlock src dst n len = s.storeBytes dst (Memory.readBytes s.mem src n) len := by
  obtain ⟨a, ha, ⟨k, hk, rfl⟩, -⟩ | ⟨-, h⟩ := copyBlock_cases s src dst n len
  · exact absurd (ha.symm.trans (hall k hk)) (by decide)
  · exact h

/-- A block copy with a source byte that is not readable raises, whatever its destination permits (decision D23). -/
theorem copyBlock_of_not_allowsAll (hnot : ¬ s.AllowsAll .read src n) :
    ∃ a, s.Failing .read src n a ∧
      s.copyBlock src dst n len = .next (s.faultStoring .read a dst (s.readableBytes src n)) := by
  obtain ⟨a, ha, hin, h⟩ | ⟨hall, -⟩ := copyBlock_cases s src dst n len
  · exact ⟨a, ⟨ha, hin⟩, h⟩
  · exact absurd hall hnot

/-- Byte `k` of a source that was read is what memory held there. -/
theorem readBytes_getElem_byteAt (k : Nat) (h : k < (Memory.readBytes s.mem src n).length) :
    (Memory.readBytes s.mem src n)[k] = s.byteAt (src + BitVec.ofNat 64 k) := readBytes_getElem ..

/-- A source byte that is there is what memory held. -/
theorem eq_byteAt_of_readableBytes (k : Nat) (h : k < (s.readableBytes src n).length) (b : Byte)
    (hb : (s.readableBytes src n)[k] = some b) : b = s.byteAt (src + BitVec.ofNat 64 k) := by
  rw [readableBytes_getElem] at hb
  split at hb
  · exact (Option.some.inj hb).symm
  · cases hb

end BlockCopies

/-- Settles O43: the source is read whole, then stored. -/
theorem blockMemoryCopy : Obligations.BlockMemoryCopy := by
  unfold Obligations.BlockMemoryCopy
  intro s rs rt count
  refine ⟨encode_wideImm rfl, fun hread hwrite => ?_⟩
  exact stores_of_storeBytes (readBytes_length ..) (size_le count) readBytes_getElem_byteAt hwrite
    (copyBlock_of_allowsAll hread)

/-- Settles O44: a source fault comes first; with a readable source the store of what was read faults. -/
theorem blockMemoryCopyFaults : Obligations.BlockMemoryCopyFaults := by
  unfold Obligations.BlockMemoryCopyFaults
  intro s rs rt count
  constructor
  · intro hnot
    obtain ⟨a, hfailing, hcopy⟩ := copyBlock_of_not_allowsAll hnot
    exact ⟨a, hfailing, raisesAccessStoring_faultStoring (readableBytes_length ..) (size_le count)
      eq_byteAt_of_readableBytes hcopy⟩
  · intro hread hnot
    exact raisesAccessStoring_of_storeBytes (readBytes_length ..) (size_le count) readBytes_getElem_byteAt hnot
      (copyBlock_of_allowsAll hread)

/-- A copy of registers whose runs end in time writes what it has read. -/
theorem copyRegs_of_run {s : State} {rs rt : RegNum} {n len : Nat} (hs : rs.toNat + n ≤ 256) (ht : rt.toNat + n ≤ 256) :
    s.copyRegs rs rt n len = .next ((s.setRegRun rt.toNat (s.regRun rs.toNat n)).advance len) := by
  obtain ⟨hpast, -⟩ | ⟨-, -, h⟩ := copyRegs_cases s rs rt n len
  · exact absurd hpast (by omega)
  · exact h

/-- A copy of registers with a run that would pass register 255 raises (decision D10). -/
theorem copyRegs_of_past {s : State} {rs rt : RegNum} {n len : Nat} (hpast : 256 < rs.toNat + n ∨ 256 < rt.toNat + n) :
    s.copyRegs rs rt n len = .next (s.raise (.invalidOperand .registerRange)) := by
  obtain ⟨-, h⟩ | ⟨hs, ht, -⟩ := copyRegs_cases s rs rt n len
  · exact h
  · exact absurd hpast (by omega)

/-- Settles O45: the run that was read is written, each register of it but register 0. -/
theorem blockRegisterCopy : Obligations.BlockRegisterCopy := by
  unfold Obligations.BlockRegisterCopy
  intro s rs rt count
  refine ⟨rfl, fun hs ht => ⟨_, copyRegs_of_run hs ht, by simp, fun r => ?regs, ?rest⟩⟩
  case regs =>
    have hreg := reg_setRegRun s rt.toNat (s.regRun rs.toNat count.toNat) r (by simpa using ht)
    simp only [regRun_length, regRun_getElem] at hreg
    exact hreg
  case rest => exact SameRest.advance (by constructor <;> simp) _

/-- Settles O40: loads, stores and `BRC` check their runs before any access (decisions D9, D10). -/
theorem registerRunPastTheLastRaises : Obligations.RegisterRunPastTheLastRaises := by
  unfold Obligations.RegisterRunPastTheLastRaises
  exact ⟨fun _ _ _ _ _ h => load_of_past h, fun _ _ _ _ _ h => load_of_past h, fun _ _ _ _ _ h => load_of_past h,
    fun _ _ _ _ _ h => store_of_past h, fun _ _ _ _ _ h => store_of_past h, fun _ _ _ _ _ h => store_of_past h,
    fun _ _ _ _ h => copyRegs_of_past h⟩

end Sys2Proof
end

section
/-! The rounding of floats is the one IEEE 754 asks for (46_float.md R291, R293): the points of a format rise with the encodings,
an exact fraction of units lies between two neighbours, and each mode picks the neighbour that it should. -/

namespace Sys2Proof.Machine

open Sys2Proof

/-! ## The points of a format -/

/-- A format with at least one exponent bit and one fraction bit. -/
structure Format.HasFields (f : Format) : Prop where
  exp : 0 < f.expBits
  frac : 0 < f.fracBits

theorem binary32_hasFields : binary32.HasFields := ⟨by decide, by decide⟩

theorem binary64_hasFields : binary64.HasFields := ⟨by decide, by decide⟩

section Points

variable {f : Format}

/-- The point of a normal encoding, by its exponent and its fraction. -/
theorem point_normal (e : Nat) {r : Nat} (hr : r < 2 ^ f.fracBits) :
    f.point ((e + 1) * 2 ^ f.fracBits + r) = (2 ^ f.fracBits + r) * 2 ^ e := by
  have hdiv : ((e + 1) * 2 ^ f.fracBits + r) / 2 ^ f.fracBits = e + 1 := by
    rw [Nat.mul_comm, Nat.mul_add_div (by positivity), Nat.div_eq_of_lt hr, Nat.add_zero]
  have hmod : ((e + 1) * 2 ^ f.fracBits + r) % 2 ^ f.fracBits = r := by
    rw [Nat.mul_comm, Nat.mul_add_mod, Nat.mod_eq_of_lt hr]
  simp [Format.point, hdiv, hmod]

/-- The point of a subnormal encoding is the encoding. -/
theorem point_subnormal {b : Nat} (hb : b < 2 ^ f.fracBits) : f.point b = b := by
  simp [Format.point, Nat.div_eq_of_lt hb, Nat.mod_eq_of_lt hb]

/-- In steps of `2 ^ q` units: encoding `q * 2 ^ fracBits + n` is `n` steps, the first encoding of the next step included. -/
theorem point_scaled {q n : Nat} (hn : n ≤ 2 ^ (f.fracBits + 1)) (hq : q = 0 ∨ 2 ^ f.fracBits ≤ n) :
    f.point (q * 2 ^ f.fracBits + n) = n * 2 ^ q := by
  have hdouble := Nat.two_pow_succ f.fracBits
  by_cases hsub : n < 2 ^ f.fracBits
  · obtain rfl : q = 0 := hq.resolve_right (by omega)
    simp [point_subnormal hsub]
  · obtain ⟨r, rfl⟩ := Nat.exists_eq_add_of_le (Nat.le_of_not_lt hsub)
    have hshift : q * 2 ^ f.fracBits + (2 ^ f.fracBits + r) = (q + 1) * 2 ^ f.fracBits + r := by ring
    rw [hshift]
    by_cases hr : r < 2 ^ f.fracBits
    · exact point_normal q hr
    · obtain rfl : r = 2 ^ f.fracBits := by omega
      have hnext := point_normal (f := f) (q + 1) (r := 0) (by positivity)
      rw [show (q + 1) * 2 ^ f.fracBits + 2 ^ f.fracBits = (q + 1 + 1) * 2 ^ f.fracBits + 0 by ring, hnext]
      ring

/-- Every encoding is a number of steps, less than a full binade of them. -/
theorem exists_scaled (f : Format) (b : Nat) :
    ∃ q n, b = q * 2 ^ f.fracBits + n ∧ n < 2 ^ (f.fracBits + 1) ∧ (q = 0 ∨ 2 ^ f.fracBits ≤ n) := by
  have hdouble := Nat.two_pow_succ f.fracBits
  have hmod : b % 2 ^ f.fracBits < 2 ^ f.fracBits := Nat.mod_lt _ (by positivity)
  have hb := Nat.div_add_mod b (2 ^ f.fracBits)
  cases he : b / 2 ^ f.fracBits with
  | zero =>
    rw [he, Nat.mul_zero, Nat.zero_add] at hb
    exact ⟨0, b, by ring, by omega, .inl rfl⟩
  | succ e =>
    rw [he] at hb
    exact ⟨e, 2 ^ f.fracBits + b % 2 ^ f.fracBits, hb.symm.trans (by ring), by omega, .inr (by omega)⟩

theorem point_strictMono (f : Format) : StrictMono f.point := by
  refine strictMono_nat_of_lt_succ fun b => ?_
  obtain ⟨q, n, rfl, hn, hq⟩ := exists_scaled f b
  rw [Nat.add_assoc, point_scaled hn.le hq, point_scaled hn (hq.imp_right Nat.le_succ_of_le)]
  exact Nat.mul_lt_mul_of_pos_right (Nat.lt_succ_self n) (by positivity)

theorem Format.HasFields.two_le_exp (h : f.HasFields) : 2 ≤ 2 ^ f.expBits := Nat.le_self_pow h.exp.ne' 2

/-- The point that +∞ counts as is the power of two after the largest finite number. -/
theorem point_infinity (h : f.HasFields) : f.point f.infinity = 2 ^ f.fracBits * 2 ^ (2 ^ f.expBits - 2) := by
  have hexp := h.two_le_exp
  have he : 2 ^ f.expBits - 1 = 2 ^ f.expBits - 2 + 1 := by omega
  have hpoint := point_normal (f := f) (2 ^ f.expBits - 2) (r := 0) (by positivity)
  rwa [← he, Nat.add_zero, Nat.add_zero] at hpoint

theorem infinity_pos (h : f.HasFields) : 0 < f.infinity := by
  have hexp := h.two_le_exp
  exact Nat.mul_pos (by omega) (by positivity)

/-- A whole number of steps of less than a full binade is the point of some encoding. -/
theorem exists_point_eq (f : Format) (j n : Nat) (hn : n < 2 ^ (f.fracBits + 1)) : ∃ c, f.point c = n * 2 ^ j := by
  induction j generalizing n with
  | zero => exact ⟨0 * 2 ^ f.fracBits + n, point_scaled hn.le (.inl rfl)⟩
  | succ j ih =>
    by_cases hfull : 2 ^ f.fracBits ≤ n
    · exact ⟨_, point_scaled hn.le (.inr hfull)⟩
    · obtain ⟨c, hc⟩ := ih (2 * n) (by rw [Nat.pow_succ]; omega)
      exact ⟨c, by rw [hc]; ring⟩

end Points

/-! ## The two neighbours of an exact fraction -/

/-- `num / den` lies at or above the point of `b` by `rem / den`, and below the next point, which is `unit / den` above `b`'s. -/
structure Format.Brackets (f : Format) (num den b rem unit : Nat) : Prop where
  den_pos : 0 < den
  floor : f.point b * den + rem = num
  next : f.point (b + 1) * den = f.point b * den + unit
  rem_lt : rem < unit

section Neighbours

variable {f : Format} {num den b rem unit : Nat}

theorem point_mul_lt (hden : 0 < den) {c d : Nat} (h : c < d) : f.point c * den < f.point d * den :=
  Nat.mul_lt_mul_of_pos_right (point_strictMono f h) hden

theorem point_mul_le {c d : Nat} (h : c ≤ d) : f.point c * den ≤ f.point d * den :=
  Nat.mul_le_mul_right den ((point_strictMono f).monotone h)

/-- Toward zero: the lower neighbour, or the largest finite number. -/
theorem Format.Brackets.isFloor (hb : f.Brackets num den b rem unit) (hf : f.HasFields) :
    f.IsFloor num den (min b (f.infinity - 1)) := by
  obtain ⟨hden, hfloor, hnext, hrem⟩ := hb
  have hinf := infinity_pos hf
  refine ⟨by omega, ?below, fun c hc hle => ?greatest⟩
  case below =>
    have hmin := point_mul_le (f := f) (den := den) (Nat.min_le_left b (f.infinity - 1))
    omega
  case greatest =>
    have hcb : c ≤ b := by
      by_contra hlt
      have habove := point_mul_le (f := f) (den := den) (show b + 1 ≤ c by omega)
      omega
    exact (point_strictMono f).monotone (by omega)

/-- Away from zero: the upper neighbour, or the point itself when it is exact, or +∞. -/
theorem Format.Brackets.isCeiling (hb : f.Brackets num den b rem unit) :
    f.IsCeiling num den (min (b + if rem = 0 then 0 else 1) f.infinity) := by
  obtain ⟨hden, hfloor, hnext, hrem⟩ := hb
  have hreach : num ≤ f.point (b + if rem = 0 then 0 else 1) * den := by
    split
    next hexact => rw [Nat.add_zero]; omega
    next => omega
  refine ⟨Nat.min_le_right _ _, ?above, fun c hc hle => (point_strictMono f).monotone ?least⟩
  case above =>
    obtain hmin | hmin := Nat.le_total (b + if rem = 0 then 0 else 1) f.infinity
    · rw [Nat.min_eq_left hmin]
      exact .inl hreach
    · exact .inr (Nat.min_eq_right hmin)
  case least =>
    refine (Nat.min_le_left _ _).trans ?_
    by_contra hlt
    split at hlt
    next hexact =>
      have hbelow := point_mul_lt (f := f) hden (show c < b by omega)
      omega
    next =>
      have hbelow := point_mul_le (f := f) (den := den) (show c ≤ b by omega)
      omega

theorem distance_of_le {c : Nat} (h : f.point c * den ≤ num) : f.distance num den c = num - f.point c * den := by
  unfold Format.distance
  omega

theorem distance_of_ge {c : Nat} (h : num ≤ f.point c * den) : f.distance num den c = f.point c * den - num := by
  unfold Format.distance
  omega

/-- To nearest: the lower neighbour in the lower half, the upper one in the upper half, the even one in the middle. -/
theorem Format.Brackets.isNearest (hb : f.Brackets num den b rem unit) {inc : Nat}
    (hinc : inc = if unit < 2 * rem ∨ 2 * rem = unit ∧ b % 2 = 1 then 1 else 0) :
    f.IsNearest num den (min (b + inc) f.infinity) := by
  obtain ⟨hden, hfloor, hnext, hrem⟩ := hb
  refine ⟨Nat.min_le_right _ _, fun c hc hne => ?_⟩
  generalize hm : min (b + inc) f.infinity = m at hne
  have hinc' : inc = 0 ∧ 2 * rem ≤ unit ∧ (2 * rem = unit → b % 2 = 0) ∨
      inc = 1 ∧ unit ≤ 2 * rem ∧ (2 * rem = unit → b % 2 = 1) := by
    split at hinc <;> omega
  obtain hcm | hmc := Nat.lt_or_gt_of_ne hne
  · have hlt := point_mul_lt (f := f) hden hcm
    obtain hmb | hmb : m ≤ b ∨ m = b + 1 := by omega
    · have hle := point_mul_le (f := f) (den := den) hmb
      rw [distance_of_le (by omega : f.point m * den ≤ num), distance_of_le (by omega : f.point c * den ≤ num)]
      omega
    · subst hmb
      have hle := point_mul_le (f := f) (den := den) (show c ≤ b by omega)
      rw [distance_of_ge (by omega : num ≤ f.point (b + 1) * den), distance_of_le (by omega : f.point c * den ≤ num)]
      omega
  · obtain rfl : m = b + inc := by omega
    have hlt := point_mul_lt (f := f) hden hmc
    obtain ⟨rfl, hhalf, heven⟩ | ⟨rfl, -⟩ := hinc'
    · have hle := point_mul_le (f := f) (den := den) (show b + 1 ≤ c from hmc)
      rw [Nat.add_zero, distance_of_le (by omega : f.point b * den ≤ num), distance_of_ge (by omega : num ≤ f.point c * den)]
      omega
    · rw [distance_of_ge (by omega : num ≤ f.point (b + 1) * den), distance_of_ge (by omega : num ≤ f.point c * den)]
      omega

end Neighbours

/-! ## What `Format.round` rounds down to -/

/-- The exponent of the quantum that `Format.round` works in: a step is `2 ^ quantum` units. -/
def Format.quantum (f : Format) (num den : Nat) : Nat :=
  Nat.log2 (num / den) - f.fracBits

/-- The encoding that `Format.round` rounds down to, before the exponent range ends. -/
def Format.floorBits (f : Format) (num den : Nat) : Nat :=
  f.quantum num den * 2 ^ f.fracBits + num / (den * 2 ^ f.quantum num den)

section Round

variable {f : Format} {num den : Nat}

/-- In steps of the quantum the fraction is below a full binade of them and, when the quantum is not one unit, a binade at least. -/
theorem quotient_bounds (f : Format) (num den : Nat) :
    num / (den * 2 ^ f.quantum num den) < 2 ^ (f.fracBits + 1) ∧
      (f.quantum num den = 0 ∨ 2 ^ f.fracBits ≤ num / (den * 2 ^ f.quantum num den)) := by
  rw [← Nat.div_div_eq_div_mul]
  unfold Format.quantum
  generalize num / den = x
  constructor
  · rw [Nat.div_lt_iff_lt_mul (by positivity), ← Nat.pow_add]
    exact Nat.lt_log2_self.trans_le (Nat.pow_le_pow_right (by decide) (by omega))
  · refine or_iff_not_imp_left.mpr fun hq => ?_
    have hx : x ≠ 0 := by
      rintro rfl
      exact hq (by simp)
    rw [Nat.le_div_iff_mul_le (by positivity), ← Nat.pow_add, Nat.add_sub_cancel' (by omega)]
    exact Nat.log2_self_le hx

theorem floorBits_brackets (f : Format) (num : Nat) (hden : 0 < den) :
    f.Brackets num den (f.floorBits num den) (num % (den * 2 ^ f.quantum num den)) (den * 2 ^ f.quantum num den) := by
  obtain ⟨hlt, hge⟩ := quotient_bounds f num den
  have hpoint := point_scaled hlt.le hge
  have hnext := point_scaled (q := f.quantum num den) hlt (hge.imp_right Nat.le_succ_of_le)
  refine ⟨hden, ?floor, ?next, Nat.mod_lt _ (by positivity)⟩
  case floor =>
    rw [Format.floorBits, hpoint]
    conv_rhs => rw [← Nat.div_add_mod num (den * 2 ^ f.quantum num den)]
    ring
  case next =>
    rw [Format.floorBits, hpoint, Nat.add_assoc, hnext, Nat.succ_eq_add_one]
    ring

/-- The encoding is as odd as the number of steps. -/
theorem floorBits_mod_two (hf : f.HasFields) :
    f.floorBits num den % 2 = num / (den * 2 ^ f.quantum num den) % 2 := by
  obtain ⟨k, hk⟩ : 2 ∣ f.quantum num den * 2 ^ f.fracBits := (dvd_pow_self 2 hf.frac.ne').mul_left _
  rw [Format.floorBits, hk, Nat.mul_add_mod]

/-- `Format.round` takes the lower neighbour, or the one after it where the mode increments, or what the mode overflows to. -/
theorem round_eq (f : Format) (mode : RoundMode) (neg : Bool) (num den : Nat) {inc : Nat}
    (hinc : inc = if mode.increments neg (num / (den * 2 ^ f.quantum num den) % 2 == 1)
      (num % (den * 2 ^ f.quantum num den)) (den * 2 ^ f.quantum num den) then 1 else 0) :
    f.round mode neg num den =
      f.pack neg (if f.infinity ≤ f.floorBits num den + inc then mode.overflow f neg else f.floorBits num den + inc) := by
  subst hinc
  rw [Format.floorBits, Nat.add_assoc]
  rfl

/-- Past the end of the exponent range, a mode that goes no further takes the largest finite number. -/
theorem ite_pred_infinity (n : Nat) {inf : Nat} (h : 0 < inf) : (if inf ≤ n then inf - 1 else n) = min n (inf - 1) := by
  split <;> omega

/-- Each mode picks the neighbour that IEEE 754 asks for. -/
theorem isRounding_round (hf : f.HasFields) (mode : RoundMode) (neg : Bool) (num : Nat) (hden : 0 < den) :
    f.IsRounding mode neg num den (f.round mode neg num den) := by
  have hb := floorBits_brackets f num hden
  have hinf := infinity_pos hf
  refine ⟨_, round_eq f mode neg num den rfl, ?_⟩
  cases mode with
  | nearestEven =>
    rw [RoundMode.overflow, ← Nat.min_def, Nat.min_comm]
    refine hb.isNearest ?_
    simp [RoundMode.increments, floorBits_mod_two hf]
  | towardZero =>
    rw [RoundMode.overflow, ite_pred_infinity _ hinf]
    exact hb.isFloor hf
  | up =>
    cases neg with
    | true =>
      rw [RoundMode.overflow, if_pos rfl, ite_pred_infinity _ hinf]
      exact hb.isFloor hf
    | false =>
      rw [RoundMode.overflow, if_neg Bool.false_ne_true, ← Nat.min_def, Nat.min_comm]
      simpa [RoundMode.increments] using hb.isCeiling
  | down =>
    cases neg with
    | true =>
      rw [RoundMode.overflow, if_pos rfl, ← Nat.min_def, Nat.min_comm]
      simpa [RoundMode.increments] using hb.isCeiling
    | false =>
      rw [RoundMode.overflow, if_neg Bool.false_ne_true, ite_pred_infinity _ hinf]
      exact hb.isFloor hf

end Round

/-- Settles O50: `isRounding_round` for the two formats. -/
theorem roundingIsIeee : Obligations.RoundingIsIeee := by
  unfold Obligations.RoundingIsIeee
  rintro f mode neg num den (rfl | rfl) hden
  · exact isRounding_round binary32_hasFields mode neg num hden
  · exact isRounding_round binary64_hasFields mode neg num hden

end Sys2Proof.Machine
end

section
/-! Floating point (46_float.md): what encodings stand for, arithmetic, comparisons and conversions, at both formats at once. -/

namespace Sys2Proof.Machine

open Sys2Proof

/-! ## The data of encodings (R290) -/

section Data

variable {f : Format}

/-- The sign bit is twice as large as the greatest exponent and fraction together allow. -/
theorem signBit_eq (f : Format) : f.signBit = 2 ^ f.expBits * 2 ^ f.fracBits := Nat.pow_add ..

theorem two_pow_width (f : Format) : 2 ^ f.width = 2 * f.signBit := by
  rw [Format.width, Nat.add_assoc, Nat.pow_add, Nat.pow_one]
  rfl

theorem infinity_add (f : Format) : f.infinity + 2 ^ f.fracBits = f.signBit := by
  have hexp : 0 < 2 ^ f.expBits := by positivity
  rw [signBit_eq, Format.infinity, ← Nat.succ_mul, Nat.succ_eq_add_one, Nat.sub_add_cancel hexp]

theorem infinity_lt_signBit (f : Format) : f.infinity < f.signBit := by
  have hfrac : 0 < 2 ^ f.fracBits := by positivity
  have := infinity_add f
  omega

/-- The encoding with this sign and these other bits is the datum of those bits: a point below `infinity`, then +∞, then NaNs. -/
theorem datum_pack (hf : f.HasFields) (neg : Bool) {b : Nat} (hb : b < f.signBit) :
    f.datum (f.pack neg b) =
      if b < f.infinity then .fin neg (f.point b) else if b = f.infinity then .inf neg else .nan := by
  have hsign : (f.pack neg b / f.signBit % 2 == 1) = neg := by
    have hpos : 0 < f.signBit := Nat.zero_lt_of_lt hb
    cases neg <;> simp [Format.pack, Nat.add_div_left _ hpos, Nat.div_eq_of_lt hb]
  have hexp : f.pack neg b / 2 ^ f.fracBits % 2 ^ f.expBits = b / 2 ^ f.fracBits := by
    rw [← Nat.mod_mul_left_div_self, ← signBit_eq]
    cases neg <;> simp [Format.pack, Nat.mod_eq_of_lt hb]
  have hfrac : f.pack neg b % 2 ^ f.fracBits = b % 2 ^ f.fracBits := by
    cases neg <;> simp [Format.pack, signBit_eq]
  have hexpBits := hf.two_le_exp
  have hfracBits : 0 < 2 ^ f.fracBits := by positivity
  have hdm := Nat.div_add_mod b (2 ^ f.fracBits)
  have hinf := infinity_add f
  have hlt : b / 2 ^ f.fracBits < 2 ^ f.expBits := by
    rw [Nat.div_lt_iff_lt_mul hfracBits, ← signBit_eq]
    exact hb
  simp only [Format.datum, hsign, hexp, hfrac]
  by_cases htop : b / 2 ^ f.fracBits = 2 ^ f.expBits - 1
  · have hb' : f.infinity + b % 2 ^ f.fracBits = b := by
      rw [htop, Nat.mul_comm] at hdm
      exact hdm
    by_cases hzero : b % 2 ^ f.fracBits = 0
    · rw [if_pos htop, if_pos hzero, if_neg (by omega), if_pos (by omega)]
    · rw [if_pos htop, if_neg hzero, if_neg (by omega), if_neg (by omega)]
  · have hbelow : b < f.infinity := by
      rw [Format.infinity, ← Nat.div_lt_iff_lt_mul hfracBits]
      omega
    simp only [htop, if_false, hbelow, if_true, Format.point]
    split <;> rfl

/-- Every encoding is a sign with other bits. -/
theorem exists_pack {bits : Nat} (hbits : bits < 2 ^ f.width) : ∃ neg b, b < f.signBit ∧ bits = f.pack neg b := by
  rw [two_pow_width] at hbits
  by_cases h : bits < f.signBit
  · exact ⟨false, bits, h, by simp [Format.pack]⟩
  · exact ⟨true, bits - f.signBit, by omega, by simp [Format.pack]; omega⟩

/-- A finite datum is the point of bits below +∞. -/
theorem exists_point_of_datum (hf : f.HasFields) {bits : Nat} (hbits : bits < 2 ^ f.width) {p : Bool} {m : Nat}
    (h : f.datum bits = .fin p m) : ∃ b < f.infinity, m = f.point b := by
  obtain ⟨neg, b, hb, rfl⟩ := exists_pack hbits
  rw [datum_pack hf neg hb] at h
  split at h
  next hlt =>
    cases h
    exact ⟨b, hlt, rfl⟩
  next => split at h <;> cases h

theorem pack_lt {neg : Bool} {b : Nat} (hb : b < f.signBit) : f.pack neg b < 2 ^ f.width := by
  rw [two_pow_width]
  cases neg <;> simp [Format.pack] <;> omega

/-- Whatever the choice, the pattern is a NaN (R292). -/
theorem isNaN_nanPattern (hf : f.HasFields) (choice : Word) : f.IsNaN (f.nanPattern choice) := by
  have hfrac : 2 ≤ 2 ^ f.fracBits := Nat.le_self_pow hf.frac.ne' 2
  have hmod : choice.toNat % 2 ^ f.fracBits < 2 ^ f.fracBits := Nat.mod_lt _ (by positivity)
  have hinf := infinity_add f
  have hb : f.infinity + max 1 (choice.toNat % 2 ^ f.fracBits) < f.signBit := by omega
  refine ⟨pack_lt hb, ?_⟩
  rw [Format.nanPattern, datum_pack hf _ hb, if_neg (by omega), if_neg (by omega)]

/-- A rounded magnitude is at most +∞'s. -/
theorem round_lt (f : Format) (mode : RoundMode) (neg : Bool) (num den : Nat) :
    f.round mode neg num den < 2 ^ f.width := by
  rw [round_eq f mode neg num den rfl]
  generalize (if mode.increments _ _ _ _ then 1 else 0) = inc
  refine pack_lt (lt_of_le_of_lt ?_ (infinity_lt_signBit f))
  have hover : mode.overflow f neg ≤ f.infinity := by
    cases mode <;> cases neg <;> simp [RoundMode.overflow]
  split
  · exact hover
  · omega

end Data

/-- The datum of a bit vector by its top bit and its two fields. -/
theorem datum_toNat {f : Format} (w : BitVec f.width) :
    f.datum w.toNat =
      if (w.extractLsb' f.fracBits f.expBits).toNat = 2 ^ f.expBits - 1 then
        (if (w.extractLsb' 0 f.fracBits).toNat = 0 then .inf w.msb else .nan)
      else if (w.extractLsb' f.fracBits f.expBits).toNat = 0 then .fin w.msb (w.extractLsb' 0 f.fracBits).toNat
      else .fin w.msb ((2 ^ f.fracBits + (w.extractLsb' 0 f.fracBits).toNat) *
        2 ^ ((w.extractLsb' f.fracBits f.expBits).toNat - 1)) := by
  have hsign : (w.toNat / f.signBit % 2 == 1) = w.msb := by
    have hpos : 0 < f.signBit := Nat.two_pow_pos _
    have hquot : w.toNat / f.signBit < 2 := by
      rw [Nat.div_lt_iff_lt_mul hpos, ← two_pow_width]
      exact w.isLt
    have hge : 1 ≤ w.toNat / f.signBit ↔ f.signBit ≤ w.toNat := by
      rw [Nat.le_div_iff_mul_le hpos, Nat.one_mul]
    have htop : 2 ^ (f.width - 1) = f.signBit := by
      rw [Format.width, Nat.add_assoc, Nat.add_sub_cancel_left]
      rfl
    rw [BitVec.msb_eq_decide, htop, beq_eq_decide, decide_eq_decide, ← hge]
    generalize w.toNat / f.signBit = q at hquot
    omega
  simp only [Format.datum, hsign, BitVec.extractLsb'_toNat, Nat.shiftRight_eq_div_pow, Nat.pow_zero, Nat.div_one]

theorem binary32_unitsPerOne : binary32.unitsPerOne = 2 ^ 149 := congrArg (2 ^ ·) (by decide)

theorem binary64_unitsPerOne : binary64.unitsPerOne = 2 ^ 1074 := congrArg (2 ^ ·) (by decide)

/-- Settles O49: `datum_toNat` at the two formats, and the exponents of their units. -/
theorem floatEncodings : Obligations.FloatEncodings := by
  unfold Obligations.FloatEncodings
  exact ⟨datum_toNat (f := binary32), datum_toNat (f := binary64), binary32_unitsPerOne, binary64_unitsPerOne⟩

/-! ## Results that may be a NaN (R291, R292) -/

/-- A result meets `P`: its bits do, and where it has none every NaN does. The bits fit the format. -/
def Format.Answers (f : Format) (P : Nat → Prop) : Option Nat → Prop
  | none => ∀ bits, f.IsNaN bits → P bits
  | some bits => P bits ∧ bits < 2 ^ f.width

section Answers

variable {f : Format} {P : Nat → Prop}

/-- What is written for a result that meets `P` meets `P`, and fits. -/
theorem resultBits_of_answers (hf : f.HasFields) {result : Option Nat} (h : f.Answers P result) (source : NanSource)
    (operands : List Word) :
    P (f.resultBits source operands result) ∧ f.resultBits source operands result < 2 ^ f.width := by
  cases result with
  | none =>
    have hnan := isNaN_nanPattern hf (Config.nanChoice source operands)
    exact ⟨h _ hnan, hnan.1⟩
  | some bits => exact h

theorem answers_pack (neg : Bool) {b : Nat} (hb : b ≤ f.infinity) (h : P (f.pack neg b)) :
    f.Answers P (some (f.pack neg b)) :=
  ⟨h, pack_lt (lt_of_le_of_lt hb (infinity_lt_signBit f))⟩

theorem answers_round {mode : RoundMode} {neg : Bool} {num den : Nat} (h : P (f.round mode neg num den)) :
    f.Answers P (some (f.round mode neg num den)) :=
  ⟨h, round_lt ..⟩

/-- A signed number of units is a zero with its sign, or rounded. -/
theorem answers_roundSigned (hf : f.HasFields) {mode : RoundMode} {negZero : Bool} {v : Int} {den : Nat} (hden : 0 < den)
    (hP : ∀ bits, (if v = 0 then bits = f.pack negZero 0 else f.IsRounding mode (v < 0) v.natAbs den bits) → P bits) :
    f.Answers P (some (f.roundSigned mode negZero v den)) := by
  unfold Format.roundSigned
  by_cases hv : v = 0
  · rw [if_pos hv]
    exact answers_pack _ (Nat.zero_le _) (hP _ (by rw [if_pos hv]))
  · rw [if_neg hv]
    refine answers_round (hP _ ?_)
    rw [if_neg hv]
    exact isRounding_round hf mode _ _ hden

theorem unitsPerOne_pos (f : Format) : 0 < f.unitsPerOne := by
  unfold Format.unitsPerOne
  positivity

end Answers

/-! ## Arithmetic -/

section Arithmetic

variable {f : Format} (hf : f.HasFields)
include hf

theorem add_answers (a b : Datum) : f.Answers (f.IsSum a b) (f.add .nearestEven a b) := by
  cases a with
  | nan => exact fun _ h => h
  | inf p =>
    cases b with
    | nan => exact fun _ h => h
    | inf q =>
      by_cases hpq : p = q
      · rw [Format.add, if_pos hpq]
        exact answers_pack p le_rfl (by simp [Format.IsSum, hpq])
      · rw [Format.add, if_neg hpq]
        exact fun _ h => by simpa [Format.IsSum, hpq] using h
    | fin q n => exact answers_pack p le_rfl rfl
  | fin p m =>
    cases b with
    | nan => exact fun _ h => h
    | inf q => exact answers_pack q le_rfl rfl
    | fin q n => exact answers_roundSigned hf Nat.one_pos fun _ h => h

theorem sub_answers (a b : Datum) : f.Answers (f.IsSum a b.opposite) (f.sub .nearestEven a b) := by
  have hneg : b.negate = b.opposite := by cases b <;> rfl
  rw [Format.sub, hneg]
  exact add_answers hf a b.opposite

theorem mul_answers (a b : Datum) : f.Answers (f.IsProduct a b) (f.mul .nearestEven a b) := by
  cases a with
  | nan => exact fun _ h => h
  | inf p =>
    cases b with
    | nan => exact fun _ h => h
    | inf q => exact answers_pack _ le_rfl rfl
    | fin q n =>
      by_cases hn : n = 0
      · rw [Format.mul, if_pos hn]
        exact fun _ h => by simpa [Format.IsProduct, hn] using h
      · rw [Format.mul, if_neg hn]
        exact answers_pack _ le_rfl (by simp [Format.IsProduct, hn])
  | fin p m =>
    cases b with
    | nan => exact fun _ h => h
    | inf q =>
      by_cases hm : m = 0
      · rw [Format.mul, if_pos hm]
        exact fun _ h => by simpa [Format.IsProduct, hm] using h
      · rw [Format.mul, if_neg hm]
        exact answers_pack _ le_rfl (by simp [Format.IsProduct, hm])
    | fin q n => exact answers_round (isRounding_round hf _ _ _ (unitsPerOne_pos f))

theorem div_answers (a b : Datum) : f.Answers (f.IsQuotient a b) (f.div .nearestEven a b) := by
  cases a with
  | nan => exact fun _ h => h
  | inf p =>
    cases b with
    | nan | inf q => exact fun _ h => h
    | fin q n => exact answers_pack _ le_rfl rfl
  | fin p m =>
    cases b with
    | nan => exact fun _ h => h
    | inf q => exact answers_pack _ (Nat.zero_le _) rfl
    | fin q n =>
      by_cases hn : n = 0
      · by_cases hm : m = 0
        · rw [Format.div, if_pos hn, if_pos hm]
          exact fun _ h => by simpa [Format.IsQuotient, hn, hm] using h
        · rw [Format.div, if_pos hn, if_neg hm]
          exact answers_pack _ le_rfl (by simp [Format.IsQuotient, hn, hm])
      · rw [Format.div, if_neg hn]
        refine answers_round ?_
        rw [Format.IsQuotient, if_neg hn]
        exact isRounding_round hf _ _ _ (Nat.pos_of_ne_zero hn)

omit hf in
/-- Adding to an infinite product: a NaN with the other infinity, else the product (R308). -/
theorem add_inf_answers {P : Nat → Prop} {r : Bool} {c : Datum} (hc : c ≠ .nan)
    (hP : ∀ bits, (if c = .inf !r then f.IsNaN bits else bits = f.pack r f.infinity) → P bits) :
    f.Answers P (f.add .nearestEven (.inf r) c) := by
  cases c with
  | nan => exact absurd rfl hc
  | inf q =>
    by_cases hq : r = q
    · subst hq
      rw [Format.add, if_pos rfl]
      exact answers_pack r le_rfl (hP _ (by simp))
    · obtain rfl : q = !r := Bool.eq_not.mpr (Ne.symm hq)
      rw [Format.add, if_neg hq]
      exact fun _ h => hP _ (by simpa using h)
  | fin q n => exact answers_pack r le_rfl (hP _ (by simp))

omit hf in
/-- The same where the product may be of a zero and an infinity, which gives a NaN (R308). -/
theorem infinite_product_answers {P : Nat → Prop} {r : Bool} {m : Nat} {c : Datum} (hc : c ≠ .nan)
    (hP : ∀ bits, (if m = 0 ∨ c = .inf !r then f.IsNaN bits else bits = f.pack r f.infinity) → P bits) :
    f.Answers P (if m = 0 then none else f.add .nearestEven (.inf r) c) := by
  by_cases hm : m = 0
  · rw [if_pos hm]
    exact fun bits h => hP bits (by rwa [if_pos (.inl hm)])
  · rw [if_neg hm]
    exact add_inf_answers hc (by simpa [hm] using hP)

theorem fma_answers (a b c : Datum) : f.Answers (f.IsFused a b c) (f.fma .nearestEven a b c) := by
  by_cases hc : c = .nan
  · subst hc
    cases a <;> cases b <;> exact fun _ h => h
  cases a with
  | nan => exact fun _ h => h
  | inf p =>
    cases b with
    | nan => exact fun _ h => h
    | inf q =>
      cases c with
      | nan => exact absurd rfl hc
      | inf t | fin t k => exact add_inf_answers hc fun _ h => h
    | fin q n =>
      cases c with
      | nan => exact absurd rfl hc
      | inf t | fin t k => exact infinite_product_answers hc fun _ h => h
  | fin p m =>
    cases b with
    | nan => exact fun _ h => h
    | inf q =>
      cases c with
      | nan => exact absurd rfl hc
      | inf t | fin t k => exact infinite_product_answers hc fun _ h => h
    | fin q n =>
      cases c with
      | nan => exact absurd rfl hc
      | inf t => exact answers_pack t le_rfl rfl
      | fin t k => exact answers_roundSigned hf (unitsPerOne_pos f) fun _ h => h

end Arithmetic

end Sys2Proof.Machine
end

section
/-! The float instructions (46_float.md R300 to R319): each family once, at any format that fits a register. -/

namespace Sys2Proof.Machine

open Sys2Proof

/-! ## Writing a float result -/

section Results

variable {f : Format} {s : State}

/-- A float result is written zero-extended (R290). -/
theorem setFloat_eq_setReg (hw : f.width ≤ 64) {bits : Nat} (hbits : bits < 2 ^ f.width) (rd : RegNum) :
    s.setFloat f rd bits = s.setReg rd (BitVec.ofNat 64 bits) := by
  rw [State.setFloat, State.setNarrow, setWidth_ofNat hw, Nat.mod_eq_of_lt hbits]

theorem completes_setFloat (hw : f.width ≤ 64) {bits : Nat} (hbits : bits < 2 ^ f.width) {i : Instr} {rd : RegNum} {len : Nat}
    (h : exec i s = .next ((s.setFloat f rd bits).advance len)) :
    Completes i s (s.pc + BitVec.ofNat 64 len) (afterWrite s rd (BitVec.ofNat 64 bits)) := by
  rw [setFloat_eq_setReg hw hbits] at h
  exact completes_setReg h

end Results

/-! ## Arithmetic: one function of the operands' bits -/

section Families

variable {f : Format} (hf : f.HasFields) (hw : f.width ≤ 64) {source : NanSource}
include hf hw

/-- A binary operation whose results meet `P` writes a function of the operands' bits that meets `P`. -/
theorem exists_floatBinary {op : RoundMode → Datum → Datum → Option Nat} {P : Datum → Datum → Nat → Prop} {opcode : Byte}
    {i : RegNum → RegNum → RegNum → Instr} (hop : ∀ a b, f.Answers (P a b) (op .nearestEven a b))
    (hencode : ∀ rd ra rb, encode (i rd ra rb) = [opcode, rd, ra, rb])
    (hexec : ∀ rd ra rb s, exec (i rd ra rb) s = s.floatBinary f source op rd ra rb) :
    ∃ F : BitVec f.width → BitVec f.width → Nat, (∀ a b, P (f.datum a.toNat) (f.datum b.toNat) (F a b)) ∧
      ∀ (s : State) (rd ra rb : RegNum),
        encode (i rd ra rb) = [opcode, rd, ra, rb] ∧
        Completes (i rd ra rb) s (s.pc + 4#64) (afterWrite s rd
          (BitVec.ofNat 64 (F ((s.reg ra).setWidth f.width) ((s.reg rb).setWidth f.width)))) := by
  have hresult := fun (a b : BitVec f.width) =>
    resultBits_of_answers hf (hop (f.datum a.toNat) (f.datum b.toNat)) source [a.setWidth 64, b.setWidth 64]
  exact ⟨_, fun a b => (hresult a b).1, fun s rd ra rb =>
    ⟨hencode rd ra rb, completes_setFloat hw (hresult _ _).2 (hexec rd ra rb s)⟩⟩

/-- The same for three operands (R308). -/
theorem exists_floatFma {opcode : Byte} {i : RegNum → RegNum → RegNum → RegNum → Instr}
    (hencode : ∀ rd ra rb rc, encode (i rd ra rb rc) = [opcode, rd, ra, rb, rc])
    (hexec : ∀ rd ra rb rc s, exec (i rd ra rb rc) s = s.floatFma f source rd ra rb rc) :
    ∃ F : BitVec f.width → BitVec f.width → BitVec f.width → Nat,
      (∀ a b c, f.IsFused (f.datum a.toNat) (f.datum b.toNat) (f.datum c.toNat) (F a b c)) ∧
      ∀ (s : State) (rd ra rb rc : RegNum),
        encode (i rd ra rb rc) = [opcode, rd, ra, rb, rc] ∧
        Completes (i rd ra rb rc) s (s.pc + 5#64) (afterWrite s rd (BitVec.ofNat 64
          (F ((s.reg ra).setWidth f.width) ((s.reg rb).setWidth f.width) ((s.reg rc).setWidth f.width)))) := by
  have hresult := fun (a b c : BitVec f.width) =>
    resultBits_of_answers hf (fma_answers hf (f.datum a.toNat) (f.datum b.toNat) (f.datum c.toNat)) source
      [a.setWidth 64, b.setWidth 64, c.setWidth 64]
  exact ⟨_, fun a b c => (hresult a b c).1, fun s rd ra rb rc =>
    ⟨hencode rd ra rb rc, completes_setFloat hw (hresult _ _ _).2 (hexec rd ra rb rc s)⟩⟩

end Families

theorem binary32_width_le : binary32.width ≤ 64 := by decide

theorem binary64_width_le : binary64.width ≤ 64 := by decide

/-- Settles O51: `add_answers` and `sub_answers` at each format. -/
theorem floatSumsAndDifferences : Obligations.FloatSumsAndDifferences := by
  unfold Obligations.FloatSumsAndDifferences
  exact ⟨exists_floatBinary binary32_hasFields binary32_width_le (add_answers binary32_hasFields)
      (fun _ _ _ => rfl) (fun _ _ _ _ => rfl),
    exists_floatBinary binary64_hasFields binary64_width_le (add_answers binary64_hasFields)
      (fun _ _ _ => rfl) (fun _ _ _ _ => rfl),
    exists_floatBinary binary32_hasFields binary32_width_le (sub_answers binary32_hasFields)
      (fun _ _ _ => rfl) (fun _ _ _ _ => rfl),
    exists_floatBinary binary64_hasFields binary64_width_le (sub_answers binary64_hasFields)
      (fun _ _ _ => rfl) (fun _ _ _ _ => rfl)⟩

/-- Settles O52: `mul_answers` and `div_answers` at each format. -/
theorem floatProductsAndQuotients : Obligations.FloatProductsAndQuotients := by
  unfold Obligations.FloatProductsAndQuotients
  exact ⟨exists_floatBinary binary32_hasFields binary32_width_le (mul_answers binary32_hasFields)
      (fun _ _ _ => rfl) (fun _ _ _ _ => rfl),
    exists_floatBinary binary64_hasFields binary64_width_le (mul_answers binary64_hasFields)
      (fun _ _ _ => rfl) (fun _ _ _ _ => rfl),
    exists_floatBinary binary32_hasFields binary32_width_le (div_answers binary32_hasFields)
      (fun _ _ _ => rfl) (fun _ _ _ _ => rfl),
    exists_floatBinary binary64_hasFields binary64_width_le (div_answers binary64_hasFields)
      (fun _ _ _ => rfl) (fun _ _ _ _ => rfl)⟩

/-- Settles O53: `fma_answers` at each format. -/
theorem fusedMultiplyAddRoundsOnce : Obligations.FusedMultiplyAddRoundsOnce := by
  unfold Obligations.FusedMultiplyAddRoundsOnce
  exact ⟨exists_floatFma binary32_hasFields binary32_width_le (fun _ _ _ _ => rfl) (fun _ _ _ _ _ => rfl),
    exists_floatFma binary64_hasFields binary64_width_le (fun _ _ _ _ => rfl) (fun _ _ _ _ _ => rfl)⟩

/-! ## Comparisons (R295) -/

section Comparisons

variable {f : Format}

/-- A finite datum of an encoding is nearer to 0 than the infinities' place in the order. -/
theorem lt_orderKey_infinity (hf : f.HasFields) {a : BitVec f.width} {p : Bool} {m : Nat}
    (h : f.datum a.toNat = .fin p m) : m < 2 ^ f.fracBits * 2 ^ (2 ^ f.expBits - 2) := by
  obtain ⟨b, hb, rfl⟩ := exists_point_of_datum hf a.isLt h
  rw [← point_infinity hf]
  exact point_strictMono f hb

/-- The order of the keys is the order of the data. -/
theorem orderKey_lt_of_below (hf : f.HasFields) {a b : BitVec f.width}
    (h : (f.datum a.toNat).below (f.datum b.toNat)) :
    f.orderKey (f.datum a.toNat) < f.orderKey (f.datum b.toNat) := by
  have hpos : 0 < 2 ^ f.fracBits * 2 ^ (2 ^ f.expBits - 2) := by positivity
  cases ha : f.datum a.toNat with
  | nan => simp [ha, Datum.below] at h
  | inf p =>
    cases hb : f.datum b.toNat with
    | nan => simp [ha, hb, Datum.below] at h
    | inf q =>
      obtain ⟨rfl, rfl⟩ : p = true ∧ q = false := by simpa [ha, hb, Datum.below] using h
      simp only [Format.orderKey, signed, if_true, Bool.false_eq_true, if_false]
      omega
    | fin q n =>
      obtain rfl : p = true := by simpa [ha, hb, Datum.below] using h
      have hn := lt_orderKey_infinity hf hb
      cases q <;> simp only [Format.orderKey, signed, if_true, Bool.false_eq_true, if_false] <;> omega
  | fin p m =>
    have hm := lt_orderKey_infinity hf ha
    cases hb : f.datum b.toNat with
    | nan => simp [ha, hb, Datum.below] at h
    | inf q =>
      obtain rfl : q = false := by simpa [ha, hb, Datum.below] using h
      cases p <;> simp only [Format.orderKey, signed, if_true, Bool.false_eq_true, if_false] <;> omega
    | fin q n => simpa [ha, hb, Datum.below, Format.orderKey] using h

/-- Equal data have equal keys. -/
theorem orderKey_eq_of_same {a b : Datum} (h : a.same b) : f.orderKey a = f.orderKey b := by
  cases a with
  | nan => simp [Datum.same] at h
  | inf p =>
    cases b with
    | nan | fin q n => simp [Datum.same] at h
    | inf q =>
      obtain rfl : p = q := h
      rfl
  | fin p m =>
    cases b with
    | nan | inf q => simp [Datum.same] at h
    | fin q n => exact h

theorem compare_of_nan {nanNumber : Word} {a b : Datum} (h : a = .nan ∨ b = .nan) :
    f.compare nanNumber a b = nanNumber := by
  obtain rfl | rfl := h
  · rfl
  · cases a <;> rfl

theorem compare_of_ne_nan {nanNumber : Word} {a b : Datum} (ha : a ≠ .nan) (hb : b ≠ .nan) :
    f.compare nanNumber a b = ordering (f.orderKey a < f.orderKey b) (f.orderKey a = f.orderKey b) := by
  rw [← orderNumber_eq_ordering, ← beq_eq_decide]
  cases a with
  | nan => exact absurd rfl ha
  | inf p | fin p m =>
    cases b with
    | nan => exact absurd rfl hb
    | inf q | fin q n => rfl

theorem ne_nan_of_below {a b : Datum} (h : a.below b) : a ≠ .nan ∧ b ≠ .nan := by
  constructor <;> rintro rfl
  · simp [Datum.below] at h
  · cases a <;> simp [Datum.below] at h

theorem ne_nan_of_same {a b : Datum} (h : a.same b) : a ≠ .nan ∧ b ≠ .nan := by
  constructor <;> rintro rfl
  · simp [Datum.same] at h
  · cases a <;> simp [Datum.same] at h

end Comparisons

/-- A comparison writes the order's number, or the variant's own for a NaN (decision D33). -/
theorem completes_floatCompare {f : Format} (hf : f.HasFields) {i : Instr} {s : State} {rd ra rb : RegNum} {nanNumber : Word}
    {order : Int} (horder : nanNumber = BitVec.ofInt 64 order)
    (h : exec i s = s.floatCompare f nanNumber rd ra rb) (a b : Datum)
    (ha : a = f.datum ((s.reg ra).setWidth f.width).toNat) (hb : b = f.datum ((s.reg rb).setWidth f.width).toNat) :
    (a = .nan ∨ b = .nan → Completes i s (s.pc + 4#64) (afterWrite s rd (BitVec.ofInt 64 order))) ∧
    (a.below b → Completes i s (s.pc + 4#64) (afterWrite s rd (BitVec.ofInt 64 (-1)))) ∧
    (a.same b → Completes i s (s.pc + 4#64) (afterWrite s rd (BitVec.ofInt 64 0))) ∧
    (b.below a → Completes i s (s.pc + 4#64) (afterWrite s rd (BitVec.ofInt 64 1))) := by
  have hc : Completes i s (s.pc + 4#64) (afterWrite s rd (f.compare nanNumber a b)) := by
    rw [ha, hb]
    exact completes_setReg h
  refine ⟨fun hnan => ?nan, fun hbelow => ?below, fun hsame => ?same, fun habove => ?above⟩
  case nan => rwa [compare_of_nan hnan, horder] at hc
  case below =>
    obtain ⟨hna, hnb⟩ := ne_nan_of_below hbelow
    have hlt : f.orderKey a < f.orderKey b := by
      subst ha hb
      exact orderKey_lt_of_below hf hbelow
    rwa [compare_of_ne_nan hna hnb, ordering, if_pos hlt] at hc
  case same =>
    obtain ⟨hna, hnb⟩ := ne_nan_of_same hsame
    have heq : f.orderKey a = f.orderKey b := orderKey_eq_of_same hsame
    rwa [compare_of_ne_nan hna hnb, ordering, if_neg heq.not_lt, if_pos heq] at hc
  case above =>
    obtain ⟨hnb, hna⟩ := ne_nan_of_below habove
    have hgt : f.orderKey b < f.orderKey a := by
      subst ha hb
      exact orderKey_lt_of_below hf habove
    rwa [compare_of_ne_nan hna hnb, ordering, if_neg hgt.not_gt, if_neg hgt.ne'] at hc

/-- Settles O54: each is `completes_floatCompare`, with its own number for a NaN. -/
theorem floatComparisonsGiveOrderings : Obligations.FloatComparisonsGiveOrderings := by
  unfold Obligations.FloatComparisonsGiveOrderings
  intro s rd ra rb
  exact ⟨rfl, completes_floatCompare binary32_hasFields rfl rfl, rfl, completes_floatCompare binary64_hasFields rfl rfl,
    rfl, completes_floatCompare binary32_hasFields rfl rfl, rfl, completes_floatCompare binary64_hasFields rfl rfl⟩

/-! ## Conversions from integers -/

theorem exists_intToFloat {f : Format} (hf : f.HasFields) (hw : f.width ≤ 64) {i : Instr} {s : State} {rd ra : RegNum}
    (h : exec i s = s.intToFloat f rd ra) :
    ∃ bits, f.IsRounding .nearestEven (signedReading 64 (s.reg ra).toNat < 0)
        ((signedReading 64 (s.reg ra).toNat).natAbs * f.unitsPerOne) 1 bits ∧
      Completes i s (s.pc + 3#64) (afterWrite s rd (BitVec.ofNat 64 bits)) := by
  rw [State.intToFloat, Format.ofInt, toInt_eq_signedReading (by decide)] at h
  exact ⟨_, isRounding_round hf _ _ _ Nat.one_pos, completes_setFloat hw (round_lt ..) h⟩

/-- Settles O55: `exists_intToFloat` at each format. -/
theorem integersToFloats : Obligations.IntegersToFloats := by
  unfold Obligations.IntegersToFloats
  exact fun s rd ra => ⟨rfl, exists_intToFloat binary32_hasFields binary32_width_le rfl,
    rfl, exists_intToFloat binary64_hasFields binary64_width_le rfl⟩

/-! ## Rounding-mode bytes (30_encoding.md R79) -/

/-- The byte of a mode selects it. -/
theorem ofByte_byte (mode : RoundMode) : RoundMode.ofByte mode.byte = some mode := by
  cases mode <;> rfl

/-- A byte of 4 or more selects no mode. -/
theorem ofByte_of_four_le {rm : Byte} (h : 4 ≤ rm.toNat) : RoundMode.ofByte rm = none := by
  obtain ⟨n, hn⟩ := Nat.exists_eq_add_of_le' h
  simp [RoundMode.ofByte, hn]

/-- Settles O58: no byte of 4 or more selects a mode, which all three instructions check first. -/
theorem badRoundingByteRaises : Obligations.BadRoundingByteRaises := by
  unfold Obligations.BadRoundingByteRaises
  intro s rd ra rm h
  have hnone := ofByte_of_four_le h
  refine ⟨?fti32, ?fti64, ?fc64t32⟩
  case fti32 =>
    simp only [exec, execFti32, State.floatToInt, hnone]
    rfl
  case fti64 =>
    simp only [exec, execFti64, State.floatToInt, hnone]
    rfl
  case fc64t32 =>
    simp only [exec, execFc64t32, hnone]
    rfl

/-! ## Conversions to integers -/

/-- A magnitude of whole units is rounded as its mode says, with its sign (R293). -/
theorem isWhole_whole (mode : RoundMode) (p : Bool) (m : Nat) {unit : Nat} (hunit : 0 < unit) :
    mode.IsWhole (signed p m) unit (signed p (mode.whole p m unit)) := by
  have hdm : ((m / unit : Nat) : Int) * unit + (m % unit : Nat) = m := by exact_mod_cast Nat.div_add_mod' m unit
  have hlt : m % unit < unit := Nat.mod_lt _ hunit
  have hnonneg : 0 ≤ ((m / unit : Nat) : Int) * unit := by positivity
  unfold RoundMode.whole
  generalize m / unit = w at *
  generalize m % unit = r at *
  cases mode with
  | nearestEven =>
    simp only [RoundMode.IsWhole, RoundMode.increments, Bool.or_eq_true, Bool.and_eq_true, decide_eq_true_eq, beq_iff_eq]
    cases p <;> simp only [signed, if_true, Bool.false_eq_true, if_false] <;> split <;> push_cast <;>
      simp only [neg_mul, add_mul, one_mul, add_zero] <;> omega
  | towardZero =>
    simp only [RoundMode.IsWhole, RoundMode.increments, Bool.false_eq_true, if_false, add_zero]
    cases p <;> simp only [signed, if_true, Bool.false_eq_true, if_false] <;> split <;>
      simp only [neg_mul, add_mul, sub_mul, one_mul] <;> omega
  | up =>
    cases p with
    | false =>
      simp only [RoundMode.IsWhole, RoundMode.increments, signed, Bool.not_false, Bool.true_and, bne_iff_ne, ne_eq,
        Bool.false_eq_true, if_false]
      split <;> push_cast <;> simp only [add_mul, sub_mul, one_mul, add_zero] <;> omega
    | true =>
      simp only [RoundMode.IsWhole, RoundMode.increments, signed, Bool.not_true, Bool.false_and, Bool.false_eq_true, if_false,
        if_true, add_zero, neg_mul, sub_mul, one_mul]
      omega
  | down =>
    cases p with
    | false =>
      simp only [RoundMode.IsWhole, RoundMode.increments, signed, Bool.false_and, Bool.false_eq_true, if_false, add_zero,
        add_mul, one_mul]
      omega
    | true =>
      simp only [RoundMode.IsWhole, RoundMode.increments, signed, Bool.true_and, bne_iff_ne, ne_eq, if_true]
      split <;> push_cast <;> simp only [neg_mul, add_mul, one_mul, add_zero] <;> omega

section ToInteger

variable {f : Format} {mode : RoundMode} {i : Instr} {s : State} {source : FtiSource} {rd ra : RegNum}

/-- Where the value has no integer, `FTI_INVALID` says what happens (R316). -/
theorem convertsInvalid_of_floatToInt (hnone : f.toSi64 mode (s.floatOperand f ra) = none)
    (h : exec i s = s.floatToInt f source rd ra mode.byte) :
    ConvertsInvalid i s source rd (s.operandBits f ra) mode.byte := by
  simp only [State.floatToInt, ofByte_byte, hnone] at h
  unfold ConvertsInvalid
  split
  next hraises => rwa [if_pos hraises] at h
  next hwrites =>
    rw [if_neg hwrites] at h
    exact completes_setReg h

theorem completes_floatToInt {v : Int} (hsome : f.toSi64 mode (s.floatOperand f ra) = some v)
    (h : exec i s = s.floatToInt f source rd ra mode.byte) :
    Completes i s (s.pc + 4#64) (afterWrite s rd (BitVec.ofInt 64 v)) := by
  simp only [State.floatToInt, ofByte_byte, hsome] at h
  exact completes_setReg h

/-- A finite number is rounded to a whole one, which is written where it fits 64 signed bits. -/
theorem floatToInt_of_fin {p : Bool} {m : Nat} (hdatum : s.floatOperand f ra = .fin p m)
    (h : exec i s = s.floatToInt f source rd ra mode.byte) :
    ∃ k : Int, mode.IsWhole (signed p m) f.unitsPerOne k ∧
      if -2 ^ 63 ≤ k ∧ k < 2 ^ 63 then Completes i s (s.pc + 4#64) (afterWrite s rd (BitVec.ofInt 64 k))
      else ConvertsInvalid i s source rd (s.operandBits f ra) mode.byte := by
  refine ⟨_, isWhole_whole mode p m (unitsPerOne_pos f), ?_⟩
  generalize hk : signed p (mode.whole p m f.unitsPerOne) = k
  have hvalue : f.toSi64 mode (s.floatOperand f ra) = if -2 ^ 63 ≤ k ∧ k ≤ 2 ^ 63 - 1 then some k else none := by
    rw [hdatum, ← hk]
    rfl
  split
  next hfits => exact completes_floatToInt (hvalue.trans (if_pos (by omega))) h
  next hnot => exact convertsInvalid_of_floatToInt (hvalue.trans (if_neg (by omega))) h

/-- A NaN and an infinity have no integer. -/
theorem floatToInt_of_not_fin (hdatum : ∀ p m, s.floatOperand f ra ≠ .fin p m)
    (h : exec i s = s.floatToInt f source rd ra mode.byte) :
    ConvertsInvalid i s source rd (s.operandBits f ra) mode.byte := by
  refine convertsInvalid_of_floatToInt ?_ h
  cases hd : s.floatOperand f ra with
  | nan | inf p => rfl
  | fin p m => exact absurd hd (hdatum p m)

end ToInteger

/-- Settles O56: `floatToInt_of_fin` and `floatToInt_of_not_fin` at each format. -/
theorem floatsToIntegers : Obligations.FloatsToIntegers := by
  unfold Obligations.FloatsToIntegers
  intro s rd ra mode
  refine ⟨rfl, ?fti32, rfl, ?fti64⟩
  case fti32 =>
    split
    next hfin => exact floatToInt_of_fin hfin rfl
    next hnot => exact floatToInt_of_not_fin hnot rfl
  case fti64 =>
    split
    next hfin => exact floatToInt_of_fin hfin rfl
    next hnot => exact floatToInt_of_not_fin hnot rfl

/-! ## Conversions between the formats -/

section Convert

variable {f : Format}

/-- Rounding to a whole number sees the fraction only. -/
theorem whole_mul_right (mode : RoundMode) (neg : Bool) (num den : Nat) {c : Nat} (hc : 0 < c) :
    mode.whole neg (num * c) (den * c) = mode.whole neg num den := by
  have hincrements : ∀ odd rem, mode.increments neg odd (rem * c) (den * c) = mode.increments neg odd rem den := by
    intro odd rem
    have hdouble : 2 * (rem * c) = 2 * rem * c := by ring
    cases mode <;> simp [RoundMode.increments, bne, beq_eq_decide, hdouble, hc, hc.ne']
  rw [RoundMode.whole, RoundMode.whole, Nat.mul_div_mul_right _ _ hc, Nat.mul_mod_mul_right, hincrements]

/-- And so does `Format.round`. -/
theorem round_mul_right (f : Format) (mode : RoundMode) (neg : Bool) (num den : Nat) {c : Nat} (hc : 0 < c) :
    f.round mode neg (num * c) (den * c) = f.round mode neg num den := by
  simp only [Format.round, Nat.mul_div_mul_right _ _ hc, Nat.mul_right_comm den c, whole_mul_right _ _ _ _ hc]

/-- A point of the format is rounded to its own encoding. -/
theorem round_point (hf : f.HasFields) (neg : Bool) {c : Nat} (hc : c < f.infinity) :
    f.round .nearestEven neg (f.point c) 1 = f.pack neg c := by
  obtain ⟨b, hround, hb, hnearest⟩ := isRounding_round hf .nearestEven neg (f.point c) Nat.one_pos
  have hself : f.distance (f.point c) 1 c = 0 := by simp [Format.distance]
  obtain rfl : b = c := by
    by_contra hne
    obtain hlt | ⟨heq, -⟩ := hnearest c hc.le (Ne.symm hne)
    · omega
    · have hpoint : f.point b = f.point c := by
        rw [hself, Format.distance] at heq
        omega
      exact hne ((point_strictMono f).injective hpoint)
  exact hround

/-- What a conversion gives for a datum: some NaN, the infinity of the same sign, or what `finite` says of a finite number. -/
def Format.ConvertsTo (f : Format) (finite : Bool → Nat → Nat → Prop) (a : Datum) (bits : Nat) : Prop :=
  match a with
  | .nan => f.IsNaN bits
  | .inf p => bits = f.pack p f.infinity
  | .fin p m => finite p m bits

theorem convertFrom_answers {g : Format} {mode : RoundMode} {finite : Bool → Nat → Nat → Prop} {a : Datum}
    (hfinite : ∀ p m, a = .fin p m → finite p m (f.round mode p (m * f.unitsPerOne) g.unitsPerOne)) :
    f.Answers (f.ConvertsTo finite a) (f.convertFrom g mode a) := by
  cases a with
  | nan => exact fun _ h => h
  | inf p => exact answers_pack p le_rfl rfl
  | fin p m => exact answers_round (hfinite p m rfl)

end Convert

/-- How many units of Fl64 make one of Fl32. -/
theorem unitsPerOne_ratio : binary64.unitsPerOne = 2 ^ 925 * binary32.unitsPerOne := by
  rw [binary32_unitsPerOne, binary64_unitsPerOne, ← Nat.pow_add]

/-- A finite Fl32 number is a finite Fl64 number (R318). -/
theorem exists_point_binary64 {b : Nat} (hb : b < binary32.infinity) :
    ∃ c < binary64.infinity, binary64.point c = binary32.point b * 2 ^ 925 := by
  obtain ⟨q, n, hscaled, hn, hq⟩ := exists_scaled binary32 b
  have hpoint : binary32.point b = n * 2 ^ q := by
    rw [hscaled]
    exact point_scaled hn.le hq
  obtain ⟨c, hc⟩ := exists_point_eq binary64 (q + 925) n (hn.trans_le (by decide))
  have hsame : binary64.point c = binary32.point b * 2 ^ 925 := by
    rw [hc, hpoint, pow_add, mul_assoc]
  refine ⟨c, (point_strictMono binary64).lt_iff_lt.mp ?_, hsame⟩
  calc binary64.point c = binary32.point b * 2 ^ 925 := hsame
    _ < binary32.point binary32.infinity * 2 ^ 925 :=
        Nat.mul_lt_mul_of_pos_right (point_strictMono binary32 hb) (pow_pos Nat.two_pos 925)
    _ = 2 ^ 1202 := by
        rw [point_infinity binary32_hasFields, ← pow_add, ← pow_add]
        exact congrArg (2 ^ ·) (by decide)
    _ ≤ 2 ^ 2098 := pow_le_pow_right₀ one_le_two (by decide)
    _ = binary64.point binary64.infinity := by
        rw [point_infinity binary64_hasFields, ← pow_add]
        exact congrArg (2 ^ ·) (by decide)

/-- Widening is exact. -/
theorem datum_round_widened {a : BitVec 32} {p : Bool} {m : Nat} (h : binary32.datum a.toNat = .fin p m) :
    binary64.datum (binary64.round .nearestEven p (m * binary64.unitsPerOne) binary32.unitsPerOne) =
      .fin p (m * 2 ^ 925) := by
  obtain ⟨b, hb, rfl⟩ := exists_point_of_datum binary32_hasFields a.isLt h
  obtain ⟨c, hc, hpoint⟩ := exists_point_binary64 hb
  have hscale := round_mul_right binary64 .nearestEven p (binary64.point c) 1 (unitsPerOne_pos binary32)
  rw [hpoint, Nat.one_mul, Nat.mul_assoc, ← unitsPerOne_ratio, ← hpoint] at hscale
  rw [hscale, round_point binary64_hasFields p hc, datum_pack binary64_hasFields p (hc.trans (infinity_lt_signBit _)),
    if_pos hc, hpoint]

/-- Narrowing rounds the number of Fl64 units as a fraction of Fl32 units. -/
theorem isRounding_narrowed (mode : RoundMode) (p : Bool) (m : Nat) :
    binary32.IsRounding mode p m (2 ^ 925) (binary32.round mode p (m * binary32.unitsPerOne) binary64.unitsPerOne) := by
  rw [unitsPerOne_ratio, round_mul_right _ _ _ _ _ (unitsPerOne_pos binary32)]
  exact isRounding_round binary32_hasFields mode p m (pow_pos Nat.two_pos 925)

/-- Settles O57: both are the conversion's answer, exact when widening, rounded in the mode when narrowing. -/
theorem floatsToFloats : Obligations.FloatsToFloats := by
  unfold Obligations.FloatsToFloats
  constructor
  · have hresult := fun a : BitVec 32 => resultBits_of_answers binary64_hasFields
      (convertFrom_answers (f := binary64) (g := binary32) (mode := .nearestEven) (a := binary32.datum a.toNat)
        (finite := fun p m bits => bits < 2 ^ 64 ∧ binary64.datum bits = .fin p (m * 2 ^ 925))
        fun p m h => ⟨round_lt .., datum_round_widened h⟩) .fc32t64 [a.setWidth 64]
    exact ⟨_, fun a => (hresult a).1, fun s rd ra =>
      ⟨rfl, completes_setFloat binary64_width_le (hresult _).2 rfl⟩⟩
  · have hresult := fun (mode : RoundMode) (a : BitVec 64) => resultBits_of_answers binary32_hasFields
      (convertFrom_answers (f := binary32) (g := binary64) (mode := mode) (a := binary64.datum a.toNat)
        (finite := fun p m => binary32.IsRounding mode p m (2 ^ 925))
        fun p m _ => isRounding_narrowed mode p m) .fc64t32 [a.setWidth 64, mode.byte.setWidth 64]
    refine ⟨_, fun mode a => (hresult mode a).1, fun s rd ra mode =>
      ⟨rfl, completes_setFloat binary32_width_le (hresult mode _).2 ?_⟩⟩
    simp only [exec, execFc64t32, ofByte_byte]
    rfl

end Sys2Proof.Machine
end
